-- ==== Sys2Proof/Word.lean ====
section
/-! DEFINITION. The word types of FSRC (spec/00_scope.md R14): the 32-bit command word and register, the byte,
and the 3-bit instance number. -/

namespace Sys2Proof

/-- Every register of the register port and every command word is 32 bits (R51, R57, R70). -/
abbrev Word := BitVec 32

/-- A cache byte: eight channels, bit `c` being channel `c + 1` (R14, R35, R56). -/
abbrev Byte := BitVec 8

/-- An instance number: the 3-bit field `INST` of a command word (R5, R70). -/
abbrev InstId := BitVec 3

end Sys2Proof
end

