-- ==== Sys2Proof/Syntax.lean ====
section
/-! DEFINITION. The syntax of FSRC's commands: one constructor for each row of spec/opcode_table.json (R70, R75). -/

namespace Sys2Proof

/-- The 23 commands of the opcode map (R75). An operand is the field of the command word that the row names
(R70, R71), unsigned and unscaled: `inst` = INST, `board` = BOARD, `count` = COUNT, `chan` = CHAN, `val` = VAL,
`set` = SET, `rst` = RST, `imm` = IMM16. Ignored bits (`x`, R77) are no operand. -/
inductive Instr where
  /-- `NOP` (R150): no operand at all, INST included. -/
  | nop
  /-- `TRESET i[, T]` (R97). -/
  | treset (inst : InstId) (imm : BitVec 16)
  /-- `TWRITE i, n` (R101); the bytes come from DATA. -/
  | twrite (inst : InstId) (count : BitVec 3)
  /-- `TWRZERO i` (R102). -/
  | twrzero (inst : InstId)
  /-- `TREAD i, n` (R103). -/
  | tread (inst : InstId) (count : BitVec 3)
  /-- `TANALOG i, a[, T]` (R104); `val` is the axis, 0 = X and 1 = Y. -/
  | tanalog (inst : InstId) (val : Bool) (imm : BitVec 16)
  /-- `TANALOG8 i, a` (R105). -/
  | tanalog8 (inst : InstId) (val : Bool)
  /-- `MCONS i[, n]` (R147). -/
  | mcons (inst : InstId) (count : BitVec 3)
  /-- `MDESTROY i` (R148). -/
  | mdestroy (inst : InstId)
  /-- `MSETCNT i, n` (R149). -/
  | msetcnt (inst : InstId) (count : BitVec 3)
  /-- `MREG i[, P]` (R161). -/
  | mreg (inst : InstId) (imm : BitVec 16)
  /-- `MMUTE i, v` (R162). -/
  | mmute (inst : InstId) (val : Bool)
  /-- `SETOB i, b, c, v` (R122). -/
  | setob (inst : InstId) (board : BitVec 3) (chan : BitVec 4) (val : Bool)
  /-- `SETOM i, b, S, R` (R123). -/
  | setom (inst : InstId) (board : BitVec 3) (set : Byte) (rst : Byte)
  /-- `GETOB i, b, c` (R124). -/
  | getob (inst : InstId) (board : BitVec 3) (chan : BitVec 4)
  /-- `GETOM i, b` (R125). -/
  | getom (inst : InstId) (board : BitVec 3)
  /-- `GETIB i, b, c` (R126). -/
  | getib (inst : InstId) (board : BitVec 3) (chan : BitVec 4)
  /-- `GETPIB i, b, c` (R127). -/
  | getpib (inst : InstId) (board : BitVec 3) (chan : BitVec 4)
  /-- `GETIM i, b` (R128). -/
  | getim (inst : InstId) (board : BitVec 3)
  /-- `GETPIM i, b` (R129). -/
  | getpim (inst : InstId) (board : BitVec 3)
  /-- `REFO i` (R144). -/
  | refo (inst : InstId)
  /-- `REFI i` (R145). -/
  | refi (inst : InstId)
  /-- `REF i` (R146). -/
  | ref (inst : InstId)
  deriving DecidableEq, Repr

end Sys2Proof
end

