-- ==== Sys2Proof/Decode.lean ====
section
/-! DEFINITION. Decoding a command word (R70, R75, R76), total on every 32-bit word, and the encoder. -/

namespace Sys2Proof

/-- Why a word is no command. -/
inductive DecodeError where
  /-- `OP` is one of the reserved opcodes (R76). The machine answers BAD_OPCODE (R173): safe, as the spec says. -/
  | reservedOpcode (op : BitVec 5)
  deriving DecidableEq, Repr

/-- `OP`, bits 4:0 (R70). -/
def fieldOp (w : Word) : BitVec 5 := w.extractLsb' 0 5
/-- `INST`, bits 7:5. -/
def fieldInst (w : Word) : InstId := w.extractLsb' 5 3
/-- `BOARD`/`COUNT`, bits 10:8. -/
def fieldBoard (w : Word) : BitVec 3 := w.extractLsb' 8 3
/-- `CHAN`, bits 14:11. -/
def fieldChan (w : Word) : BitVec 4 := w.extractLsb' 11 4
/-- `VAL`, bit 15. -/
def fieldVal (w : Word) : Bool := w.getLsbD 15
/-- `SET`, bits 23:16. -/
def fieldSet (w : Word) : Byte := w.extractLsb' 16 8
/-- `RST`, bits 31:24. -/
def fieldRst (w : Word) : Byte := w.extractLsb' 24 8
/-- `IMM16`, bits 31:16. -/
def fieldImm (w : Word) : BitVec 16 := w.extractLsb' 16 16

/-- The decoder: `OP` alone picks the row (R75); no field is checked here (R71). -/
def decode (w : Word) : Except DecodeError Instr :=
  match (fieldOp w).toNat with
  | 0x00 => .ok .nop
  | 0x01 => .ok (.treset (fieldInst w) (fieldImm w))
  | 0x02 => .ok (.twrite (fieldInst w) (fieldBoard w))
  | 0x03 => .ok (.twrzero (fieldInst w))
  | 0x04 => .ok (.tread (fieldInst w) (fieldBoard w))
  | 0x05 => .ok (.tanalog (fieldInst w) (fieldVal w) (fieldImm w))
  | 0x06 => .ok (.tanalog8 (fieldInst w) (fieldVal w))
  | 0x08 => .ok (.mcons (fieldInst w) (fieldBoard w))
  | 0x09 => .ok (.mdestroy (fieldInst w))
  | 0x0A => .ok (.msetcnt (fieldInst w) (fieldBoard w))
  | 0x0B => .ok (.mreg (fieldInst w) (fieldImm w))
  | 0x0C => .ok (.mmute (fieldInst w) (fieldVal w))
  | 0x10 => .ok (.setob (fieldInst w) (fieldBoard w) (fieldChan w) (fieldVal w))
  | 0x11 => .ok (.setom (fieldInst w) (fieldBoard w) (fieldSet w) (fieldRst w))
  | 0x12 => .ok (.getob (fieldInst w) (fieldBoard w) (fieldChan w))
  | 0x13 => .ok (.getom (fieldInst w) (fieldBoard w))
  | 0x14 => .ok (.getib (fieldInst w) (fieldBoard w) (fieldChan w))
  | 0x15 => .ok (.getpib (fieldInst w) (fieldBoard w) (fieldChan w))
  | 0x16 => .ok (.getim (fieldInst w) (fieldBoard w))
  | 0x17 => .ok (.getpim (fieldInst w) (fieldBoard w))
  | 0x18 => .ok (.refo (fieldInst w))
  | 0x19 => .ok (.refi (fieldInst w))
  | 0x1A => .ok (.ref (fieldInst w))
  | _ => .error (.reservedOpcode (fieldOp w))

/-- The opcode of a command (R75). -/
def Instr.opcode : Instr → BitVec 5
  | .nop => 0x00
  | .treset _ _ => 0x01
  | .twrite _ _ => 0x02
  | .twrzero _ => 0x03
  | .tread _ _ => 0x04
  | .tanalog _ _ _ => 0x05
  | .tanalog8 _ _ => 0x06
  | .mcons _ _ => 0x08
  | .mdestroy _ => 0x09
  | .msetcnt _ _ => 0x0A
  | .mreg _ _ => 0x0B
  | .mmute _ _ => 0x0C
  | .setob _ _ _ _ => 0x10
  | .setom _ _ _ _ => 0x11
  | .getob _ _ _ => 0x12
  | .getom _ _ => 0x13
  | .getib _ _ _ => 0x14
  | .getpib _ _ _ => 0x15
  | .getim _ _ => 0x16
  | .getpim _ _ => 0x17
  | .refo _ => 0x18
  | .refi _ => 0x19
  | .ref _ => 0x1A

/-- The one format CMD32 (R70), its fields from bit 31 down: IMM16 (or RST and SET), VAL, CHAN, BOARD/COUNT, INST,
OP. -/
def cmd32 (imm : BitVec 16) (val : Bool) (chan : BitVec 4) (board inst : BitVec 3) (op : BitVec 5) : Word :=
  imm ++ BitVec.ofBool val ++ chan ++ board ++ inst ++ op

/-- The encoder: the operands in their fields, 0 in every ignored bit (R70, R77, R79). -/
def encode (c : Instr) : Word :=
  match c with
  | .nop => cmd32 0 false 0 0 0 c.opcode
  | .treset i t => cmd32 t false 0 0 i c.opcode
  | .twrite i n => cmd32 0 false 0 n i c.opcode
  | .twrzero i => cmd32 0 false 0 0 i c.opcode
  | .tread i n => cmd32 0 false 0 n i c.opcode
  | .tanalog i a t => cmd32 t a 0 0 i c.opcode
  | .tanalog8 i a => cmd32 0 a 0 0 i c.opcode
  | .mcons i n => cmd32 0 false 0 n i c.opcode
  | .mdestroy i => cmd32 0 false 0 0 i c.opcode
  | .msetcnt i n => cmd32 0 false 0 n i c.opcode
  | .mreg i p => cmd32 p false 0 0 i c.opcode
  | .mmute i v => cmd32 0 v 0 0 i c.opcode
  | .setob i b ch v => cmd32 0 v ch b i c.opcode
  | .setom i b st rs => cmd32 (rs ++ st) false 0 b i c.opcode
  | .getob i b ch => cmd32 0 false ch b i c.opcode
  | .getom i b => cmd32 0 false 0 b i c.opcode
  | .getib i b ch => cmd32 0 false ch b i c.opcode
  | .getpib i b ch => cmd32 0 false ch b i c.opcode
  | .getim i b => cmd32 0 false 0 b i c.opcode
  | .getpim i b => cmd32 0 false 0 b i c.opcode
  | .refo i => cmd32 0 false 0 0 i c.opcode
  | .refi i => cmd32 0 false 0 0 i c.opcode
  | .ref i => cmd32 0 false 0 0 i c.opcode

/-- The bits of a command word that its row uses: those its encoding string does not mark `x` (R70, R77). -/
def usedMask : Instr → Word
  | .nop => 0x0000001F
  | .treset _ _ => 0xFFFF00FF
  | .twrite _ _ => 0x000007FF
  | .twrzero _ => 0x000000FF
  | .tread _ _ => 0x000007FF
  | .tanalog _ _ _ => 0xFFFF80FF
  | .tanalog8 _ _ => 0x000080FF
  | .mcons _ _ => 0x000007FF
  | .mdestroy _ => 0x000000FF
  | .msetcnt _ _ => 0x000007FF
  | .mreg _ _ => 0xFFFF00FF
  | .mmute _ _ => 0x000080FF
  | .setob _ _ _ _ => 0x0000FFFF
  | .setom _ _ _ _ => 0xFFFF07FF
  | .getob _ _ _ => 0x00007FFF
  | .getom _ _ => 0x000007FF
  | .getib _ _ _ => 0x00007FFF
  | .getpib _ _ _ => 0x00007FFF
  | .getim _ _ => 0x000007FF
  | .getpim _ _ => 0x000007FF
  | .refo _ => 0x000000FF
  | .refi _ => 0x000000FF
  | .ref _ => 0x000000FF

/-- The command the decoder reads from a row of the opcode table whose `nbits` bits are `w` (one 32-bit word, R78),
every bit above `nbits` being 0. -/
def decodeTableWord (nbits w : Nat) : Option Instr :=
  match decode (BitVec.ofNat 32 (w % 2 ^ nbits)) with
  | .ok i => some i
  | .error _ => none

end Sys2Proof
end

