-- ==== Sys2Proof/Config.lean ====
section
/-! DEFINITION. What an integration fixes (NINST, PHASE_MIN_US), what the outside can do in one step (the agents'
steps), and the free values of the model: the schedule and the levels of the DCIN lines. -/

namespace Sys2Proof

/-- The two open parameters of FSRC (R5, R8), which "a model takes as an argument". They are constant data of a
state: no step writes them (notes/assumptions/1.md). -/
structure Params where
  /-- NINST, 1 to 8 (R5). -/
  ninst : Nat
  /-- PHASE_MIN_US, a number of microsecond ticks (R8). -/
  phaseMinUs : Nat
  deriving DecidableEq, Repr

/-- The range of NINST (R5). -/
def Params.legal (p : Params) : Bool := decide (1 ≤ p.ninst) && decide (p.ninst ≤ 8)

/-- The parameters of the machine that `State.reset` stands for. DESIGN CHOICE: the spec leaves both open
(notes/assumptions/1.md); every statement quantifies over them. -/
def Params.default : Params := { ninst := 8, phaseMinUs := 0 }

/-- One step of one agent, as the schedule may choose it (R9): a register-port access or the assertion of reset by
HOST, a step of SEQ, a tick of TB. ENV has no step of its own. -/
inductive Action where
  /-- HOST reads the register at a word index (R51). -/
  | regRead (slot : BitVec 4)
  /-- HOST writes a register at a word index (R51). -/
  | regWrite (slot : BitVec 4) (value : Word)
  /-- SEQ takes its next step, if one is enabled (R176). -/
  | seq
  /-- TB ticks once (R178). -/
  | tb
  /-- The platform asserts hardware reset (R200). -/
  | reset
  deriving DecidableEq, Repr, Inhabited

/-- Which step the schedule takes next where no listed action is left (R10: every interleaving is admitted). A free
value: nothing is known of it. -/
opaque Config.freeAction : Nat → Action

/-- What a sample of a DCIN line returns where no listed answer is left (R12: a draw under no law). A free value:
nothing is known of it. -/
opaque Config.freeBit : Nat → Bool

end Sys2Proof
end

