-- ==== Sys2Proof/Machine/State.lean ====
section
/-! DEFINITION. The state of FSRC (spec/10_state.md): every piece the spec names, and four fields of the model's own
that stand for what is outside the block (the schedule, the answers of the environment, a counter for free values, and
the events recorded so far). All of it is plain data. -/

namespace Sys2Proof.Machine

/-- The six output roles of a port (R30, numbers 1 to 6). The input role DCIN is no state (R32). -/
inductive Role where
  | trigX | trigY | dOut | clk | ldOut | ldIn
  deriving DecidableEq, Repr

/-- The levels FSRC drives on the six output lines of one port (R31); `true` is level 1. -/
structure Lines where
  trigX : Bool
  trigY : Bool
  dOut : Bool
  clk : Bool
  ldOut : Bool
  ldIn : Bool
  deriving DecidableEq, Repr

/-- The idle levels (R30). -/
def Lines.idle : Lines :=
  { trigX := true, trigY := true, dOut := false, clk := true, ldOut := false, ldIn := false }

/-- One cache of one instance: a byte for each of the MAX_BOARDS boards (R3, R35). -/
abbrev Bank := Vector Byte 4

/-- Four zero bytes. -/
def Bank.zero : Bank := #v[0, 0, 0, 0]

/-- The state of one instance (R20, R31, R33 to R38). -/
structure Instance where
  /-- LINE[i][·] (R31). -/
  lines : Lines
  /-- CONS[i] (R33). -/
  cons : Bool
  /-- BC[i] (R34). -/
  bc : BitVec 3
  /-- OUT[i][·] (R35). -/
  out : Bank
  /-- IN[i][·] (R36). -/
  inp : Bank
  /-- PREV[i][·] (R37). -/
  prev : Bank
  /-- MUTE[i] (R38). -/
  mute : Bool
  deriving DecidableEq, Repr

/-- An instance right after reset (R49). -/
def Instance.reset : Instance :=
  { lines := Lines.idle, cons := false, bc := 1, out := Bank.zero, inp := Bank.zero, prev := Bank.zero, mute := false }

/-- Result codes (R171); codes 5 to 15 are never written, so they have no constructor (U14). -/
inductive ResultCode where
  | ok | timeout | badArg | badState | badOpcode
  deriving DecidableEq, Repr

/-- Position in RESET, with its local `t0` (R96): the state of that rule's FSM table. -/
inductive ResetPos where
  | trigX
  | trigY
  | poll (t0 : Word)
  | clkLo (t0 : Word)
  | clkHi (t0 : Word)
  deriving DecidableEq, Repr

/-- The three drives of one bit in WRITEOUT step 2 (R98). -/
inductive BitStep where
  | clkLo | data | clkHi
  deriving DecidableEq, Repr

/-- Position in WRITEOUT (R98). In step 2 the locals are the bit index `k`, the byte being shifted and the bytes
after it, the farthest board's first. -/
inductive WritePos where
  | ldLo
  | bit (at' : BitStep) (k : Fin 8) (byte : Byte) (rest : List Byte)
  | dataLo
  | latchHi
  | latchLo
  deriving DecidableEq, Repr

/-- The three line steps of one bit in READIN step 5 (R99). -/
inductive ReadStep where
  | sample | clkLo | clkHi
  deriving DecidableEq, Repr

/-- Position in READIN (R99). The locals are the board count `n` taken in step 1, and in step 5 the bytes already
read (nearest board first), the bit index `k` and the accumulator. -/
inductive ReadPos where
  | ldHi
  | loadLo (n : Nat)
  | loadHi (n : Nat)
  | ldLo (n : Nat)
  | bit (at' : ReadStep) (n : Nat) (done : List Byte) (k : Fin 8) (acc : Byte)
  deriving DecidableEq, Repr

/-- Position in ANALOG, with its local `t0` (R100). -/
inductive AnalogPos where
  | trigLo
  | trigHi
  | poll (t0 : Word)
  deriving DecidableEq, Repr

/-- Position in a refresh line program (R141 to R143): in REFRESH_OUT, in REFRESH_IN's READIN, or at its commit with
the bytes read. -/
inductive RefreshPos where
  | out (p : WritePos)
  | inp (p : ReadPos)
  | commit (bytes : List Byte)
  deriving DecidableEq, Repr

/-- Position in the line program of a host job (R23). `ok` is the local of MCONS (R147), which its later parts carry
to the finish; it is `true` in every other command. -/
inductive Pos where
  /-- RESET: TRESET, and MCONS steps 1 and 2. -/
  | reset (p : ResetPos)
  /-- WRITEOUT in reset mode: TWRZERO, and MCONS step 3. -/
  | zero (ok : Bool) (p : WritePos)
  /-- WRITEOUT with bytes: TWRITE. -/
  | write (p : WritePos)
  /-- READIN: TREAD. -/
  | read (p : ReadPos)
  /-- ANALOG: TANALOG and TANALOG8. -/
  | analog (p : AnalogPos)
  /-- A refresh: REFO, REFI, REF, and MCONS step 4. -/
  | refresh (ok : Bool) (p : RefreshPos)
  /-- The finish, with what it will write (R177); `none` is `keep`. -/
  | finish (rc : ResultCode) (result : Option Word)
  deriving DecidableEq, Repr

/-- SEQ (R23). -/
inductive Seq where
  | idle
  | hostRun (p : Pos)
  /-- A round; `none` between turns. -/
  | round (p : Option RefreshPos)
  deriving DecidableEq, Repr

/-- LAST_GRANT (R42). -/
inductive Grant where
  | host | round
  deriving DecidableEq, Repr

/-- The events whose sequence is the observation of a run (R13). -/
inductive Event where
  | drive (inst : InstId) (role : Role) (level : Bool) (time : Word)
  | sample (inst : InstId) (level : Bool) (time : Word)
  | regRead (slot : BitVec 4) (value : Word)
  deriving DecidableEq, Repr

/-- Faults: none. FSRC "raises no exception, trap, fault or interrupt" (R170) and no command stops it, so this type
has no constructor and a fault is no possible outcome of a step. Safe. -/
inductive Fault where
  deriving DecidableEq, Repr

/-- Refusals. -/
inductive Refusal where
  /-- Raised by an arm of `exec` whose command has no meaning yet; no arm raises it now. Safe. -/
  | notModelled (mnemonic : String)
  deriving DecidableEq, Repr

/-- The state of FSRC (R20). -/
structure State where
  /-- NINST and PHASE_MIN_US (R5, R8): constant, never written. -/
  params : Params
  /-- SEQ (R23). -/
  seq : Seq
  /-- SEQ_LAST_T (R24). -/
  seqLastT : Word
  /-- BUSY (R25). -/
  busy : Bool
  /-- The command word of JOB (R25, R67). -/
  jobWord : Word
  /-- The DATA value of JOB (R25, R67). -/
  jobData : Word
  /-- CMDREG (R26). -/
  cmdReg : Word
  /-- DATA (R27). -/
  data : Word
  /-- RESULT (R28). -/
  result : Word
  /-- RC (R29). -/
  rc : ResultCode
  /-- OVERRUN (R43). -/
  overrun : Bool
  /-- TICKLOST (R43). -/
  tickLost : Bool
  /-- TIME (R40). -/
  time : Word
  /-- TMR_ATTACHED (R41). -/
  tmrAttached : Bool
  /-- TMR_PERIOD (R41). -/
  tmrPeriod : BitVec 16
  /-- TMR_COUNT (R41). -/
  tmrCount : BitVec 16
  /-- ROUND_PENDING (R42). -/
  roundPending : Bool
  /-- ROUND_ACTIVE (R42). -/
  roundActive : Bool
  /-- ROUND_POS (R42): an index into REG_ORDER, 0 to NINST. -/
  roundPos : Nat
  /-- LAST_GRANT (R42). -/
  lastGrant : Grant
  /-- REG_ORDER (R39), oldest registration first. -/
  regOrder : List InstId
  /-- The instances; those at or above NINST do not exist and keep their reset value. -/
  insts : Vector Instance 8
  /-- The model's own: the steps the schedule takes next (R10), first one first. When none is left the next step is a
  free value. -/
  script : List Action
  /-- The model's own: the levels the environment answers at the next samples (R12), first one first. When none is
  left the answer is a free value. -/
  draws : List Bool
  /-- The model's own: how many free values have been taken. -/
  freeIdx : Nat
  /-- The model's own: the events recorded so far (R13), NEWEST first. -/
  trace : List Event
  deriving DecidableEq, Repr

/-- The state right after reset (R49, R202) of the machine with the given parameters, with nothing scheduled, no
answer listed and nothing observed. JOB has no reset value in the spec and is never read while BUSY = 0
(DESIGN CHOICE 0, notes/assumptions/2.md). -/
def State.resetWith (p : Params) : State where
  params := p
  seq := .idle
  seqLastT := 0
  busy := false
  jobWord := 0
  jobData := 0
  cmdReg := 0
  data := 0
  result := 0
  rc := .ok
  overrun := false
  tickLost := false
  time := 0
  tmrAttached := false
  tmrPeriod := 3000
  tmrCount := 0
  roundPending := false
  roundActive := false
  roundPos := 0
  lastGrant := .host
  regOrder := []
  insts := #v[.reset, .reset, .reset, .reset, .reset, .reset, .reset, .reset]
  script := []
  draws := []
  freeIdx := 0
  trace := []

/-- The machine right after reset, with NINST = 8 and PHASE_MIN_US = 0 (DESIGN CHOICE, notes/assumptions/1.md). -/
def State.reset : State := State.resetWith Params.default

end Sys2Proof.Machine
end

