-- ==== Sys2Proof/Machine/Flags.lean ====
section
/-! DEFINITION. The status flags: the STATUS register (R44), its write-1-to-clear bits (R43, R54) and the numbers of
the result codes (R171). -/

namespace Sys2Proof.Machine

/-- The number of a result code (R171). -/
def ResultCode.code : ResultCode → BitVec 4
  | .ok => 0
  | .timeout => 1
  | .badArg => 2
  | .badState => 3
  | .badOpcode => 4

/-- `SEQ_ACT`: 1 when SEQ is not IDLE (R44). -/
def seqAct (s : State) : Bool :=
  match s.seq with
  | .idle => false
  | .hostRun _ => true
  | .round _ => true

/-- The STATUS register, from bit 31 down (R44). -/
def statusWord (s : State) : Word :=
  0#14 ++ BitVec.ofBool s.tickLost ++ BitVec.ofBool s.overrun ++ 0#4 ++ s.rc.code ++ 0#3
    ++ BitVec.ofBool s.tmrAttached ++ BitVec.ofBool s.roundPending ++ BitVec.ofBool s.roundActive
    ++ BitVec.ofBool (seqAct s) ++ BitVec.ofBool s.busy

/-- A host write to STATUS: bit 16 clears OVERRUN, bit 17 clears TICKLOST, every other bit is ignored (R54). -/
def writeStatus (v : Word) (s : State) : State :=
  { s with overrun := s.overrun && !v.getLsbD 16, tickLost := s.tickLost && !v.getLsbD 17 }

/-- The outcome code of a poll: `ok = 1` is OK, `ok = 0` is TIMEOUT (R97, R147). -/
def pollCode (ok : Bool) : ResultCode := if ok then .ok else .timeout

end Sys2Proof.Machine
end

