-- ==== Sys2Proof/Machine/Operands.lean ====
section
/-! DEFINITION. Every operand form of the command word (R71 to R74): default timeouts and periods, the two readings of
COUNT, byte lanes, bits of a byte, the axis of an analog read, the class of a command; and the two columns of checks
of R175. -/

namespace Sys2Proof.Machine

/-- MAX_BOARDS (R3). -/
def maxBoards : Nat := 4

/-- RESET_TIMEOUT_DEFAULT_US (R7). -/
def resetTimeoutDefault : BitVec 16 := 5000
/-- ANALOG_TIMEOUT_DEFAULT_US (R7). -/
def analogTimeoutDefault : BitVec 16 := 3000
/-- ANALOG8_TIMEOUT_US (R7). -/
def analog8Timeout : Word := 2550
/-- REFRESH_PERIOD_DEFAULT_US (R7). -/
def refreshPeriodDefault : BitVec 16 := 3000

/-- The value 0 of IMM16 selects the default (R72). -/
def immOr (default imm : BitVec 16) : BitVec 16 :=
  if imm = 0 then default else imm

/-- The timeout of TRESET, zero-extended to 32 bits (R72, R97). -/
def resetTimeout (imm : BitVec 16) : Word := (immOr resetTimeoutDefault imm).setWidth 32

/-- The timeout of TANALOG, zero-extended to 32 bits (R72, R104). -/
def analogTimeout (imm : BitVec 16) : Word := (immOr analogTimeoutDefault imm).setWidth 32

/-- The period of MREG (R72, R161). -/
def refreshPeriod (imm : BitVec 16) : BitVec 16 := immOr refreshPeriodDefault imm

/-- COUNT as MCONS and MSETCNT read it: 0 stands for the default 1 (R73). -/
def boardCount (count : BitVec 3) : BitVec 3 :=
  if count = 0 then 1 else count

/-- A legal COUNT of TWRITE and TREAD (R73). -/
def transferCountLegal (count : BitVec 3) : Bool :=
  decide (1 ≤ count.toNat) && decide (count.toNat ≤ maxBoards)

/-- A legal COUNT of MCONS and MSETCNT (R73). -/
def boardCountLegal (count : BitVec 3) : Bool :=
  decide (count.toNat ≤ maxBoards)

/-- Byte lane `b` of a register: bits `8b+7 : 8b`, the byte of board `b` (R56). -/
def lane (v : Word) (b : Nat) : Byte := v.extractLsb' (8 * b) 8

/-- Up to four board bytes in their lanes, 0 in the lanes of boards that have none (R56, R103). -/
def packLanes (bytes : List Byte) : Word :=
  bytes.getD 3 0 ++ bytes.getD 2 0 ++ bytes.getD 1 0 ++ bytes.getD 0 0

/-- A byte with bit `c` replaced by `v`: `(x & ~(1 << c)) | (v << c)` (R122). -/
def setBit (x : Byte) (c : Nat) (v : Bool) : Byte :=
  (x &&& ~~~(1#8 <<< c)) ||| ((BitVec.ofBool v).setWidth 8 <<< c)

/-- A bit as a register value, zero-extended (R28, R124). -/
def bitWord (v : Bool) : Word := (BitVec.ofBool v).setWidth 32

/-- A byte as a register value, zero-extended (R28, R125). -/
def byteWord (x : Byte) : Word := x.setWidth 32

/-- The trigger line of an analog axis: TRIGX for `a = 0`, TRIGY for `a = 1` (R100). -/
def axisRole (a : Bool) : Role := if a then .trigY else .trigX

/-- The classes of commands (R74). -/
inductive CmdClass where
  | cache | registry | sequenced
  deriving DecidableEq, Repr

/-- The class of a command (R74). -/
def cmdClass : Instr → CmdClass
  | .nop => .cache
  | .treset _ _ => .sequenced
  | .twrite _ _ => .sequenced
  | .twrzero _ => .sequenced
  | .tread _ _ => .sequenced
  | .tanalog _ _ _ => .sequenced
  | .tanalog8 _ _ => .sequenced
  | .mcons _ _ => .sequenced
  | .mdestroy _ => .registry
  | .msetcnt _ _ => .registry
  | .mreg _ _ => .registry
  | .mmute _ _ => .cache
  | .setob _ _ _ _ => .cache
  | .setom _ _ _ _ => .cache
  | .getob _ _ _ => .cache
  | .getom _ _ => .cache
  | .getib _ _ _ => .cache
  | .getpib _ _ _ => .cache
  | .getim _ _ => .cache
  | .getpim _ _ => .cache
  | .refo _ => .sequenced
  | .refi _ => .sequenced
  | .ref _ => .sequenced

/-- The instance a command names; NOP names none (R77, R174). -/
def instOperand : Instr → Option InstId
  | .nop => none
  | .treset i _ => some i
  | .twrite i _ => some i
  | .twrzero i => some i
  | .tread i _ => some i
  | .tanalog i _ _ => some i
  | .tanalog8 i _ => some i
  | .mcons i _ => some i
  | .mdestroy i => some i
  | .msetcnt i _ => some i
  | .mreg i _ => some i
  | .mmute i _ => some i
  | .setob i _ _ _ => some i
  | .setom i _ _ _ => some i
  | .getob i _ _ => some i
  | .getom i _ => some i
  | .getib i _ _ => some i
  | .getpib i _ _ => some i
  | .getim i _ => some i
  | .getpim i _ => some i
  | .refo i => some i
  | .refi i => some i
  | .ref i => some i

/-- The value of CONS[INST] that the instance-state check asks for, if it asks for one (R175). -/
def consNeeded : Instr → Option Bool
  | .nop => none
  | .treset _ _ => none
  | .twrite _ _ => none
  | .twrzero _ => none
  | .tread _ _ => none
  | .tanalog _ _ _ => none
  | .tanalog8 _ _ => none
  | .mcons _ _ => some false
  | .mdestroy _ => some true
  | .msetcnt _ _ => some true
  | .mreg _ _ => some true
  | .mmute _ _ => some true
  | .setob _ _ _ _ => some true
  | .setom _ _ _ _ => some true
  | .getob _ _ _ => some true
  | .getom _ _ => some true
  | .getib _ _ _ => some true
  | .getpib _ _ _ => some true
  | .getim _ _ => some true
  | .getpim _ _ => some true
  | .refo _ => some true
  | .refi _ => some true
  | .ref _ => some true

/-- The argument check (R175): only COUNT is checked. -/
def argsLegal : Instr → Bool
  | .nop => true
  | .treset _ _ => true
  | .twrite _ n => transferCountLegal n
  | .twrzero _ => true
  | .tread _ n => transferCountLegal n
  | .tanalog _ _ _ => true
  | .tanalog8 _ _ => true
  | .mcons _ n => boardCountLegal n
  | .mdestroy _ => true
  | .msetcnt _ n => boardCountLegal n
  | .mreg _ _ => true
  | .mmute _ _ => true
  | .setob _ _ _ _ => true
  | .setom _ _ _ _ => true
  | .getob _ _ _ => true
  | .getom _ _ => true
  | .getib _ _ _ => true
  | .getpib _ _ _ => true
  | .getim _ _ => true
  | .getpim _ _ => true
  | .refo _ => true
  | .refi _ => true
  | .ref _ => true

end Sys2Proof.Machine
end

