-- ==== Sys2Proof/Machine/Ops.lean ====
section
/-! DEFINITION. The shared operations: access to an instance, its lines and its cache bytes; the line primitives
(R92 to R95); the free values; issuing a command (R172 to R175), finishing a job (R177); and what stands in FSRC for
taking an exception and returning from one: the periodic tick (R180), the grant of a round and its end (R184, R185). -/

namespace Sys2Proof.Machine

/-! ### Instances -/

/-- Instance `i`. -/
def State.inst (s : State) (i : InstId) : Instance :=
  s.insts[i.toNat]'i.isLt

/-- Replace instance `i`. -/
def State.setInst (s : State) (i : InstId) (x : Instance) : State :=
  { s with insts := s.insts.set i.toNat x i.isLt }

/-- The byte of board `b`; boards a cache does not have read 0. -/
def bankGet (k : Bank) (b : Nat) : Byte :=
  if h : b < 4 then k[b] else 0

/-- Write the byte of board `b`; writing a board a cache does not have changes nothing. -/
def bankSet (k : Bank) (b : Nat) (x : Byte) : Bank :=
  if h : b < 4 then k.set b x else k

/-- The level of an output line (R31). -/
def Lines.get (l : Lines) : Role → Bool
  | .trigX => l.trigX
  | .trigY => l.trigY
  | .dOut => l.dOut
  | .clk => l.clk
  | .ldOut => l.ldOut
  | .ldIn => l.ldIn

/-- Set the level of one output line. -/
def Lines.set (l : Lines) (r : Role) (v : Bool) : Lines :=
  match r with
  | .trigX => { l with trigX := v }
  | .trigY => { l with trigY := v }
  | .dOut => { l with dOut := v }
  | .clk => { l with clk := v }
  | .ldOut => { l with ldOut := v }
  | .ldIn => { l with ldIn := v }

/-! ### Line primitives -/

/-- Record an event (R13). -/
def record (e : Event) (s : State) : State := { s with trace := e :: s.trace }

/-- The phase hold is met: `(TIME -_32 SEQ_LAST_T) >= PHASE_MIN_US` (R93). -/
def phaseMet (s : State) : Bool :=
  decide (s.params.phaseMinUs ≤ (s.time - s.seqLastT).toNat)

/-- `drive(i, r, v)` (R92); its caller has checked the phase hold. -/
def drive (i : InstId) (r : Role) (v : Bool) (s : State) : State :=
  record (.drive i r v s.time)
    { s.setInst i { s.inst i with lines := (s.inst i).lines.set r v } with seqLastT := s.time }

/-- The level the environment answers at the next sample (R12): the next listed answer, else a free value. -/
def nextBit (s : State) : Bool :=
  match s.draws with
  | d :: _ => d
  | [] => Config.freeBit s.freeIdx

/-- Use up the answer of the next sample. -/
def dropBit (s : State) : State :=
  match s.draws with
  | _ :: ds => { s with draws := ds }
  | [] => { s with freeIdx := s.freeIdx + 1 }

/-- `sample(i)` (R94) returns `nextBit s` and leaves this state: the event, and no change of FSRC's own state. -/
def sample (i : InstId) (s : State) : State :=
  record (.sample i (nextBit s) s.time) (dropBit s)

/-- The outcomes of a poll (R95). -/
inductive PollOutcome where
  | timeout
  | settled (el : Word)
  | goOn
  deriving DecidableEq, Repr

/-- The elapsed time of a poll, modulo 2^32 (R95). -/
def elapsed (t0 : Word) (s : State) : Word := s.time - t0

/-- `poll(i, t0, T)`: the outcome (R95). The timeout is tested before the level. -/
def pollOutcome (t0 T : Word) (s : State) : PollOutcome :=
  if T ≤ elapsed t0 s then .timeout
  else if nextBit s then .settled (elapsed t0 s)
  else .goOn

/-- `poll(i, t0, T)`: the state it leaves (R95). DCIN is sampled only when the timeout has not been reached. -/
def poll (i : InstId) (t0 T : Word) (s : State) : State :=
  if T ≤ elapsed t0 s then s else sample i s

/-! ### Issue and finish -/

/-- `reject(rc)` (R173): RC and nothing else. -/
def reject (rc : ResultCode) (s : State) : State := { s with rc := rc }

/-- `validate` after the opcode check (R174, R175): `none` when every check passes, else the code of the first check
that fails. -/
def validate (c : Instr) (s : State) : Option ResultCode :=
  match instOperand c with
  | none => none
  | some i =>
    if s.params.ninst ≤ i.toNat then some .badArg
    else if (consNeeded c).any (fun need => need != (s.inst i).cons) then some .badState
    else if argsLegal c then none
    else some .badArg

/-- Accept a command of class S or R: JOB captures the command word and DATA (R67, R172). The host step has put the
word into CMDREG just before. -/
def accept (s : State) : State :=
  { s with jobWord := s.cmdReg, jobData := s.data, busy := true }

/-- Issue a command of class S or R (R172). -/
def issueJob (c : Instr) (s : State) : State :=
  match validate c s with
  | some rc => reject rc s
  | none => accept s

/-- `finish(rc, result)` (R177); `none` is `keep`. -/
def finish (rc : ResultCode) (result : Option Word) (s : State) : State :=
  { s with rc := rc, result := result.getD s.result, busy := false, seq := .idle }

/-- A command of class C (R74, R121): validated, and if valid executed in the same host step, with RC = OK. -/
def cacheCommand (c : Instr) (effect : State → State) (s : State) : State :=
  match validate c s with
  | some rc => reject rc s
  | none => { effect s with rc := .ok }

/-- The next step of a command of class R (R74, R176). While BUSY = 0 it is being issued. While it waits with SEQ
IDLE it is granted, and its whole rule runs in that step with its finish. While SEQ is not IDLE no step of it is
enabled. -/
def registryCommand (c : Instr) (effect : State → State) (s : State) : State :=
  if s.busy then
    match s.seq with
    | .idle => finish .ok none (effect { s with lastGrant := .host })
    | .hostRun _ => s
    | .round _ => s
  else issueJob c s

/-- Whether a position is that of a line step, to which the phase hold applies: a commit and a finish are not (R176). -/
def RefreshPos.isLine : RefreshPos → Bool
  | .out _ => true
  | .inp _ => true
  | .commit _ => false

/-- See `RefreshPos.isLine`. -/
def Pos.isLine : Pos → Bool
  | .reset _ => true
  | .zero _ _ => true
  | .write _ => true
  | .read _ => true
  | .analog _ => true
  | .refresh _ p => p.isLine
  | .finish _ _ => false

/-- One line step or commit of a host job at position `p`, where `run` gives the step and the position after it
(R176). A line step is held until the phase hold is met (R93); a position that is none of this program (`run` gives
`none`) has no step. -/
def programStep (run : Pos → State → Option (State × Pos)) (p : Pos) (s : State) : State :=
  if p.isLine && !phaseMet s then s
  else
    match run p s with
    | some (s', p') => { s' with seq := .hostRun p' }
    | none => s

/-- The next step of a command of class S (R74, R176). While BUSY = 0 it is being issued. While it waits with SEQ IDLE
it is granted and SEQ goes to `start`, step 1 of its line program. While it runs, it takes the step at the present
position; at the finish, `atFinish` is what the command writes besides RC, RESULT, BUSY and SEQ. While a round runs no
step of it is enabled. -/
def sequencedCommand (c : Instr) (start : Pos) (run : Pos → State → Option (State × Pos))
    (atFinish : State → State) (s : State) : State :=
  if s.busy then
    match s.seq with
    | .idle => { s with lastGrant := .host, seq := .hostRun start }
    | .hostRun (.finish rc result) => finish rc result (atFinish s)
    | .hostRun p => programStep run p s
    | .round _ => s
  else issueJob c s

/-! ### The periodic tick, the round's grant and end: FSRC's trap entry and return -/

/-- `periodic_tick()` (R180). -/
def periodicTick (s : State) : State :=
  if s.roundPending then { s with tickLost := true } else { s with roundPending := true }

/-- Grant-round (R176), which the spec calls FSRC's trap entry (R184): nothing is saved. -/
def grantRound (s : State) : State :=
  { s with roundPending := false, roundActive := true, roundPos := 0, lastGrant := .round, seq := .round none }

/-- The end of a round (R182), which the spec calls FSRC's trap return (R185): nothing is restored. -/
def endRound (s : State) : State :=
  { s with roundActive := false, seq := .idle }

end Sys2Proof.Machine
end

