-- ==== Sys2Proof/Machine/LinePrograms.lean ====
section
/-! DEFINITION. The line programs: RESET, WRITEOUT, READIN, ANALOG (spec/40_transport.md R96, R98, R99, R100) and the
refresh programs built on them (spec/42_manager.md R141 to R143). Each is given by the effect of one line step at each
of its positions. -/

namespace Sys2Proof.Machine

/-- What one step of a line program leads to: a further position of it, or its end with the value it returns. -/
inductive Progress (π ρ : Type) where
  | more (s : State) (p : π)
  | done (s : State) (r : ρ)

/-- The state a step leaves. -/
def Progress.state {π ρ : Type} : Progress π ρ → State
  | .more s _ => s
  | .done s _ => s

/-- The position of the whole command after a step of one of its parts: `inside` says where a position of the part
lies in the command, `after` where the command goes on when the part has ended. -/
def Progress.within {π ρ κ : Type} (x : Progress π ρ) (inside : π → κ) (after : ρ → κ) : State × κ :=
  match x with
  | .more s p => (s, inside p)
  | .done s r => (s, after r)

/-- One step of `RESET(i, T)` (R96). -/
def resetStep (i : InstId) (T : Word) (p : ResetPos) (s : State) : Progress ResetPos Bool :=
  match p with
  | .trigX => .more (drive i .trigX true s) .trigY
  | .trigY => .more (drive i .trigY true s) (.poll s.time)
  | .poll t0 =>
    match pollOutcome t0 T s with
    | .settled _ => .done (poll i t0 T s) true
    | .timeout => .done (poll i t0 T s) false
    | .goOn => .more (poll i t0 T s) (.clkLo t0)
  | .clkLo t0 => .more (drive i .clk false s) (.clkHi t0)
  | .clkHi t0 => .more (drive i .clk true s) (.poll t0)

/-- Where WRITEOUT step 2 goes to shift the bytes still left: bit 7 of the next one, or step 3. -/
def nextByte : List Byte → WritePos
  | [] => .dataLo
  | x :: rest => .bit .clkLo 7 x rest

/-- Where WRITEOUT goes after bit `k` of a byte: to the bit below it, or past the byte (R98). -/
def afterBit (k : Fin 8) (x : Byte) (rest : List Byte) : WritePos :=
  if k.val = 0 then nextByte rest else .bit .clkLo (k - 1) x rest

/-- One step of `WRITEOUT` (R98); `bytes` is the `seq` of step 2 as step 1 finds it, the farthest board's byte
first. -/
def writeStep (i : InstId) (bytes : List Byte) (p : WritePos) (s : State) : Progress WritePos Unit :=
  match p with
  | .ldLo => .more (drive i .ldOut false s) (nextByte bytes)
  | .bit .clkLo k x rest => .more (drive i .clk false s) (.bit .data k x rest)
  | .bit .data k x rest => .more (drive i .dOut (x.getLsbD k) s) (.bit .clkHi k x rest)
  | .bit .clkHi k x rest => .more (drive i .clk true s) (afterBit k x rest)
  | .dataLo => .more (drive i .dOut false s) .latchHi
  | .latchHi => .more (drive i .ldOut true s) .latchLo
  | .latchLo => .done (drive i .ldOut false s) ()

/-- The `seq` of WRITEOUT in reset mode: MAX_BOARDS zero bytes (R98). -/
def zeroBytes : List Byte := List.replicate maxBoards 0

/-- The `seq` of WRITEOUT with the bytes of `n` boards: the farthest board first (R98). -/
def farthestFirst (n : Nat) (byteOf : Nat → Byte) : List Byte :=
  ((List.range n).map byteOf).reverse

/-- What READIN step 5 does next: shift board after board until `n` bytes are read (R99). -/
def afterBytes {σ : Type} (n : Nat) (bytes : List Byte) (more : ReadPos → σ) (done : List Byte → σ) : σ :=
  if n ≤ bytes.length then done bytes else more (.bit .sample n bytes 7 0)

/-- One step of `READIN(i, n)` (R99); `n` is the count as step 1 finds it. A bit is the inverted level of the line. -/
def readStep (i : InstId) (n : Nat) (p : ReadPos) (s : State) : Progress ReadPos (List Byte) :=
  match p with
  | .ldHi => .more (drive i .ldIn true s) (.loadLo n)
  | .loadLo m => .more (drive i .clk false s) (.loadHi m)
  | .loadHi m => .more (drive i .clk true s) (.ldLo m)
  | .ldLo m => afterBytes m [] (.more (drive i .ldIn false s)) (.done (drive i .ldIn false s))
  | .bit .sample m bytes k acc => .more (sample i s) (.bit .clkLo m bytes k (setBit acc k (!nextBit s)))
  | .bit .clkLo m bytes k acc => .more (drive i .clk false s) (.bit .clkHi m bytes k acc)
  | .bit .clkHi m bytes k acc =>
    if k.val = 0 then
      afterBytes m (bytes ++ [acc]) (.more (drive i .clk true s)) (.done (drive i .clk true s))
    else .more (drive i .clk true s) (.bit .sample m bytes (k - 1) acc)

/-- One step of `ANALOG(i, a, T)` (R100); it returns the duration and the outcome. -/
def analogStep (i : InstId) (a : Bool) (T : Word) (p : AnalogPos) (s : State) : Progress AnalogPos (Word × ResultCode) :=
  match p with
  | .trigLo => .more (drive i (axisRole a) false s) .trigHi
  | .trigHi => .more (drive i (axisRole a) true s) (.poll s.time)
  | .poll t0 =>
    match pollOutcome t0 T s with
    | .settled el => .done (poll i t0 T s) (el, .ok)
    | .timeout => .done (poll i t0 T s) (T, .timeout)
    | .goOn => .more (poll i t0 T s) (.poll t0)

/-- The bytes REFRESH_OUT takes in its snapshot step: `OUT[i][b]` for `b < BC[i]`, the farthest board first (R141). -/
def snapshot (i : InstId) (s : State) : List Byte :=
  farthestFirst (s.inst i).bc.toNat (bankGet (s.inst i).out)

/-- PREV of board `b` after the commit (R142): IN as it was, for a board whose byte was read. -/
def committedPrev (x : Instance) (bytes : List Byte) (b : Nat) : Byte :=
  if b < bytes.length then bankGet x.inp b else bankGet x.prev b

/-- IN of board `b` after the commit (R142): the byte read, for a board whose byte was read. -/
def committedIn (x : Instance) (bytes : List Byte) (b : Nat) : Byte :=
  bytes.getD b (bankGet x.inp b)

/-- An instance after the commit (R142): IN and PREV of the boards whose bytes were read, and nothing else. -/
def withCommit (x : Instance) (bytes : List Byte) : Instance :=
  { x with
    prev := #v[committedPrev x bytes 0, committedPrev x bytes 1, committedPrev x bytes 2, committedPrev x bytes 3]
    inp := #v[committedIn x bytes 0, committedIn x bytes 1, committedIn x bytes 2, committedIn x bytes 3] }

/-- The commit of REFRESH_IN (R142), one step. -/
def commitInputs (i : InstId) (bytes : List Byte) (s : State) : State :=
  s.setInst i (withCommit (s.inst i) bytes)

/-- One step of `REFRESH_OUT(i)` (R141). -/
def refreshOutStep (i : InstId) (p : WritePos) (s : State) : Progress WritePos Unit :=
  writeStep i (snapshot i s) p s

/-- One step of `REFRESH(i)` (R143): REFRESH_OUT, then REFRESH_IN (R142), whose part is the steps from `.inp` on. -/
def refreshStep (i : InstId) (p : RefreshPos) (s : State) : Progress RefreshPos Unit :=
  match p with
  | .out q =>
    match refreshOutStep i q s with
    | .more s' q' => .more s' (.out q')
    | .done s' () => .more s' (.inp .ldHi)
  | .inp q =>
    match readStep i (s.inst i).bc.toNat q s with
    | .more s' q' => .more s' (.inp q')
    | .done s' bytes => .more s' (.commit bytes)
  | .commit bytes => .done (commitInputs i bytes s) ()

end Sys2Proof.Machine
end

