-- ==== Sys2Proof/Machine/Arbiter.lean ====
section
/-! DEFINITION. The timebase and periodic timer (R178), the arbiter (R181) and the steps of a refresh round (R182). -/

namespace Sys2Proof.Machine

/-- A TB step (R178): TIME, and while attached the periodic timer, which is compared after its increment. -/
def tbStep (s : State) : State :=
  if s.tmrAttached then
    if s.tmrPeriod.toNat ≤ s.tmrCount.toNat + 1 then periodicTick { s with time := s.time + 1, tmrCount := 0 }
    else { s with time := s.time + 1, tmrCount := s.tmrCount + 1 }
  else { s with time := s.time + 1 }

/-- What the arbiter picks when SEQ is IDLE (R181); `none` when nothing waits. -/
def pick (s : State) : Option Grant :=
  if s.roundPending && (!s.busy || decide (s.lastGrant = .host)) then some .round
  else if s.busy then some .host
  else none

/-- A turn step of a round (R182): the end of the round when every position has had its turn, a skip when the instance
is muted, else step 1 of its refresh. -/
def turnStep (s : State) : State :=
  match s.regOrder[s.roundPos]? with
  | none => endRound s
  | some j =>
    if (s.inst j).mute then { s with roundPos := s.roundPos + 1 }
    else { s with seq := .round (some (.out .ldLo)) }

/-- A line step or the commit of the refresh of `j` inside a round (R176, R182): as for a host job; the commit also
ends the turn. -/
def roundRefreshStep (j : InstId) (p : RefreshPos) (s : State) : State :=
  if p.isLine && !phaseMet s then s
  else
    match refreshStep j p s with
    | .more s' p' => { s' with seq := .round (some p') }
    | .done s' () => { s' with roundPos := s'.roundPos + 1, seq := .round none }

/-- A step inside a turn, which refreshes `REG_ORDER[ROUND_POS]` (R23, R182). -/
def roundLineStep (p : RefreshPos) (s : State) : State :=
  match s.regOrder[s.roundPos]? with
  | some j => roundRefreshStep j p s
  | none => s

end Sys2Proof.Machine
end

