-- ==== Sys2Proof/Machine/Cache.lean ====
section
/-! DEFINITION. The meanings of the cache commands (spec/41_cache.md): SETOB, SETOM and the six getters. All are of
class C: each runs whole in the host step that writes CMD (R121). -/

namespace Sys2Proof.Machine

/-- Board `b` is in range for an instance (R120). -/
def boardInRange (x : Instance) (b : BitVec 3) : Bool := decide (b < x.bc)

/-- Channel `c` is in range (R120). -/
def chanInRange (c : BitVec 4) : Bool := decide (c.toNat < 8)

/-- The bit a bit getter returns from a cache (R124, R126, R127): 0 when out of range. -/
def cacheBit (x : Instance) (cache : Bank) (b : BitVec 3) (c : BitVec 4) : Word :=
  if boardInRange x b && chanInRange c then bitWord ((bankGet cache b.toNat).getLsbD c.toNat) else 0

/-- The byte a mask getter returns from a cache (R125, R128, R129): 0 when out of range. -/
def cacheByte (x : Instance) (cache : Bank) (b : BitVec 3) : Word :=
  if boardInRange x b then byteWord (bankGet cache b.toNat) else 0

/-- The effect of SETOB on an instance (R122). -/
def withOutBit (x : Instance) (b : BitVec 3) (c : BitVec 4) (v : Bool) : Instance :=
  if boardInRange x b && chanInRange c then
    { x with out := bankSet x.out b.toNat (setBit (bankGet x.out b.toNat) c.toNat v) }
  else x

/-- The effect of SETOM on an instance (R123): set, then reset. -/
def withOutMask (x : Instance) (b : BitVec 3) (S R : Byte) : Instance :=
  if boardInRange x b then
    { x with out := bankSet x.out b.toNat ((bankGet x.out b.toNat ||| S) &&& ~~~R) }
  else x

/-- `SETOB i, b, c, v` (R122). -/
def execSetob (i : InstId) (b : BitVec 3) (c : BitVec 4) (v : Bool) (s : State) : Host.Outcome State Fault Refusal :=
  .next (cacheCommand (.setob i b c v) (fun s => s.setInst i (withOutBit (s.inst i) b c v)) s)

/-- `SETOM i, b, S, R` (R123). -/
def execSetom (i : InstId) (b : BitVec 3) (S R : Byte) (s : State) : Host.Outcome State Fault Refusal :=
  .next (cacheCommand (.setom i b S R) (fun s => s.setInst i (withOutMask (s.inst i) b S R)) s)

/-- `GETOB i, b, c` (R124). -/
def execGetob (i : InstId) (b : BitVec 3) (c : BitVec 4) (s : State) : Host.Outcome State Fault Refusal :=
  .next (cacheCommand (.getob i b c)
    (fun s => { s with result := cacheBit (s.inst i) (s.inst i).out b c }) s)

/-- `GETOM i, b` (R125). -/
def execGetom (i : InstId) (b : BitVec 3) (s : State) : Host.Outcome State Fault Refusal :=
  .next (cacheCommand (.getom i b)
    (fun s => { s with result := cacheByte (s.inst i) (s.inst i).out b }) s)

/-- `GETIB i, b, c` (R126). -/
def execGetib (i : InstId) (b : BitVec 3) (c : BitVec 4) (s : State) : Host.Outcome State Fault Refusal :=
  .next (cacheCommand (.getib i b c)
    (fun s => { s with result := cacheBit (s.inst i) (s.inst i).inp b c }) s)

/-- `GETPIB i, b, c` (R127). -/
def execGetpib (i : InstId) (b : BitVec 3) (c : BitVec 4) (s : State) : Host.Outcome State Fault Refusal :=
  .next (cacheCommand (.getpib i b c)
    (fun s => { s with result := cacheBit (s.inst i) (s.inst i).prev b c }) s)

/-- `GETIM i, b` (R128). -/
def execGetim (i : InstId) (b : BitVec 3) (s : State) : Host.Outcome State Fault Refusal :=
  .next (cacheCommand (.getim i b)
    (fun s => { s with result := cacheByte (s.inst i) (s.inst i).inp b }) s)

/-- `GETPIM i, b` (R129). -/
def execGetpim (i : InstId) (b : BitVec 3) (s : State) : Host.Outcome State Fault Refusal :=
  .next (cacheCommand (.getpim i b)
    (fun s => { s with result := cacheByte (s.inst i) (s.inst i).prev b }) s)

end Sys2Proof.Machine
end

