-- ==== Sys2Proof/Machine/Registry.lean ====
section
/-! DEFINITION. The meanings of the registry commands (spec/43_registry.md): MREG (class R) and MMUTE (class C), and
the removal procedure DEREGISTER. -/

namespace Sys2Proof.Machine

/-- `DEREGISTER(i)` (R163): remove `i`; when the registry is then empty, detach the timer and drop a pending round. -/
def deregister (i : InstId) (s : State) : State :=
  if i ∈ s.regOrder then
    if s.regOrder.erase i = [] then
      { s with regOrder := [], tmrAttached := false, tmrCount := 0, roundPending := false }
    else { s with regOrder := s.regOrder.erase i }
  else s

/-- The effect of MREG (R161): append unless registered, set the period, attach the timer unless attached. -/
def register (i : InstId) (period : BitVec 16) (s : State) : State :=
  { s with
    regOrder := if i ∈ s.regOrder then s.regOrder else s.regOrder ++ [i]
    tmrPeriod := period
    tmrAttached := true
    tmrCount := if s.tmrAttached then s.tmrCount else 0 }

/-- `MREG i[, P]` (R161). -/
def execMreg (i : InstId) (imm : BitVec 16) (s : State) : Host.Outcome State Fault Refusal :=
  .next (registryCommand (.mreg i imm) (register i (refreshPeriod imm)) s)

/-- `MMUTE i, v` (R162). -/
def execMmute (i : InstId) (v : Bool) (s : State) : Host.Outcome State Fault Refusal :=
  .next (cacheCommand (.mmute i v) (fun s => s.setInst i { s.inst i with mute := v }) s)

end Sys2Proof.Machine
end

