-- ==== Sys2Proof/Machine/Manager.lean ====
section
/-! DEFINITION. The meanings of the manager commands (spec/42_manager.md): NOP (class C), MDESTROY and MSETCNT
(class R), MCONS, REFO, REFI and REF (class S). -/

namespace Sys2Proof.Machine

/-- `NOP` (R150): RC = OK, and nothing else; never rejected. -/
def execNop (s : State) : Host.Outcome State Fault Refusal :=
  .next (cacheCommand .nop id s)

/-- The init of MCONS (R147 step 1): BC and zeroed caches. -/
def constructInit (i : InstId) (n : BitVec 3) (s : State) : State :=
  s.setInst i { s.inst i with bc := n, out := Bank.zero, inp := Bank.zero, prev := Bank.zero }

/-- The state in which MCONS takes RESET step 1: its init is made in that same step (R147). -/
def constructEntry (i : InstId) (n : BitVec 3) (q : ResetPos) (s : State) : State :=
  match q with
  | .trigX => constructInit i n s
  | _ => s

/-- The line program of MCONS (R147): init with RESET, WRITEOUT in reset mode, REFRESH, and the finish with the `ok`
of the RESET. -/
def mconsRun (i : InstId) (n : BitVec 3) (p : Pos) (s : State) : Option (State × Pos) :=
  match p with
  | .reset q =>
    some ((resetStep i (resetTimeout 0) q (constructEntry i n q s)).within .reset (fun ok => .zero ok .ldLo))
  | .zero ok q => some ((writeStep i zeroBytes q s).within (.zero ok) (fun _ => .refresh ok (.out .ldLo)))
  | .refresh ok q =>
    some ((refreshStep i q s).within (.refresh ok) (fun _ => .finish (pollCode ok) (some (bitWord ok))))
  | _ => none

/-- What the finish of MCONS writes besides RC, RESULT, BUSY and SEQ: `CONS[i] <- 1` (R147 step 5, R177). -/
def markConstructed (i : InstId) (s : State) : State :=
  s.setInst i { s.inst i with cons := true }

/-- `MCONS i[, n]` (R147). -/
def execMcons (i : InstId) (count : BitVec 3) (s : State) : Host.Outcome State Fault Refusal :=
  .next (sequencedCommand (.mcons i count) (.reset .trigX) (mconsRun i (boardCount count)) (markConstructed i) s)

/-- CONS, BC, MUTE and the caches of `i` as after reset; no line changes (R148). -/
def clearInst (i : InstId) (s : State) : State :=
  s.setInst i { Instance.reset with lines := (s.inst i).lines }

/-- The effect of MDESTROY (R148): DEREGISTER, then the instance is cleared. -/
def destroyInst (i : InstId) (s : State) : State :=
  clearInst i (deregister i s)

/-- `MDESTROY i` (R148). -/
def execMdestroy (i : InstId) (s : State) : Host.Outcome State Fault Refusal :=
  .next (registryCommand (.mdestroy i) (destroyInst i) s)

/-- `MSETCNT i, n` (R149): BC and no cache byte. -/
def execMsetcnt (i : InstId) (count : BitVec 3) (s : State) : Host.Outcome State Fault Refusal :=
  .next (registryCommand (.msetcnt i count)
    (fun s => s.setInst i { s.inst i with bc := boardCount count }) s)

/-- The line program of REFO (R144): REFRESH_OUT. -/
def refoRun (i : InstId) (p : Pos) (s : State) : Option (State × Pos) :=
  match p with
  | .refresh ok (.out q) =>
    some ((refreshOutStep i q s).within (fun q' => .refresh ok (.out q')) (fun _ => .finish .ok none))
  | _ => none

/-- `REFO i` (R144). -/
def execRefo (i : InstId) (s : State) : Host.Outcome State Fault Refusal :=
  .next (sequencedCommand (.refo i) (.refresh true (.out .ldLo)) (refoRun i) id s)

/-- The line program of REFI (R145): REFRESH_IN, which is REFRESH from its second half on. -/
def refiRun (i : InstId) (p : Pos) (s : State) : Option (State × Pos) :=
  match p with
  | .refresh _ (.out _) => none
  | .refresh ok q => some ((refreshStep i q s).within (.refresh ok) (fun _ => .finish .ok none))
  | _ => none

/-- `REFI i` (R145). -/
def execRefi (i : InstId) (s : State) : Host.Outcome State Fault Refusal :=
  .next (sequencedCommand (.refi i) (.refresh true (.inp .ldHi)) (refiRun i) id s)

/-- The line program of REF (R146): REFRESH. -/
def refRun (i : InstId) (p : Pos) (s : State) : Option (State × Pos) :=
  match p with
  | .refresh ok q => some ((refreshStep i q s).within (.refresh ok) (fun _ => .finish .ok none))
  | _ => none

/-- `REF i` (R146). -/
def execRef (i : InstId) (s : State) : Host.Outcome State Fault Refusal :=
  .next (sequencedCommand (.ref i) (.refresh true (.out .ldLo)) (refRun i) id s)

end Sys2Proof.Machine
end

