-- ==== Sys2Proof/Machine/Transport.lean ====
section
/-! DEFINITION. The meanings of the transport commands (spec/40_transport.md): TRESET, TWRITE, TWRZERO, TREAD, TANALOG,
TANALOG8. All are of class S. The meaning of a class S command at a state is its NEXT STEP there: its issue while
BUSY = 0, its grant while it waits, then one step of its line program, and at last its finish (`sequencedCommand`). -/

namespace Sys2Proof.Machine

/-- The line program of TRESET (R97): RESET, then the finish with its `ok`. -/
def tresetRun (i : InstId) (T : Word) (p : Pos) (s : State) : Option (State × Pos) :=
  match p with
  | .reset q => some ((resetStep i T q s).within .reset (fun ok => .finish (pollCode ok) (some (bitWord ok))))
  | _ => none

/-- `TRESET i[, T]` (R97). -/
def execTreset (i : InstId) (imm : BitVec 16) (s : State) : Host.Outcome State Fault Refusal :=
  .next (sequencedCommand (.treset i imm) (.reset .trigX) (tresetRun i (resetTimeout imm)) id s)

/-- The line program of TWRITE (R101): WRITEOUT with the `n` lowest byte lanes of JOB's DATA. -/
def twriteRun (i : InstId) (n : Nat) (p : Pos) (s : State) : Option (State × Pos) :=
  match p with
  | .write q =>
    some ((writeStep i (farthestFirst n (lane s.jobData)) q s).within .write (fun _ => .finish .ok none))
  | _ => none

/-- `TWRITE i, n` (R101). -/
def execTwrite (i : InstId) (count : BitVec 3) (s : State) : Host.Outcome State Fault Refusal :=
  .next (sequencedCommand (.twrite i count) (.write .ldLo) (twriteRun i count.toNat) id s)

/-- The line program of TWRZERO (R102): WRITEOUT in reset mode. -/
def twrzeroRun (i : InstId) (p : Pos) (s : State) : Option (State × Pos) :=
  match p with
  | .zero ok q => some ((writeStep i zeroBytes q s).within (.zero ok) (fun _ => .finish .ok none))
  | _ => none

/-- `TWRZERO i` (R102). -/
def execTwrzero (i : InstId) (s : State) : Host.Outcome State Fault Refusal :=
  .next (sequencedCommand (.twrzero i) (.zero true .ldLo) (twrzeroRun i) id s)

/-- The line program of TREAD (R103): READIN, then the finish with the bytes in their lanes. -/
def treadRun (i : InstId) (n : Nat) (p : Pos) (s : State) : Option (State × Pos) :=
  match p with
  | .read q => some ((readStep i n q s).within .read (fun bytes => .finish .ok (some (packLanes bytes))))
  | _ => none

/-- `TREAD i, n` (R103). -/
def execTread (i : InstId) (count : BitVec 3) (s : State) : Host.Outcome State Fault Refusal :=
  .next (sequencedCommand (.tread i count) (.read .ldHi) (treadRun i count.toNat) id s)

/-- The line program of TANALOG (R104): ANALOG, then the finish with the duration and the outcome. -/
def tanalogRun (i : InstId) (a : Bool) (T : Word) (p : Pos) (s : State) : Option (State × Pos) :=
  match p with
  | .analog q => some ((analogStep i a T q s).within .analog (fun r => .finish r.2 (some r.1)))
  | _ => none

/-- `TANALOG i, a[, T]` (R104). -/
def execTanalog (i : InstId) (a : Bool) (imm : BitVec 16) (s : State) : Host.Outcome State Fault Refusal :=
  .next (sequencedCommand (.tanalog i a imm) (.analog .trigLo) (tanalogRun i a (analogTimeout imm)) id s)

/-- The line program of TANALOG8 (R105): ANALOG with the fixed timeout, then the finish with a tenth of the duration,
rounded down. -/
def tanalog8Run (i : InstId) (a : Bool) (p : Pos) (s : State) : Option (State × Pos) :=
  match p with
  | .analog q => some ((analogStep i a analog8Timeout q s).within .analog (fun r => .finish r.2 (some (r.1 / 10))))
  | _ => none

/-- `TANALOG8 i, a` (R105). -/
def execTanalog8 (i : InstId) (a : Bool) (s : State) : Host.Outcome State Fault Refusal :=
  .next (sequencedCommand (.tanalog8 i a) (.analog .trigLo) (tanalog8Run i a) id s)

end Sys2Proof.Machine
end

