-- ==== Sys2Proof/Machine/Dispatch.lean ====
section
/-! DEFINITION. The dispatch: one arm for each command, one call of its meaning. -/

namespace Sys2Proof.Machine

def exec (i : Instr) (s : State) : Host.Outcome State Fault Refusal :=
  match i with
  | .nop => Sys2Proof.Machine.execNop s
  -- transport commands
  | .treset inst imm => Sys2Proof.Machine.execTreset inst imm s
  | .twrite inst count => Sys2Proof.Machine.execTwrite inst count s
  | .twrzero inst => Sys2Proof.Machine.execTwrzero inst s
  | .tread inst count => Sys2Proof.Machine.execTread inst count s
  | .tanalog inst val imm => Sys2Proof.Machine.execTanalog inst val imm s
  | .tanalog8 inst val => Sys2Proof.Machine.execTanalog8 inst val s
  -- construction, destruction, board count
  | .mcons inst count => Sys2Proof.Machine.execMcons inst count s
  | .mdestroy inst => Sys2Proof.Machine.execMdestroy inst s
  | .msetcnt inst count => Sys2Proof.Machine.execMsetcnt inst count s
  -- registry commands
  | .mreg inst imm => Sys2Proof.Machine.execMreg inst imm s
  | .mmute inst val => Sys2Proof.Machine.execMmute inst val s
  -- cache commands
  | .setob inst board chan val => Sys2Proof.Machine.execSetob inst board chan val s
  | .setom inst board set rst => Sys2Proof.Machine.execSetom inst board set rst s
  | .getob inst board chan => Sys2Proof.Machine.execGetob inst board chan s
  | .getom inst board => Sys2Proof.Machine.execGetom inst board s
  | .getib inst board chan => Sys2Proof.Machine.execGetib inst board chan s
  | .getpib inst board chan => Sys2Proof.Machine.execGetpib inst board chan s
  | .getim inst board => Sys2Proof.Machine.execGetim inst board s
  | .getpim inst board => Sys2Proof.Machine.execGetpim inst board s
  -- refresh commands
  | .refo inst => Sys2Proof.Machine.execRefo inst s
  | .refi inst => Sys2Proof.Machine.execRefi inst s
  | .ref inst => Sys2Proof.Machine.execRef inst s

end Sys2Proof.Machine
end

