-- ==== Sys2Proof/Machine/Port.lean ====
section
/-! DEFINITION. The read side of the register port (spec/20_memory.md): the address map (R52), the registers' layouts
(R44 to R48), and the slot of a byte offset (R58). -/

namespace Sys2Proof.Machine

/-- The word index of a byte offset: bits 1:0 are ignored (R51, R58). -/
def slotOf (offset : BitVec 6) : BitVec 4 := offset.extractLsb' 2 4

/-- Instance `i` exists (R5). -/
def State.exists' (s : State) (i : InstId) : Bool := decide (i.toNat < s.params.ninst)

/-- Eight bits, one per instance, bit `i` for instance `i`; 0 for an instance that does not exist (R46). -/
def perInstance (s : State) (f : InstId → Bool) : BitVec 8 :=
  let bit (i : InstId) := BitVec.ofBool (s.exists' i && f i)
  bit 7 ++ bit 6 ++ bit 5 ++ bit 4 ++ bit 3 ++ bit 2 ++ bit 1 ++ bit 0

/-- REGISTRY (R45): the members from position 7 down, a reserved nibble, LEN. -/
def registryWord (s : State) : Word :=
  let at' (k : Nat) : InstId := s.regOrder.getD k 0
  at' 7 ++ at' 6 ++ at' 5 ++ at' 4 ++ at' 3 ++ at' 2 ++ at' 1 ++ at' 0 ++ 0#4 ++ BitVec.ofNat 4 s.regOrder.length

/-- INSTSTATE (R46): MUTE, registered, CONS. -/
def instStateWord (s : State) : Word :=
  0#8 ++ perInstance s (fun i => (s.inst i).mute) ++ perInstance s (fun i => decide (i ∈ s.regOrder))
    ++ perInstance s (fun i => (s.inst i).cons)

/-- TIMER (R47): TMR_COUNT above TMR_PERIOD. -/
def timerWord (s : State) : Word := s.tmrCount ++ s.tmrPeriod

/-- BCOUNT (R48): a nibble per instance, 0 for an instance that does not exist. -/
def bcountWord (s : State) : Word :=
  let nib (i : InstId) : BitVec 4 := if s.exists' i then 0#1 ++ (s.inst i).bc else 0
  nib 7 ++ nib 6 ++ nib 5 ++ nib 4 ++ nib 3 ++ nib 2 ++ nib 1 ++ nib 0

/-- What a read of a slot returns (R52, R55). -/
def regValue (slot : BitVec 4) (s : State) : Word :=
  match slot.toNat with
  | 0x0 => s.cmdReg
  | 0x1 => s.data
  | 0x2 => statusWord s
  | 0x3 => s.result
  | 0x4 => s.time
  | 0x5 => registryWord s
  | 0x6 => instStateWord s
  | 0x7 => timerWord s
  | 0x8 => bcountWord s
  | _ => 0

/-- A register read (R51, R53): no side effect; the value returned is the event (R13). -/
def readPort (slot : BitVec 4) (s : State) : State :=
  record (.regRead slot (regValue slot s)) s

end Sys2Proof.Machine
end

