-- ==== Sys2Proof/Machine/Agents.lean ====
section
/-! DEFINITION. The steps of the agents (R9): HOST's register writes, the issue of a command among them (R172), the
sequencer's step (R176), hardware reset (R200), and which step the schedule takes next (R10). -/

namespace Sys2Proof.Machine

/-- A host write to CMD (R172): dropped with OVERRUN while BUSY = 1, for every word (R190); otherwise CMDREG takes the
word, and a reserved opcode is rejected (R76, R173) and a command issued. -/
def writeCmd (w : Word) (s : State) : Host.Outcome State Fault Refusal :=
  if s.busy then .next { s with overrun := true }
  else
    match decode w with
    | .error _ => .next (reject .badOpcode { s with cmdReg := w })
    | .ok c => exec c { s with cmdReg := w }

/-- A register write (R52, R54, R55): read-only and reserved slots ignore it. -/
def writePort (slot : BitVec 4) (v : Word) (s : State) : Host.Outcome State Fault Refusal :=
  match slot.toNat with
  | 0x0 => writeCmd v s
  | 0x1 => .next { s with data := v }
  | 0x2 => .next (writeStatus v s)
  | _ => .next s

/-- The next step of the host job in JOB (R176): `exec` of its command, which is of class S or R. A step is enabled
only while BUSY = 1. -/
def jobStep (s : State) : Host.Outcome State Fault Refusal :=
  if s.busy then
    match decode s.jobWord with
    | .ok c => if cmdClass c = .cache then .next s else exec c s
    | .error _ => .next s
  else .next s

/-- A SEQ step is enabled (R176): when SEQ is IDLE, the arbiter picks something; at a line step, the phase hold is met
(R93); at a commit, a finish or a turn, always. -/
def seqEnabled (s : State) : Bool :=
  match s.seq with
  | .idle => (pick s).isSome
  | .hostRun p => !p.isLine || phaseMet s
  | .round none => true
  | .round (some p) => !p.isLine || phaseMet s

/-- A SEQ step (R176): the grant the arbiter picks, a step of the host job, or a step of the round. When no SEQ step
is enabled the state stays as it is. -/
def seqStep (s : State) : Host.Outcome State Fault Refusal :=
  match s.seq with
  | .idle =>
    match pick s with
    | some .round => .next (grantRound s)
    | some .host => jobStep s
    | none => .next s
  | .hostRun _ => jobStep s
  | .round none => .next (turnStep s)
  | .round (some p) => .next (roundLineStep p s)

/-- Hardware reset (R200, R201): every piece of FSRC's state at once; the parameters stay, and what lies outside the
block (the schedule, the answers of the environment, the events already observed) goes on. -/
def hardReset (s : State) : State :=
  { State.resetWith s.params with script := s.script, draws := s.draws, freeIdx := s.freeIdx, trace := s.trace }

/-- One step of one agent (R9). -/
def act (a : Action) (s : State) : Host.Outcome State Fault Refusal :=
  match a with
  | .regRead slot => .next (readPort slot s)
  | .regWrite slot v => writePort slot v s
  | .seq => seqStep s
  | .tb => .next (tbStep s)
  | .reset => .next (hardReset s)

/-- Which agent's step the schedule takes next (R10): the next listed one, else a free value. -/
def nextAction (s : State) : Action :=
  match s.script with
  | a :: _ => a
  | [] => Config.freeAction s.freeIdx

/-- Use up the choice of the next step. -/
def dropAction (s : State) : State :=
  match s.script with
  | _ :: rest => { s with script := rest }
  | [] => { s with freeIdx := s.freeIdx + 1 }

end Sys2Proof.Machine
end

