-- ==== Sys2Proof/Machine/Step.lean ====
section
/-! DEFINITION. One step of the machine, and the step that runs a given command word. -/

namespace Sys2Proof.Machine

/-- One atomic step of exactly one agent (R9, R61): the one the schedule chooses. -/
def step (s : State) : Host.Outcome State Fault Refusal :=
  act (nextAction s) (dropAction s)

/-- `s` with the command word `w` as what the host writes to CMD in the very next step. FSRC fetches nothing (R66): a
command reaches it by that write alone (R172), so this is all that running a command takes where BUSY = 0, as it is
after reset; where BUSY = 1 the machine drops every such write (R190). -/
def State.withFetchWord (s : State) (nbits w : Nat) : State :=
  { s with script := .regWrite 0 (BitVec.ofNat 32 (w % 2 ^ nbits)) :: s.script }

end Sys2Proof.Machine
end

