-- ==== Sys2Proof/Machine/Execution.lean ====
section
/-! DEFINITION. Infinite executions of FSRC and their fairness (R10, R11, R12). One step of an execution is one `step`,
with the choice of its agent and the answer to its sample, if it makes one, given from outside: `script` and `draws`
hold just these. -/

namespace Sys2Proof.Machine

/-- `s`, where the schedule chooses the step `a` next and the environment answers `d` if that step samples. -/
def State.offered (s : State) (a : Action) (d : Bool) : State := { s with script := [a], draws := [d] }

/-- An infinite execution: step `k` is the agent's step `sched k`, the environment answers `env k` in it, and it takes
`run k` to `run (k + 1)`. Every schedule (R10) and every sequence of answers (R12) is admitted. -/
def Execution (sched : Nat → Action) (env : Nat → Bool) (run : Nat → State) : Prop :=
  ∀ k, step ((run k).offered (sched k) (env k)) = .next (run (k + 1))

/-- Fairness (R11). -/
structure Fair (sched : Nat → Action) (run : Nat → State) : Prop where
  /-- TB takes infinitely many steps. -/
  tb : ∀ k, ∃ m, k ≤ m ∧ sched m = .tb
  /-- A SEQ step that stays enabled is eventually taken. -/
  seq : ∀ k, (∀ m, k ≤ m → seqEnabled (run m) = true) → ∃ m, k ≤ m ∧ sched m = .seq

/-- Every 2^28 consecutive steps hold a step of SEQ. R11 sets no such bound; without one TIME may wrap between two polls,
and a poll whose elapsed time has wrapped does not time out (R95; notes/assumptions/15.md). -/
def Paced (sched : Nat → Action) : Prop := ∀ k, ∃ m, k ≤ m ∧ m < k + 2 ^ 28 ∧ sched m = .seq

end Sys2Proof.Machine
end

