-- ==== Sys2Proof/Safety.lean ====
section
/-! DEFINITION. What counts as a safe state of FSRC, in the terms the statements use: the invariant that every step
keeps, the frames, and the run of one command to its end. -/

namespace Sys2Proof.Machine

/-! ### Levels of the running port -/

/-- The levels of the output lines at a position of RESET, before its step (R91, R96). -/
def ResetPos.linesOk : ResetPos → Lines → Prop
  | .trigX, l => l = Lines.idle
  | .trigY, l => l = Lines.idle
  | .poll _, l => l = Lines.idle
  | .clkLo _, l => l = Lines.idle
  | .clkHi _, l => l = { Lines.idle with clk := false }

/-- The levels at a position of WRITEOUT (R98): from the first bit to step 3, DOUT holds the last bit shifted. -/
def WritePos.linesOk : WritePos → Lines → Prop
  | .ldLo, l => l = Lines.idle
  | .bit .clkLo _ _ _, l => l = { Lines.idle with dOut := l.dOut }
  | .bit .data _ _ _, l => l = { Lines.idle with clk := false, dOut := l.dOut }
  | .bit .clkHi k x _, l => l = { Lines.idle with clk := false, dOut := x.getLsbD k }
  | .dataLo, l => l = { Lines.idle with dOut := l.dOut }
  | .latchHi, l => l = Lines.idle
  | .latchLo, l => l = { Lines.idle with ldOut := true }

/-- The levels at a position of READIN (R99). -/
def ReadPos.linesOk : ReadPos → Lines → Prop
  | .ldHi, l => l = Lines.idle
  | .loadLo _, l => l = { Lines.idle with ldIn := true }
  | .loadHi _, l => l = { Lines.idle with ldIn := true, clk := false }
  | .ldLo _, l => l = { Lines.idle with ldIn := true }
  | .bit .sample _ _ _ _, l => l = Lines.idle
  | .bit .clkLo _ _ _ _, l => l = Lines.idle
  | .bit .clkHi _ _ _ _, l => l = { Lines.idle with clk := false }

/-- The levels at a position of ANALOG on axis `a` (R100). -/
def AnalogPos.linesOk (a : Bool) : AnalogPos → Lines → Prop
  | .trigLo, l => l = Lines.idle
  | .trigHi, l => l = Lines.idle.set (axisRole a) false
  | .poll _, l => l = Lines.idle

/-- The board count a READIN works with is `n`, and it has not read more bytes than that (R99, R140). -/
def ReadPos.countOk (n : Nat) : ReadPos → Prop
  | .ldHi => True
  | .loadLo m => m = n
  | .loadHi m => m = n
  | .ldLo m => m = n
  | .bit _ m bytes _ _ => m = n ∧ bytes.length < n

/-- A refresh of an instance is as R141 to R143 leave it: its port's levels, and the board count it took is still the
instance's (R140). -/
def RefreshPos.ok (x : Instance) : RefreshPos → Prop
  | .out p => p.linesOk x.lines
  | .inp p => p.linesOk x.lines ∧ p.countOk x.bc.toNat
  | .commit bytes => x.lines = Lines.idle ∧ bytes.length = x.bc.toNat

/-- A position belongs to the line program of a command, and the instance is as that program leaves it there. -/
def Pos.ok (c : Instr) (x : Instance) : Pos → Prop
  | .reset p =>
    p.linesOk x.lines ∧ (match c with | .treset _ _ => True | .mcons _ _ => True | _ => False)
  | .zero _ p =>
    p.linesOk x.lines ∧ (match c with | .twrzero _ => True | .mcons _ _ => True | _ => False)
  | .write p => p.linesOk x.lines ∧ (match c with | .twrite _ _ => True | _ => False)
  | .read p =>
    p.linesOk x.lines ∧ (match c with | .tread _ n => p.countOk n.toNat | _ => False)
  | .analog p =>
    match c with
    | .tanalog _ a _ => p.linesOk a x.lines
    | .tanalog8 _ a => p.linesOk a x.lines
    | _ => False
  | .refresh _ p =>
    p.ok x ∧
      (match c with
        | .refo _ => (∃ q, p = .out q)
        | .refi _ => (¬ ∃ q, p = .out q)
        | .ref _ => True
        | .mcons _ _ => True
        | _ => False)
  | .finish _ _ => x.lines = Lines.idle ∧ cmdClass c = .sequenced

/-! ### The invariant -/

/-- The command of the host job. -/
def jobCommand (s : State) : Option Instr :=
  match decode s.jobWord with
  | .ok c => some c
  | .error _ => none

/-- The instance whose port the sequencer works on (R23). -/
def runningPort (s : State) : Option InstId :=
  match s.seq with
  | .idle => none
  | .hostRun _ => (jobCommand s).bind instOperand
  | .round none => none
  | .round (some _) => s.regOrder[s.roundPos]?

/-- The invariant of FSRC: what the spec says holds in every reachable state. -/
structure Inv (s : State) : Prop where
  /-- NINST is 1 to 8 (R5). -/
  params : s.params.legal = true
  /-- Instances at or above NINST do not exist: nothing ever touches them. -/
  absent : ∀ i : InstId, s.params.ninst ≤ i.toNat → s.inst i = Instance.reset
  /-- BC holds 1 to 4 (R34). -/
  boardCount : ∀ i : InstId, 1 ≤ (s.inst i).bc.toNat ∧ (s.inst i).bc.toNat ≤ 4
  /-- TMR_PERIOD is 1 to 65535 (R41). -/
  period : 1 ≤ s.tmrPeriod.toNat
  /-- TMR_COUNT is 0 while detached (R41). -/
  detached : s.tmrAttached = false → s.tmrCount = 0
  /-- Members of REG_ORDER are distinct (R39, R164). -/
  distinct : s.regOrder.Nodup
  /-- Members of REG_ORDER are constructed (R39, R164). -/
  constructed : ∀ i ∈ s.regOrder, (s.inst i).cons = true
  /-- The timer is attached exactly when the registry is not empty (R164). -/
  attached : s.tmrAttached = true ↔ s.regOrder ≠ []
  /-- A round is pending or active only while attached (R164). -/
  pending : s.roundPending = true ∨ s.roundActive = true → s.tmrAttached = true
  /-- ROUND_ACTIVE says that SEQ = ROUND (R42). -/
  active : s.roundActive = true ↔ ∃ p, s.seq = .round p
  /-- ROUND_POS is an index into REG_ORDER, or its length between turns (R42). -/
  position : s.roundActive = true → s.roundPos ≤ s.regOrder.length
  /-- Inside a turn ROUND_POS names a member, and its refresh is as the refresh programs leave it (R23, R140). -/
  turn : ∀ p, s.seq = .round (some p) → ∃ j, s.regOrder[s.roundPos]? = some j ∧ p.ok (s.inst j)
  /-- A job is outstanding exactly while BUSY = 1, and its validation has not gone stale (R25, R172). -/
  job : s.busy = true → ∃ c, decode s.jobWord = .ok c ∧ cmdClass c ≠ .cache ∧ validate c s = none
  /-- The sequencer runs a host job only while one is outstanding, at a position of that job's program (R23, R25). -/
  run : ∀ p, s.seq = .hostRun p →
    s.busy = true ∧ ∃ c i, decode s.jobWord = .ok c ∧ instOperand c = some i ∧ p.ok c (s.inst i)
  /-- Every line of a port on which no line program runs is idle (R91). -/
  idle : ∀ i, runningPort s ≠ some i → (s.inst i).lines = Lines.idle

/-! ### Frames -/

/-- Two instances differ at most in their lines. -/
def SameButLines (x y : Instance) : Prop :=
  y.cons = x.cons ∧ y.bc = x.bc ∧ y.out = x.out ∧ y.inp = x.inp ∧ y.prev = x.prev ∧ y.mute = x.mute

/-- Nothing of the parameters, the host's registers, the sticky flags, the timebase and the timer, the registry and the
round state has changed. -/
def SameShared (s t : State) : Prop :=
  t.params = s.params ∧ t.cmdReg = s.cmdReg ∧ t.data = s.data ∧ t.overrun = s.overrun ∧ t.tickLost = s.tickLost ∧
    t.time = s.time ∧ t.tmrAttached = s.tmrAttached ∧ t.tmrPeriod = s.tmrPeriod ∧ t.tmrCount = s.tmrCount ∧
    t.roundPending = s.roundPending ∧ t.roundActive = s.roundActive ∧ t.roundPos = s.roundPos ∧
    t.regOrder = s.regOrder ∧ t.script = s.script

/-! ### The parts of a command's rule -/

/-- How a command of class R or S that names instance `i` is issued (R172 to R175): the checks in their order, then the
acceptance. `need` is the value of CONS its row of R175 asks for, `legal` its argument check. -/
def Issues (c : Instr) (i : InstId) (need : Option Bool) (legal : Prop) : Prop :=
  ∀ s : State, s.busy = false →
    (s.params.ninst ≤ i.toNat → exec c s = .next { s with rc := .badArg }) ∧
    (i.toNat < s.params.ninst → (∃ b, need = some b ∧ (s.inst i).cons ≠ b) →
      exec c s = .next { s with rc := .badState }) ∧
    (i.toNat < s.params.ninst → (∀ b, need = some b → (s.inst i).cons = b) → ¬ legal →
      exec c s = .next { s with rc := .badArg }) ∧
    (i.toNat < s.params.ninst → (∀ b, need = some b → (s.inst i).cons = b) → legal →
      exec c s = .next { s with jobWord := s.cmdReg, jobData := s.data, busy := true })

/-- How a command of class C that needs instance `i` constructed is rejected (R121, R175). -/
def RejectsUnconstructed (c : Instr) (i : InstId) (s : State) : Prop :=
  (s.params.ninst ≤ i.toNat → exec c s = .next { s with rc := .badArg }) ∧
  (i.toNat < s.params.ninst → (s.inst i).cons = false → exec c s = .next { s with rc := .badState })

/-- Instance `i` exists and is constructed. -/
def Constructed (i : InstId) (s : State) : Prop := i.toNat < s.params.ninst ∧ (s.inst i).cons = true

/-- An instance after its destruction: as after reset, but for its lines (R148). -/
def destroyed (l : Lines) : Instance where
  lines := l
  cons := false
  bc := 1
  out := #v[0, 0, 0, 0]
  inp := #v[0, 0, 0, 0]
  prev := #v[0, 0, 0, 0]
  mute := false

/-- How a waiting command of class S is granted: SEQ goes to step 1 of its line program (R176). -/
def GrantedAt (c : Instr) (start : Pos) : Prop :=
  ∀ s : State, s.busy = true → s.seq = .idle →
    exec c s = .next { s with lastGrant := .host, seq := .hostRun start }

/-- The host job runs and stands at position `p`, with the phase hold met (R93). -/
def AtPos (s : State) (p : Pos) : Prop :=
  s.busy = true ∧ s.seq = .hostRun p ∧ s.params.phaseMinUs ≤ (s.time - s.seqLastT).toNat

/-- At `p` the command `c` takes the step that leaves `t`, and goes on at `q`. -/
def Goes (c : Instr) (s : State) (p : Pos) (t : State) (q : Pos) : Prop :=
  AtPos s p → exec c s = .next { t with seq := .hostRun q }

/-- How a command of class S finishes (R177); `extra` is what its own rule writes in that step. -/
def FinishesWith (c : Instr) (extra : State → State) : Prop :=
  ∀ (s : State) (rc : ResultCode) (r : Option Word), s.busy = true → s.seq = .hostRun (.finish rc r) →
    exec c s = .next { extra s with rc := rc, result := r.getD s.result, busy := false, seq := .idle }

/-- The steps of `RESET(i, T)` inside a command (R96), which goes on at `after ok`. `entry` is what the command does in
the same step as step 1. -/
def RunsReset (c : Instr) (i : InstId) (T : Word) (entry : State → State) (after : Bool → Pos) : Prop :=
  ∀ (s : State) (t0 : Word),
    Goes c s (.reset .trigX) (drive i .trigX true (entry s)) (.reset .trigY) ∧
    Goes c s (.reset .trigY) (drive i .trigY true s) (.reset (.poll s.time)) ∧
    (T ≤ s.time - t0 → Goes c s (.reset (.poll t0)) s (after false)) ∧
    (s.time - t0 < T → nextBit s = true → Goes c s (.reset (.poll t0)) (sample i s) (after true)) ∧
    (s.time - t0 < T → nextBit s = false → Goes c s (.reset (.poll t0)) (sample i s) (.reset (.clkLo t0))) ∧
    Goes c s (.reset (.clkLo t0)) (drive i .clk false s) (.reset (.clkHi t0)) ∧
    Goes c s (.reset (.clkHi t0)) (drive i .clk true s) (.reset (.poll t0))

/-- The steps of WRITEOUT inside a command (R98); `bytes` is the `seq` of step 2 as step 1 finds it, `at'` places a
position of it in the command. -/
def RunsWriteOut (c : Instr) (i : InstId) (bytes : State → List Byte) (at' : WritePos → Pos) (after : Pos) : Prop :=
  ∀ (s : State) (k : Fin 8) (x : Byte) (rest : List Byte),
    (bytes s = x :: rest → Goes c s (at' .ldLo) (drive i .ldOut false s) (at' (.bit .clkLo 7 x rest))) ∧
    Goes c s (at' (.bit .clkLo k x rest)) (drive i .clk false s) (at' (.bit .data k x rest)) ∧
    Goes c s (at' (.bit .data k x rest)) (drive i .dOut (x.getLsbD k) s) (at' (.bit .clkHi k x rest)) ∧
    (k ≠ 0 → Goes c s (at' (.bit .clkHi k x rest)) (drive i .clk true s) (at' (.bit .clkLo (k - 1) x rest))) ∧
    (∀ y ys, rest = y :: ys →
      Goes c s (at' (.bit .clkHi 0 x rest)) (drive i .clk true s) (at' (.bit .clkLo 7 y ys))) ∧
    Goes c s (at' (.bit .clkHi 0 x [])) (drive i .clk true s) (at' .dataLo) ∧
    Goes c s (at' .dataLo) (drive i .dOut false s) (at' .latchHi) ∧
    Goes c s (at' .latchHi) (drive i .ldOut true s) (at' .latchLo) ∧
    Goes c s (at' .latchLo) (drive i .ldOut false s) after

/-- The steps of `READIN(i, n)` inside a command (R99), which goes on at `after bytes`; `n` is the count as step 1
finds it, and at least 1 (R34, R73). A bit is the inverted level of the line. -/
def RunsReadIn (c : Instr) (i : InstId) (n : State → Nat) (at' : ReadPos → Pos) (after : List Byte → Pos) : Prop :=
  ∀ (s : State) (m : Nat) (bytes : List Byte) (k : Fin 8) (acc : Byte),
    Goes c s (at' .ldHi) (drive i .ldIn true s) (at' (.loadLo (n s))) ∧
    Goes c s (at' (.loadLo m)) (drive i .clk false s) (at' (.loadHi m)) ∧
    Goes c s (at' (.loadHi m)) (drive i .clk true s) (at' (.ldLo m)) ∧
    (1 ≤ m → Goes c s (at' (.ldLo m)) (drive i .ldIn false s) (at' (.bit .sample m [] 7 0))) ∧
    Goes c s (at' (.bit .sample m bytes k acc)) (sample i s)
      (at' (.bit .clkLo m bytes k ((acc &&& ~~~(1#8 <<< k.val)) ||| (BitVec.ofBool (!nextBit s)).setWidth 8 <<< k.val))) ∧
    Goes c s (at' (.bit .clkLo m bytes k acc)) (drive i .clk false s) (at' (.bit .clkHi m bytes k acc)) ∧
    (k ≠ 0 → Goes c s (at' (.bit .clkHi m bytes k acc)) (drive i .clk true s) (at' (.bit .sample m bytes (k - 1) acc))) ∧
    (bytes.length + 1 < m →
      Goes c s (at' (.bit .clkHi m bytes 0 acc)) (drive i .clk true s) (at' (.bit .sample m (bytes ++ [acc]) 7 0))) ∧
    (bytes.length + 1 = m →
      Goes c s (at' (.bit .clkHi m bytes 0 acc)) (drive i .clk true s) (after (bytes ++ [acc])))

/-- The steps of `ANALOG(i, a, T)` inside a command (R100), which goes on at `after d outcome`. -/
def RunsAnalog (c : Instr) (i : InstId) (r : Role) (T : Word) (after : Word → ResultCode → Pos) : Prop :=
  ∀ (s : State) (t0 : Word),
    Goes c s (.analog .trigLo) (drive i r false s) (.analog .trigHi) ∧
    Goes c s (.analog .trigHi) (drive i r true s) (.analog (.poll s.time)) ∧
    (T ≤ s.time - t0 → Goes c s (.analog (.poll t0)) s (after T .timeout)) ∧
    (s.time - t0 < T → nextBit s = true → Goes c s (.analog (.poll t0)) (sample i s) (after (s.time - t0) .ok)) ∧
    (s.time - t0 < T → nextBit s = false → Goes c s (.analog (.poll t0)) (sample i s) (.analog (.poll t0)))

/-- The bytes of the boards 0 to `n - 1`, the farthest board first (R98). -/
def boardsFarthestFirst (n : Nat) (byteOf : Nat → Byte) : List Byte := ((List.range n).map byteOf).reverse

/-- The bytes a refresh of outputs of instance `i` shifts, as its snapshot step finds them (R141). -/
def outputsOf (i : InstId) (s : State) : List Byte :=
  boardsFarthestFirst (s.inst i).bc.toNat (fun b => bankGet (s.inst i).out b)

/-- The commit of a refresh of inputs inside a command (R142): it needs no phase hold, and instance `i` is afterwards
`withCommit` of what it was. -/
def RunsCommit (c : Instr) (i : InstId) (at' : List Byte → Pos) (after : Pos) : Prop :=
  ∀ (s : State) (bytes : List Byte), s.busy = true → s.seq = .hostRun (at' bytes) →
    exec c s = .next { s.setInst i (withCommit (s.inst i) bytes) with seq := .hostRun after }

/-- The bounded polls are in the line program of the command (R96, R100). -/
def polls : Instr → Bool
  | .treset _ _ => true
  | .tanalog _ _ _ => true
  | .tanalog8 _ _ => true
  | .mcons _ _ => true
  | _ => false

/-! ### Runs of one command -/

/-- `k` consecutive steps of the command `c` with no step of another agent between them. -/
def runCommand (c : Instr) : Nat → State → Host.Outcome State Fault Refusal
  | 0, s => .next s
  | k + 1, s =>
    match exec c s with
    | .next t => runCommand c k t
    | .fault f => .fault f
    | .refused r => .refused r

/-- The grants of the commands of a list, one after another, each as the job that waits (R176). -/
def grantEach : List Instr → State → Host.Outcome State Fault Refusal
  | [], s => .next s
  | c :: cs, s =>
    match exec c { s with busy := true } with
    | .next t => grantEach cs t
    | .fault f => .fault f
    | .refused r => .refused r

/-- The drive events of one byte in WRITEOUT step 2, in order (R98). -/
def byteEvents (i : InstId) (t : Word) (x : Byte) : List Event :=
  [7, 6, 5, 4, 3, 2, 1, 0].flatMap fun k =>
    [.drive i .clk false t, .drive i .dOut (x.getLsbD k) t, .drive i .clk true t]

/-- The drive events of WRITEOUT with the bytes `bytes` in the order they are shifted, in order (R98). -/
def writeEvents (i : InstId) (t : Word) (bytes : List Byte) : List Event :=
  [.drive i .ldOut false t] ++ bytes.flatMap (byteEvents i t) ++
    [.drive i .dOut false t, .drive i .ldOut true t, .drive i .ldOut false t]

/-- The events of the eight bits of one byte in READIN step 5, in order, where the line answers so that the byte read
is `x`: each bit is sampled inverted, and then CLK is pulsed (R99). -/
def readByteEvents (i : InstId) (t : Word) (x : Byte) : List Event :=
  [7, 6, 5, 4, 3, 2, 1, 0].flatMap fun k =>
    [.sample i (!x.getLsbD k) t, .drive i .clk false t, .drive i .clk true t]

/-- The events of READIN where it reads `bytes`, nearest board first, in order (R99). -/
def readEvents (i : InstId) (t : Word) (bytes : List Byte) : List Event :=
  [.drive i .ldIn true t, .drive i .clk false t, .drive i .clk true t, .drive i .ldIn false t] ++
    bytes.flatMap (readByteEvents i t)

/-- The answers of the environment under which READIN reads `bytes`: the inverted bits, most significant first, the
nearest board first (R99). -/
def answersFor (bytes : List Byte) : List Bool :=
  bytes.flatMap fun x => [7, 6, 5, 4, 3, 2, 1, 0].map fun k => !x.getLsbD k

end Sys2Proof.Machine
end

