-- ==== Sys2Proof/WellFormed.lean ====
section
/-! DEFINITION. When a command is well formed: its COUNT is a legal one (R73). Every other field admits every value
of its width (R71, R120), so the types of Syntax.lean already say all there is to say about them. -/

namespace Sys2Proof

/-- A command's count operand is in its legal range (R73): 1 to 4 for TWRITE and TREAD, 0 to 4 for MCONS and MSETCNT,
where 0 stands for the default 1. Every word decodes, ill-formed ones included, and the machine rejects an ill-formed
command with BAD_ARG (R175): the check is a property of the command, not a bar to its decoding (R71). -/
def Instr.wellFormed : Instr → Bool
  | .twrite _ n => decide (1 ≤ n.toNat) && decide (n.toNat ≤ 4)
  | .tread _ n => decide (1 ≤ n.toNat) && decide (n.toNat ≤ 4)
  | .mcons _ n => decide (n.toNat ≤ 4)
  | .msetcnt _ n => decide (n.toNat ≤ 4)
  | .nop => true
  | .treset _ _ => true
  | .twrzero _ => true
  | .tanalog _ _ _ => true
  | .tanalog8 _ _ => true
  | .mdestroy _ => true
  | .mreg _ _ => true
  | .mmute _ _ => true
  | .setob _ _ _ _ => true
  | .setom _ _ _ _ => true
  | .getob _ _ _ => true
  | .getom _ _ => true
  | .getib _ _ _ => true
  | .getpib _ _ _ => true
  | .getim _ _ => true
  | .getpim _ _ => true
  | .refo _ => true
  | .refi _ => true
  | .ref _ => true

end Sys2Proof
end

