-- ==== Sys2Proof/Certificates/Slice0/Obligations.lean ====
section
/-! DEFINITION. The statements for the provers. Each docstring names the rules of spec/ it formalises. -/

open Sys2Proof Sys2Proof.Machine

/-! ### Encoding -/

/-- Decoding an encoded command gives it back, every operand at every value its field admits (R70, R71, R75). -/
def Obligations.DecodeEncode : Prop := ∀ c : Instr, decode (encode c) = .ok c

/-- A word that decodes encodes back to the bits its row uses, and to 0 in the bits marked `x` (R70, R77): the decoder
drops none of the bits the row uses. -/
def Obligations.EncodeDecode : Prop :=
  ∀ (w : Word) (c : Instr), decode w = .ok c → encode c = w &&& usedMask c

/-- Words written out in spec/95_test_vectors.md section 4.1 decode to the commands they stand for, one or more per
family. -/
def Obligations.SpecWords : Prop :=
  decode 0x00000000 = .ok .nop ∧ decode 0xFFFFFFE0 = .ok .nop ∧
  decode 0x13880021 = .ok (.treset 1 5000) ∧ decode 0x00000302 = .ok (.twrite 0 3) ∧
  decode 0x03E88005 = .ok (.tanalog 0 true 1000) ∧ decode 0x00000208 = .ok (.mcons 0 2) ∧
  decode 0x0BB8000B = .ok (.mreg 0 3000) ∧ decode 0x0000802C = .ok (.mmute 1 true) ∧
  decode 0x0000A910 = .ok (.setob 0 1 5 true) ∧ decode 0xF00F0311 = .ok (.setom 0 3 0x0F 0xF0) ∧
  decode 0x00003834 = .ok (.getib 1 0 7) ∧ decode 0x000000F9 = .ok (.refi 7)

/-- The reserved opcodes and no others are no command; OP alone decides (R75, R76). -/
def Obligations.OpcodeMap : Prop :=
  ∀ w : Word,
    (w.extractLsb' 0 5 ∈ [0x07#5, 0x0D, 0x0E, 0x0F, 0x1B, 0x1C, 0x1D, 0x1E, 0x1F] →
      decode w = .error (.reservedOpcode (w.extractLsb' 0 5))) ∧
    (w.extractLsb' 0 5 ∉ [0x07#5, 0x0D, 0x0E, 0x0F, 0x1B, 0x1C, 0x1D, 0x1E, 0x1F] →
      ∃ c, decode w = .ok c ∧ c.opcode = w.extractLsb' 0 5)

/-! ### Issue -/

/-- A step runs the decoded command: the host's write of a word to CMD while BUSY = 0 is `exec` of the command it
decodes to, after CMDREG has taken the word (R172). The second part says it of `withFetchWord`. Which step comes next
is read off the schedule, the model's own (notes/assumptions/3.md). -/
def Obligations.StepRunsCommand : Prop :=
  (∀ (s : State) (w : Word) (rest : List Action) (c : Instr),
    s.script = .regWrite 0 w :: rest → s.busy = false → decode w = .ok c →
      step s = exec c { s with script := rest, cmdReg := w }) ∧
  (∀ (s : State) (w : Nat) (c : Instr),
    s.busy = false → w < 2 ^ 32 → decodeTableWord 32 w = some c →
      step (s.withFetchWord 32 w) = exec c { s with cmdReg := BitVec.ofNat 32 w })

/-- A SEQ step while a host job runs is `exec` of the command that JOB holds (R176). Which step comes next is read off
the schedule, the model's own (notes/assumptions/3.md). -/
def Obligations.StepRunsJob : Prop :=
  ∀ (s : State) (rest : List Action) (p : Pos) (c : Instr),
    s.script = .seq :: rest → s.busy = true → s.seq = .hostRun p → decode s.jobWord = .ok c → cmdClass c ≠ .cache →
      step s = exec c { s with script := rest }

/-- A reserved opcode written while BUSY = 0 is rejected with BAD_OPCODE: CMDREG holds the word, RC the code, and
nothing else changes (R76, R173). Which step comes next is read off the schedule, the model's own
(notes/assumptions/3.md). -/
def Obligations.ReservedRejected : Prop :=
  ∀ (s : State) (w : Word) (rest : List Action),
    s.script = .regWrite 0 w :: rest → s.busy = false →
    w.extractLsb' 0 5 ∈ [0x07#5, 0x0D, 0x0E, 0x0F, 0x1B, 0x1C, 0x1D, 0x1E, 0x1F] →
      step s = .next { s with script := rest, cmdReg := w, rc := .badOpcode }

/-- A write to CMD while BUSY = 1 is dropped, whatever the word: OVERRUN is set and nothing else changes; and OVERRUN
stays 1 until the host writes 1 to STATUS[16] or the block is reset (R190). Which step comes next is read off the
schedule, the model's own (notes/assumptions/3.md). -/
def Obligations.DroppedWhileBusy : Prop :=
  (∀ (s : State) (w : Word) (rest : List Action),
    s.script = .regWrite 0 w :: rest → s.busy = true →
      step s = .next { s with script := rest, overrun := true }) ∧
  (∀ s t : State, step s = .next t → s.overrun = true → t.overrun = false →
    nextAction s = .reset ∨ ∃ v : Word, nextAction s = .regWrite 2 v ∧ v.getLsbD 16 = true)

/-- While a job is outstanding no step but a hardware reset changes what JOB captured; in particular no write to DATA
or to CMD does (R67). Which step comes next is read off the schedule, the model's own (notes/assumptions/3.md). -/
def Obligations.JobCaptured : Prop :=
  ∀ s t : State, step s = .next t → s.busy = true → nextAction s ≠ .reset →
    t.jobWord = s.jobWord ∧ t.jobData = s.jobData

/-! ### Commands of class C -/

/-- NOP, where it executes, writes RC = OK and nothing else, whatever INST holds; while BUSY = 1 its word is dropped
before that (R150; DroppedWhileBusy). -/
def Obligations.NopRule : Prop :=
  (∀ w : Word, w.extractLsb' 0 5 = 0x00 → decode w = .ok .nop) ∧
  (∀ s : State, exec .nop s = .next { s with rc := .ok })

/-- SETOB (R122): in range it replaces one bit of one byte of OUT; out of range it changes nothing; RC = OK. -/
def Obligations.SetobRule : Prop :=
  (∀ w : Word, w.extractLsb' 0 5 = 0x10 →
    decode w = .ok (.setob (w.extractLsb' 5 3) (w.extractLsb' 8 3) (w.extractLsb' 11 4) (w.getLsbD 15))) ∧
  (∀ (i : InstId) (b : BitVec 3) (c : BitVec 4) (v : Bool) (s : State),
    RejectsUnconstructed (.setob i b c v) i s ∧
    (Constructed i s → b < (s.inst i).bc → c.toNat < 8 →
      exec (.setob i b c v) s =
        .next { s.setInst i { s.inst i with
                  out := bankSet (s.inst i).out b.toNat
                    ((bankGet (s.inst i).out b.toNat &&& ~~~(1#8 <<< c.toNat)) |||
                      ((BitVec.ofBool v).setWidth 8 <<< c.toNat)) }
                with rc := .ok }) ∧
    (Constructed i s → ¬ (b < (s.inst i).bc ∧ c.toNat < 8) →
      exec (.setob i b c v) s = .next { s with rc := .ok }))

/-- SETOM (R123): in range it ORs the set mask into one byte of OUT and then clears the reset mask's bits; out of range
it changes nothing; RC = OK. -/
def Obligations.SetomRule : Prop :=
  (∀ w : Word, w.extractLsb' 0 5 = 0x11 →
    decode w = .ok (.setom (w.extractLsb' 5 3) (w.extractLsb' 8 3) (w.extractLsb' 16 8) (w.extractLsb' 24 8))) ∧
  (∀ (i : InstId) (b : BitVec 3) (S R : Byte) (s : State),
    RejectsUnconstructed (.setom i b S R) i s ∧
    (Constructed i s → b < (s.inst i).bc →
      exec (.setom i b S R) s =
        .next { s.setInst i { s.inst i with
                  out := bankSet (s.inst i).out b.toNat ((bankGet (s.inst i).out b.toNat ||| S) &&& ~~~R) }
                with rc := .ok }) ∧
    (Constructed i s → ¬ b < (s.inst i).bc → exec (.setom i b S R) s = .next { s with rc := .ok }))

/-- GETOB, GETIB, GETPIB (R124, R126, R127): the bit of OUT, IN or PREV, or 0 when out of range; RC = OK, and nothing
else changes. -/
def Obligations.GetBitRules : Prop :=
  (∀ w : Word,
    (w.extractLsb' 0 5 = 0x12 → decode w = .ok (.getob (w.extractLsb' 5 3) (w.extractLsb' 8 3) (w.extractLsb' 11 4))) ∧
    (w.extractLsb' 0 5 = 0x14 → decode w = .ok (.getib (w.extractLsb' 5 3) (w.extractLsb' 8 3) (w.extractLsb' 11 4))) ∧
    (w.extractLsb' 0 5 = 0x15 → decode w = .ok (.getpib (w.extractLsb' 5 3) (w.extractLsb' 8 3) (w.extractLsb' 11 4)))) ∧
  (∀ (i : InstId) (b : BitVec 3) (c : BitVec 4) (s : State),
    RejectsUnconstructed (.getob i b c) i s ∧ RejectsUnconstructed (.getib i b c) i s ∧
    RejectsUnconstructed (.getpib i b c) i s ∧
    (Constructed i s → b < (s.inst i).bc → c.toNat < 8 →
      exec (.getob i b c) s = .next { s with
        rc := .ok, result := (BitVec.ofBool ((bankGet (s.inst i).out b.toNat).getLsbD c.toNat)).setWidth 32 } ∧
      exec (.getib i b c) s = .next { s with
        rc := .ok, result := (BitVec.ofBool ((bankGet (s.inst i).inp b.toNat).getLsbD c.toNat)).setWidth 32 } ∧
      exec (.getpib i b c) s = .next { s with
        rc := .ok, result := (BitVec.ofBool ((bankGet (s.inst i).prev b.toNat).getLsbD c.toNat)).setWidth 32 }) ∧
    (Constructed i s → ¬ (b < (s.inst i).bc ∧ c.toNat < 8) →
      exec (.getob i b c) s = .next { s with rc := .ok, result := 0 } ∧
      exec (.getib i b c) s = .next { s with rc := .ok, result := 0 } ∧
      exec (.getpib i b c) s = .next { s with rc := .ok, result := 0 }))

/-- GETOM, GETIM, GETPIM (R125, R128, R129): the byte of OUT, IN or PREV, or 0 when out of range; RC = OK, and nothing
else changes. -/
def Obligations.GetMaskRules : Prop :=
  (∀ w : Word,
    (w.extractLsb' 0 5 = 0x13 → decode w = .ok (.getom (w.extractLsb' 5 3) (w.extractLsb' 8 3))) ∧
    (w.extractLsb' 0 5 = 0x16 → decode w = .ok (.getim (w.extractLsb' 5 3) (w.extractLsb' 8 3))) ∧
    (w.extractLsb' 0 5 = 0x17 → decode w = .ok (.getpim (w.extractLsb' 5 3) (w.extractLsb' 8 3)))) ∧
  (∀ (i : InstId) (b : BitVec 3) (s : State),
    RejectsUnconstructed (.getom i b) i s ∧ RejectsUnconstructed (.getim i b) i s ∧
    RejectsUnconstructed (.getpim i b) i s ∧
    (Constructed i s → b < (s.inst i).bc →
      exec (.getom i b) s = .next { s with rc := .ok, result := (bankGet (s.inst i).out b.toNat).setWidth 32 } ∧
      exec (.getim i b) s = .next { s with rc := .ok, result := (bankGet (s.inst i).inp b.toNat).setWidth 32 } ∧
      exec (.getpim i b) s = .next { s with rc := .ok, result := (bankGet (s.inst i).prev b.toNat).setWidth 32 }) ∧
    (Constructed i s → ¬ b < (s.inst i).bc →
      exec (.getom i b) s = .next { s with rc := .ok, result := 0 } ∧
      exec (.getim i b) s = .next { s with rc := .ok, result := 0 } ∧
      exec (.getpim i b) s = .next { s with rc := .ok, result := 0 }))

/-- Lanes (R130): in an instance whose board count is legal, after SETOM lane `k` of the byte is 0 where the reset mask
has a 1, else 1 where the set mask has, else as before; after SETOB lane `c` is the value written and every other lane
is as before; and no byte of another board, of IN or of PREV, of any instance, changes. -/
def Obligations.LaneRule : Prop :=
  ∀ (i : InstId) (b : BitVec 3) (s t : State), Constructed i s → (s.inst i).bc.toNat ≤ 4 → b < (s.inst i).bc →
    (∀ S R : Byte, exec (.setom i b S R) s = .next t → ∀ k : Nat, k < 8 →
      (bankGet (t.inst i).out b.toNat).getLsbD k =
        if R.getLsbD k then false else if S.getLsbD k then true else (bankGet (s.inst i).out b.toNat).getLsbD k) ∧
    (∀ (c : BitVec 4) (v : Bool), c.toNat < 8 → exec (.setob i b c v) s = .next t → ∀ k : Nat, k < 8 →
      (bankGet (t.inst i).out b.toNat).getLsbD k =
        if k = c.toNat then v else (bankGet (s.inst i).out b.toNat).getLsbD k) ∧
    ((∃ S R : Byte, exec (.setom i b S R) s = .next t) ∨ (∃ c v, exec (.setob i b c v) s = .next t) →
      (∀ j : InstId, j ≠ i → t.inst j = s.inst j) ∧
      (∀ d : Nat, d ≠ b.toNat → bankGet (t.inst i).out d = bankGet (s.inst i).out d) ∧
      (t.inst i).inp = (s.inst i).inp ∧ (t.inst i).prev = (s.inst i).prev)

/-- MMUTE (R162): MUTE of the instance takes the value, RC = OK, and nothing else changes. -/
def Obligations.MmuteRule : Prop :=
  (∀ w : Word, w.extractLsb' 0 5 = 0x0C → decode w = .ok (.mmute (w.extractLsb' 5 3) (w.getLsbD 15))) ∧
  (∀ (i : InstId) (v : Bool) (s : State),
    RejectsUnconstructed (.mmute i v) i s ∧
    (Constructed i s →
      exec (.mmute i v) s = .next { s.setInst i { s.inst i with mute := v } with rc := .ok }))

/-! ### Commands of class R -/

/-- MREG (R161): its issue; and in its one grant step the registry, the period, the timer's attachment, RC, BUSY and
LAST_GRANT as the rule says, and nothing else. -/
def Obligations.MregRule : Prop :=
  (∀ w : Word, w.extractLsb' 0 5 = 0x0B → decode w = .ok (.mreg (w.extractLsb' 5 3) (w.extractLsb' 16 16))) ∧
  (∀ (i : InstId) (imm : BitVec 16),
    Issues (.mreg i imm) i (some true) True ∧
    (∀ s : State, s.busy = true → s.seq = .idle →
      exec (.mreg i imm) s = .next { s with
        regOrder := if i ∈ s.regOrder then s.regOrder else s.regOrder ++ [i]
        tmrPeriod := if imm = 0 then 3000 else imm
        tmrAttached := true
        tmrCount := if s.tmrAttached then s.tmrCount else 0
        lastGrant := .host, rc := .ok, busy := false, seq := .idle }))

/-- MDESTROY (R148) with DEREGISTER (R163): its issue; and in its one grant step the instance is cleared but for its
lines, it leaves the registry, the others keeping their order, and when the registry becomes empty by that the timer is
detached and a pending round dropped; nothing else changes. -/
def Obligations.MdestroyRule : Prop :=
  (∀ w : Word, w.extractLsb' 0 5 = 0x09 → decode w = .ok (.mdestroy (w.extractLsb' 5 3))) ∧
  (∀ i : InstId,
    Issues (.mdestroy i) i (some true) True ∧
    (∀ s : State, s.busy = true → s.seq = .idle →
      (i ∈ s.regOrder → s.regOrder.erase i = [] →
        exec (.mdestroy i) s = .next {
          s.setInst i (destroyed (s.inst i).lines) with
          regOrder := [], tmrAttached := false, tmrCount := 0, roundPending := false
          lastGrant := .host, rc := .ok, busy := false, seq := .idle }) ∧
      (¬ (i ∈ s.regOrder ∧ s.regOrder.erase i = []) →
        exec (.mdestroy i) s = .next {
          s.setInst i (destroyed (s.inst i).lines) with
          regOrder := s.regOrder.erase i
          lastGrant := .host, rc := .ok, busy := false, seq := .idle })))

/-- MSETCNT (R149): its issue; and in its one grant step BC, and nothing else but RC, BUSY and LAST_GRANT. -/
def Obligations.MsetcntRule : Prop :=
  (∀ w : Word, w.extractLsb' 0 5 = 0x0A → decode w = .ok (.msetcnt (w.extractLsb' 5 3) (w.extractLsb' 8 3))) ∧
  (∀ (i : InstId) (n : BitVec 3),
    Issues (.msetcnt i n) i (some true) (n.toNat ≤ 4) ∧
    (∀ s : State, s.busy = true → s.seq = .idle →
      exec (.msetcnt i n) s = .next {
        s.setInst i { s.inst i with bc := if n = 0 then 1 else n } with
        lastGrant := .host, rc := .ok, busy := false, seq := .idle }))

/-- A granted command of class R needs SEQ = IDLE (R160, R176): while SEQ is not IDLE no step of it is enabled, and
`exec`, where the schedule takes one all the same, changes nothing (the model's form, notes/assumptions/5.md, 6.md);
and no step but such a grant of an MREG or an MDESTROY, or a reset, changes the registry. Which step comes next is read
off the schedule, the model's own (notes/assumptions/3.md). -/
def Obligations.RegistryDiscipline : Prop :=
  (∀ (c : Instr) (s : State), cmdClass c = .registry → s.busy = true → s.seq ≠ .idle → exec c s = .next s) ∧
  (∀ s t : State, step s = .next t → t.regOrder ≠ s.regOrder →
    nextAction s = .reset ∨
      (nextAction s = .seq ∧ s.seq = .idle ∧ s.busy = true ∧
        ∃ i, (∃ p, decode s.jobWord = .ok (.mreg i p)) ∨ decode s.jobWord = .ok (.mdestroy i)))

/-- Registering instances and destroying the same ones, in any order and interleaving, leaves the registry empty and
the timer detached (R164 item 4): from an empty registry, the grants of any sequence of MREG and MDESTROY in which
every MREG is followed later by the MDESTROY of its instance. The grants are taken back to back, each of its command as
the job that waits, without the issues between them (notes/assumptions/6.md). -/
def Obligations.RegistryDrains : Prop :=
  ∀ (s : State) (cs : List Instr), s.seq = .idle → s.regOrder = [] → s.tmrAttached = false →
    (∀ c ∈ cs, (∃ i p, c = .mreg i p) ∨ (∃ i, c = .mdestroy i)) →
    (∀ i p before after, cs = before ++ .mreg i p :: after → .mdestroy i ∈ after) →
      ∃ t, grantEach cs s = .next t ∧ t.regOrder = [] ∧ t.tmrAttached = false

/-! ### Line primitives -/

/-- A drive (R92) puts the level on its line, makes SEQ_LAST_T the present TIME and records its event; no other line of
any port, no other field of any instance and no other piece of state changes. A sample (R94) returns the next answer of
the environment and records it; it changes no FSRC state: only the answer is used up (a listed one, or, when none is
listed, a free value). The answers of the environment are read off the model's own list (notes/assumptions/4.md). -/
def Obligations.LinePrimitives : Prop :=
  (∀ (i : InstId) (r : Role) (v : Bool) (s : State),
    drive i r v s =
      { s.setInst i { s.inst i with lines := ((drive i r v s).inst i).lines } with
        seqLastT := s.time, trace := .drive i r v s.time :: s.trace } ∧
    (∀ r', ((drive i r v s).inst i).lines.get r' = if r' = r then v else (s.inst i).lines.get r')) ∧
  (∀ (i : InstId) (s : State),
    (∀ d ds, s.draws = d :: ds →
      nextBit s = d ∧ sample i s = { s with draws := ds, trace := .sample i d s.time :: s.trace }) ∧
    (s.draws = [] →
      sample i s = { s with freeIdx := s.freeIdx + 1, trace := .sample i (nextBit s) s.time :: s.trace }))

/-- The phase hold (R93, R176). Before PHASE_MIN_US ticks have passed since the last drive no line step is taken, of a
host job or of a round: that step changes nothing (notes/assumptions/5.md). All else is taken then: the commit of a
host job or of a round, the finish of a host job, the grant of a host job or of a round, a turn. The positions of a
line step are all but the commit and the finish. Which step comes next is read off the schedule, the model's own
(notes/assumptions/3.md). -/
def Obligations.PhaseHold : Prop :=
  (∀ p : Pos, p.isLine = false ↔ (∃ rc r, p = .finish rc r) ∨ (∃ ok bytes, p = .refresh ok (.commit bytes))) ∧
  (∀ s : State, (s.time - s.seqLastT).toNat < s.params.phaseMinUs →
    (s.busy = true → ∀ c : Instr, cmdClass c = .sequenced →
      (∀ p, s.seq = .hostRun p → p.isLine = true → exec c s = .next s) ∧
      (∀ rc r, s.seq = .hostRun (.finish rc r) →
        ∃ t, exec c s = .next t ∧ t.busy = false ∧ t.seq = .idle ∧ t.rc = rc ∧ t.result = r.getD s.result) ∧
      (∀ i ok bytes, s.seq = .hostRun (.refresh ok (.commit bytes)) →
        c = .refi i ∨ c = .ref i ∨ (∃ n, c = .mcons i n) →
          ∃ rc r, exec c s = .next { s.setInst i (withCommit (s.inst i) bytes) with seq := .hostRun (.finish rc r) }) ∧
      (s.seq = .idle → ∃ p, exec c s = .next { s with lastGrant := .host, seq := .hostRun p })) ∧
    (s.busy = true → ∀ c : Instr, cmdClass c = .registry → s.seq = .idle →
      ∃ t, exec c s = .next t ∧ t.busy = false ∧ t.seq = .idle ∧ t.rc = .ok) ∧
    (∀ rest : List Action, s.script = .seq :: rest →
      (∀ p, s.seq = .round (some p) → (∀ bytes, p ≠ .commit bytes) → step s = .next { s with script := rest }) ∧
      (∀ j bytes, s.seq = .round (some (.commit bytes)) → s.regOrder[s.roundPos]? = some j →
        step s = .next { s.setInst j (withCommit (s.inst j) bytes) with
          script := rest, roundPos := s.roundPos + 1, seq := .round none }) ∧
      (s.seq = .idle → s.roundPending = true → s.busy = false ∨ s.lastGrant = .host →
        ∃ t, step s = .next t ∧ t.seq = .round none ∧ t.roundPending = false) ∧
      (s.seq = .round none →
        ∃ t, step s = .next t ∧ (t.seq = .idle ∨ t.roundPos = s.roundPos + 1 ∨ t.seq = .round (some (.out .ldLo))))))

/-! ### Commands of class S, step by step -/

/-- TRESET (R97) with RESET (R96): issue, grant, every line step, finish. -/
def Obligations.TresetRule : Prop :=
  (∀ w : Word, w.extractLsb' 0 5 = 0x01 → decode w = .ok (.treset (w.extractLsb' 5 3) (w.extractLsb' 16 16))) ∧
  (∀ (i : InstId) (imm : BitVec 16),
    Issues (.treset i imm) i none True ∧ GrantedAt (.treset i imm) (.reset .trigX) ∧
    RunsReset (.treset i imm) i (if imm = 0 then 5000 else imm.setWidth 32) id
      (fun ok => .finish (if ok then .ok else .timeout) (some (if ok then 1 else 0))) ∧
    FinishesWith (.treset i imm) id)

/-- TANALOG (R104) and TANALOG8 (R105) with ANALOG (R100): issue, grant, every line step, finish. TANALOG8 has the
timeout 2550 and returns a tenth of the duration, rounded down. -/
def Obligations.AnalogRules : Prop :=
  (∀ w : Word,
    (w.extractLsb' 0 5 = 0x05 →
      decode w = .ok (.tanalog (w.extractLsb' 5 3) (w.getLsbD 15) (w.extractLsb' 16 16))) ∧
    (w.extractLsb' 0 5 = 0x06 → decode w = .ok (.tanalog8 (w.extractLsb' 5 3) (w.getLsbD 15)))) ∧
  (∀ (i : InstId) (a : Bool) (imm : BitVec 16),
    (Issues (.tanalog i a imm) i none True ∧ GrantedAt (.tanalog i a imm) (.analog .trigLo) ∧
      RunsAnalog (.tanalog i a imm) i (if a then .trigY else .trigX) (if imm = 0 then 3000 else imm.setWidth 32)
        (fun d rc => .finish rc (some d)) ∧
      FinishesWith (.tanalog i a imm) id) ∧
    (Issues (.tanalog8 i a) i none True ∧ GrantedAt (.tanalog8 i a) (.analog .trigLo) ∧
      RunsAnalog (.tanalog8 i a) i (if a then .trigY else .trigX) 2550 (fun d rc => .finish rc (some (d / 10))) ∧
      FinishesWith (.tanalog8 i a) id))

/-- TWRITE (R101) with WRITEOUT (R98): issue, grant, every line step, finish. The bytes are the lowest `n` lanes of the
DATA that JOB captured, the farthest board's first. -/
def Obligations.TwriteRule : Prop :=
  (∀ w : Word, w.extractLsb' 0 5 = 0x02 → decode w = .ok (.twrite (w.extractLsb' 5 3) (w.extractLsb' 8 3))) ∧
  (∀ (i : InstId) (n : BitVec 3),
    Issues (.twrite i n) i none (1 ≤ n.toNat ∧ n.toNat ≤ 4) ∧ GrantedAt (.twrite i n) (.write .ldLo) ∧
    RunsWriteOut (.twrite i n) i
      (fun s => boardsFarthestFirst n.toNat (fun b => s.jobData.extractLsb' (8 * b) 8)) .write (.finish .ok none) ∧
    FinishesWith (.twrite i n) id)

/-- TWRZERO (R102) with WRITEOUT in reset mode (R98): four zero bytes, whatever the count. -/
def Obligations.TwrzeroRule : Prop :=
  (∀ w : Word, w.extractLsb' 0 5 = 0x03 → decode w = .ok (.twrzero (w.extractLsb' 5 3))) ∧
  (∀ i : InstId,
    Issues (.twrzero i) i none True ∧ GrantedAt (.twrzero i) (.zero true .ldLo) ∧
    RunsWriteOut (.twrzero i) i (fun _ => [0, 0, 0, 0]) (.zero true) (.finish .ok none) ∧
    FinishesWith (.twrzero i) id)

/-- TREAD (R103) with READIN (R99): issue, grant, every line step, finish with the bytes in their lanes and 0 in the
lanes above. -/
def Obligations.TreadRule : Prop :=
  (∀ w : Word, w.extractLsb' 0 5 = 0x04 → decode w = .ok (.tread (w.extractLsb' 5 3) (w.extractLsb' 8 3))) ∧
  (∀ (i : InstId) (n : BitVec 3),
    Issues (.tread i n) i none (1 ≤ n.toNat ∧ n.toNat ≤ 4) ∧ GrantedAt (.tread i n) (.read .ldHi) ∧
    RunsReadIn (.tread i n) i (fun _ => n.toNat) .read
      (fun bytes => .finish .ok (some (bytes.getD 3 0 ++ bytes.getD 2 0 ++ bytes.getD 1 0 ++ bytes.getD 0 0))) ∧
    FinishesWith (.tread i n) id)

/-- REFO, REFI and REF (R144, R145, R146) with the refresh programs (R141, R142, R143): issue, grant, every line step,
the commit, finish. -/
def Obligations.RefreshRules : Prop :=
  (∀ w : Word,
    (w.extractLsb' 0 5 = 0x18 → decode w = .ok (.refo (w.extractLsb' 5 3))) ∧
    (w.extractLsb' 0 5 = 0x19 → decode w = .ok (.refi (w.extractLsb' 5 3))) ∧
    (w.extractLsb' 0 5 = 0x1A → decode w = .ok (.ref (w.extractLsb' 5 3)))) ∧
  (∀ i : InstId,
    (Issues (.refo i) i (some true) True ∧ GrantedAt (.refo i) (.refresh true (.out .ldLo)) ∧
      RunsWriteOut (.refo i) i (outputsOf i) (fun q => .refresh true (.out q)) (.finish .ok none) ∧
      FinishesWith (.refo i) id) ∧
    (Issues (.refi i) i (some true) True ∧ GrantedAt (.refi i) (.refresh true (.inp .ldHi)) ∧
      RunsReadIn (.refi i) i (fun s => (s.inst i).bc.toNat) (fun q => .refresh true (.inp q))
        (fun bytes => .refresh true (.commit bytes)) ∧
      RunsCommit (.refi i) i (fun bytes => .refresh true (.commit bytes)) (.finish .ok none) ∧
      FinishesWith (.refi i) id) ∧
    (Issues (.ref i) i (some true) True ∧ GrantedAt (.ref i) (.refresh true (.out .ldLo)) ∧
      RunsWriteOut (.ref i) i (outputsOf i) (fun q => .refresh true (.out q)) (.refresh true (.inp .ldHi)) ∧
      RunsReadIn (.ref i) i (fun s => (s.inst i).bc.toNat) (fun q => .refresh true (.inp q))
        (fun bytes => .refresh true (.commit bytes)) ∧
      RunsCommit (.ref i) i (fun bytes => .refresh true (.commit bytes)) (.finish .ok none) ∧
      FinishesWith (.ref i) id))

/-- MCONS (R147): issue, grant; init in the same step as RESET step 1, RESET with 5000, WRITEOUT in reset mode,
REFRESH, and the finish with the `ok` of the RESET, which marks the instance constructed in both cases. -/
def Obligations.MconsRule : Prop :=
  (∀ w : Word, w.extractLsb' 0 5 = 0x08 → decode w = .ok (.mcons (w.extractLsb' 5 3) (w.extractLsb' 8 3))) ∧
  (∀ (i : InstId) (n : BitVec 3),
    Issues (.mcons i n) i (some false) (n.toNat ≤ 4) ∧ GrantedAt (.mcons i n) (.reset .trigX) ∧
    RunsReset (.mcons i n) i 5000
      (fun s => s.setInst i { s.inst i with
        bc := if n = 0 then 1 else n, out := #v[0, 0, 0, 0], inp := #v[0, 0, 0, 0], prev := #v[0, 0, 0, 0] })
      (fun ok => .zero ok .ldLo) ∧
    (∀ ok : Bool,
      RunsWriteOut (.mcons i n) i (fun _ => [0, 0, 0, 0]) (.zero ok) (.refresh ok (.out .ldLo)) ∧
      RunsWriteOut (.mcons i n) i (outputsOf i) (fun q => .refresh ok (.out q)) (.refresh ok (.inp .ldHi)) ∧
      RunsReadIn (.mcons i n) i (fun s => (s.inst i).bc.toNat) (fun q => .refresh ok (.inp q))
        (fun bytes => .refresh ok (.commit bytes)) ∧
      RunsCommit (.mcons i n) i (fun bytes => .refresh ok (.commit bytes))
        (.finish (if ok then .ok else .timeout) (some (if ok then 1 else 0)))) ∧
    FinishesWith (.mcons i n) (fun s => s.setInst i { s.inst i with cons := true }))

/-- The commit (R142): for every board whose byte was read, PREV takes what IN held and IN the byte; every other byte
of IN and PREV, and everything else of the instance, is unchanged. -/
def Obligations.CommitRule : Prop :=
  ∀ (x : Instance) (bytes : List Byte), bytes.length ≤ 4 →
    (∀ b : Nat, b < bytes.length →
      bankGet (withCommit x bytes).prev b = bankGet x.inp b ∧ bytes[b]? = some (bankGet (withCommit x bytes).inp b)) ∧
    (∀ b : Nat, bytes.length ≤ b →
      bankGet (withCommit x bytes).prev b = bankGet x.prev b ∧ bankGet (withCommit x bytes).inp b = bankGet x.inp b) ∧
    (withCommit x bytes).lines = x.lines ∧ (withCommit x bytes).cons = x.cons ∧ (withCommit x bytes).bc = x.bc ∧
    (withCommit x bytes).out = x.out ∧ (withCommit x bytes).mute = x.mute

/-- Bounds of the returned values (R107): a step of TRESET, TANALOG or TANALOG8 that leads to the finish brings it 0 or
1, a duration of at most T (below T exactly when OK, T exactly on TIMEOUT), or at most 255 (below 255 exactly when OK).
-/
def Obligations.ResultBounds : Prop :=
  ∀ (i : InstId) (a : Bool) (imm : BitVec 16) (s t : State) (p : Pos) (rc : ResultCode) (d : Word),
    s.busy = true → s.seq = .hostRun p → (∀ rc' r', p ≠ .finish rc' r') → t.seq = .hostRun (.finish rc (some d)) →
      (exec (.treset i imm) s = .next t → (d = 0 ∧ rc = .timeout) ∨ (d = 1 ∧ rc = .ok)) ∧
      (exec (.tanalog i a imm) s = .next t →
        (d < (if imm = 0 then 3000 else imm.setWidth 32) ∧ rc = .ok) ∨
          (d = (if imm = 0 then 3000 else imm.setWidth 32) ∧ rc = .timeout)) ∧
      (exec (.tanalog8 i a) s = .next t → (d < 255 ∧ rc = .ok) ∨ (d = 255 ∧ rc = .timeout))

/-! ### Commands of class S, from grant to finish -/

/-- TWRITE runs to its end (R101, R98, R215): with no phase hold and the port's lines idle, `24 n + 6` consecutive
steps of it (the grant, `24 n + 4` drives, the finish) record exactly the drives of WRITEOUT for the `n` lowest lanes
of the captured DATA, farthest board first, and leave the lines idle, RC = OK, RESULT unchanged and BUSY = 0. That the
steps follow each other at once is the premise of `runCommand` (notes/assumptions/6.md), and the answers are the
model's own list (notes/assumptions/4.md). -/
def Obligations.TwriteRun : Prop :=
  ∀ (i : InstId) (n : BitVec 3) (s : State), 1 ≤ n.toNat → n.toNat ≤ 4 →
    s.busy = true → s.seq = .idle → s.params.phaseMinUs = 0 → (s.inst i).lines = Lines.idle →
      runCommand (.twrite i n) (24 * n.toNat + 6) s = .next { s with
        lastGrant := .host, rc := .ok, busy := false, seqLastT := s.time
        trace := (writeEvents i s.time
          (boardsFarthestFirst n.toNat (fun b => s.jobData.extractLsb' (8 * b) 8))).reverse ++ s.trace }

/-- TWRZERO runs to its end (R102, R98, R215): 102 steps, and the drives of WRITEOUT for four zero bytes. That the
steps follow each other at once is the premise of `runCommand` (notes/assumptions/6.md), and the answers are the
model's own list (notes/assumptions/4.md). -/
def Obligations.TwrzeroRun : Prop :=
  ∀ (i : InstId) (s : State),
    s.busy = true → s.seq = .idle → s.params.phaseMinUs = 0 → (s.inst i).lines = Lines.idle →
      runCommand (.twrzero i) 102 s = .next { s with
        lastGrant := .host, rc := .ok, busy := false, seqLastT := s.time
        trace := (writeEvents i s.time [0, 0, 0, 0]).reverse ++ s.trace }

/-- TREAD runs to its end (R103, R99, R215): where the line answers with the inverted bits of `n` bytes, RESULT takes
these bytes in their lanes. That the steps follow each other at once is the premise of `runCommand`
(notes/assumptions/6.md), and the answers are the model's own list (notes/assumptions/4.md). -/
def Obligations.TreadRun : Prop :=
  ∀ (i : InstId) (n : BitVec 3) (bytes : List Byte) (rest : List Bool) (s : State),
    1 ≤ n.toNat → n.toNat ≤ 4 → bytes.length = n.toNat → s.draws = answersFor bytes ++ rest →
    s.busy = true → s.seq = .idle → s.params.phaseMinUs = 0 → (s.inst i).lines = Lines.idle →
      runCommand (.tread i n) (24 * n.toNat + 6) s = .next { s with
        lastGrant := .host, rc := .ok, busy := false, seqLastT := s.time, draws := rest
        result := bytes.getD 3 0 ++ bytes.getD 2 0 ++ bytes.getD 1 0 ++ bytes.getD 0 0
        trace := (readEvents i s.time bytes).reverse ++ s.trace }

/-- REFO, REFI and REF run to their end (R144 to R146, R215): REFO makes the drives of WRITEOUT for the bytes of OUT in
use; where the line answers with the inverted bits of as many bytes as boards, REFI commits them; REF does the one and
then the other. RESULT is unchanged. That the steps follow each other at once is the premise of `runCommand`
(notes/assumptions/6.md), and the answers are the model's own list (notes/assumptions/4.md). -/
def Obligations.RefreshRuns : Prop :=
  ∀ (i : InstId) (s : State), 1 ≤ (s.inst i).bc.toNat → (s.inst i).bc.toNat ≤ 4 →
    s.busy = true → s.seq = .idle → s.params.phaseMinUs = 0 → (s.inst i).lines = Lines.idle →
      runCommand (.refo i) (24 * (s.inst i).bc.toNat + 6) s = .next { s with
        lastGrant := .host, rc := .ok, busy := false, seqLastT := s.time
        trace := (writeEvents i s.time (outputsOf i s)).reverse ++ s.trace } ∧
      (∀ (bytes : List Byte) (rest : List Bool),
        bytes.length = (s.inst i).bc.toNat → s.draws = answersFor bytes ++ rest →
          runCommand (.refi i) (24 * (s.inst i).bc.toNat + 7) s = .next {
            s.setInst i (withCommit (s.inst i) bytes) with
            lastGrant := .host, rc := .ok, busy := false, seqLastT := s.time, draws := rest
            trace := (readEvents i s.time bytes).reverse ++ s.trace } ∧
          runCommand (.ref i) (48 * (s.inst i).bc.toNat + 11) s = .next {
            s.setInst i (withCommit (s.inst i) bytes) with
            lastGrant := .host, rc := .ok, busy := false, seqLastT := s.time, draws := rest
            trace := (writeEvents i s.time (outputsOf i s) ++ readEvents i s.time bytes).reverse ++ s.trace })

/-- TRESET runs to its end where the line reads 0 at `k` polls and then 1, with no tick between (R96, R97, R215): `k`
clock pulses, RC = OK, RESULT = 1. That the steps follow each other at once is the premise of `runCommand`
(notes/assumptions/6.md), and the answers are the model's own list (notes/assumptions/4.md). -/
def Obligations.TresetRun : Prop :=
  ∀ (i : InstId) (imm : BitVec 16) (k : Nat) (rest : List Bool) (s : State),
    s.draws = List.replicate k false ++ true :: rest →
    s.busy = true → s.seq = .idle → s.params.phaseMinUs = 0 → (s.inst i).lines = Lines.idle →
      runCommand (.treset i imm) (3 * k + 5) s = .next { s with
        lastGrant := .host, rc := .ok, result := 1, busy := false, seqLastT := s.time, draws := rest
        trace := ([Event.drive i .trigX true s.time, .drive i .trigY true s.time] ++
          (List.replicate k [Event.sample i false s.time, .drive i .clk false s.time, .drive i .clk true s.time]).flatten ++
          [Event.sample i true s.time]).reverse ++ s.trace }

/-- TANALOG and TANALOG8 run to their end where the line reads 0 at `k` polls and then 1, with no tick between (R100,
R104, R105): the trigger pulse, RC = OK and the duration 0. That the steps follow each other at once is the premise of
`runCommand` (notes/assumptions/6.md), and the answers are the model's own list (notes/assumptions/4.md). -/
def Obligations.AnalogRuns : Prop :=
  ∀ (i : InstId) (a : Bool) (imm : BitVec 16) (k : Nat) (rest : List Bool) (s : State),
    s.draws = List.replicate k false ++ true :: rest →
    s.busy = true → s.seq = .idle → s.params.phaseMinUs = 0 → (s.inst i).lines = Lines.idle →
      runCommand (.tanalog i a imm) (k + 5) s = .next { s with
        lastGrant := .host, rc := .ok, result := 0, busy := false, seqLastT := s.time, draws := rest
        trace := ([Event.drive i (if a then .trigY else .trigX) false s.time,
          .drive i (if a then .trigY else .trigX) true s.time] ++
          List.replicate k (Event.sample i false s.time) ++ [Event.sample i true s.time]).reverse ++ s.trace } ∧
      runCommand (.tanalog8 i a) (k + 5) s = .next { s with
        lastGrant := .host, rc := .ok, result := 0, busy := false, seqLastT := s.time, draws := rest
        trace := ([Event.drive i (if a then .trigY else .trigX) false s.time,
          .drive i (if a then .trigY else .trigX) true s.time] ++
          List.replicate k (Event.sample i false s.time) ++ [Event.sample i true s.time]).reverse ++ s.trace }

/-- MCONS runs to its end where the line reads 1 at the first poll and then answers with the inverted bits of `n` bytes
(R147, R215): the instance is constructed with the count, OUT and PREV zero and IN the bytes read; RC = OK, RESULT = 1.
That the steps follow each other at once is the premise of `runCommand` (notes/assumptions/6.md), and the answers are
the model's own list (notes/assumptions/4.md). -/
def Obligations.MconsRun : Prop :=
  ∀ (i : InstId) (n : BitVec 3) (bytes : List Byte) (rest : List Bool) (s : State),
    1 ≤ n.toNat → n.toNat ≤ 4 → bytes.length = n.toNat → s.draws = true :: (answersFor bytes ++ rest) →
    s.busy = true → s.seq = .idle → s.params.phaseMinUs = 0 → (s.inst i).lines = Lines.idle →
      runCommand (.mcons i n) (48 * n.toNat + 114) s = .next {
        s.setInst i { s.inst i with
          cons := true, bc := n, out := #v[0, 0, 0, 0], prev := #v[0, 0, 0, 0]
          inp := #v[bytes.getD 0 0, bytes.getD 1 0, bytes.getD 2 0, bytes.getD 3 0] } with
        lastGrant := .host, rc := .ok, result := 1, busy := false, seqLastT := s.time, draws := rest
        trace := ([Event.drive i .trigX true s.time, .drive i .trigY true s.time, .sample i true s.time] ++
          writeEvents i s.time [0, 0, 0, 0] ++ writeEvents i s.time (List.replicate n.toNat 0) ++
          readEvents i s.time bytes).reverse ++ s.trace }

/-! ### Frames over all states -/

/-- A transport command, at whatever stage of it (R90). It writes no CONS, BC, OUT, IN, PREV or MUTE of any instance, no
line of another port, no registry, timer or round state, no CMDREG, DATA or sticky flag, and not TIME; RC it writes only
by the rejection at its issue or by its finish, RESULT only by its finish. And it reads no CONS, BC, cache, MUTE or
registry: on two states that differ in nothing but these its step does the same, the states it leaves differing again in
nothing but these, each of them as before. -/
def Obligations.TransportFrame : Prop :=
  ∀ (c : Instr) (i : InstId),
    ((∃ imm, c = .treset i imm) ∨ (∃ n, c = .twrite i n) ∨ c = .twrzero i ∨ (∃ n, c = .tread i n) ∨
      (∃ a imm, c = .tanalog i a imm) ∨ (∃ a, c = .tanalog8 i a)) →
    (∀ s t : State, exec c s = .next t →
      SameShared s t ∧ SameButLines (s.inst i) (t.inst i) ∧ (∀ j, j ≠ i → t.inst j = s.inst j) ∧
      (t.rc ≠ s.rc → (s.busy = false ∧ t.busy = false) ∨ ∃ r, s.seq = .hostRun (.finish t.rc r)) ∧
      (t.result ≠ s.result → ∃ rc, s.seq = .hostRun (.finish rc (some t.result)))) ∧
    (∀ (s t : State) (insts : Vector Instance 8) (order : List InstId),
      (∀ j : InstId, (insts[j.toNat]'j.isLt).lines = (s.inst j).lines) → exec c s = .next t →
        exec c { s with insts := insts, regOrder := order } = .next { t with
          insts := insts.set i.toNat { insts[i.toNat]'i.isLt with lines := (t.inst i).lines } i.isLt
          regOrder := order })

/-- No line changes level except by a drive (R92): where a step changes the level of a line, it is a drive of that
line, and its event is the newest one. Reset alone is exempt (R200). Which step comes next is read off the schedule,
the model's own (notes/assumptions/3.md). -/
def Obligations.OnlyDrivesChangeLines : Prop :=
  ∀ (s t : State) (i : InstId) (r : Role), step s = .next t → nextAction s ≠ .reset →
    (t.inst i).lines.get r ≠ (s.inst i).lines.get r →
      t.trace = .drive i r ((t.inst i).lines.get r) s.time :: s.trace

/-- Which program drives which line (R106): a step of a host job that changes a line is a step of RESET on TRIGX, TRIGY
or CLK, of WRITEOUT on LDOUT, CLK or DOUT, of READIN on LDIN or CLK, or of ANALOG on TRIGX or TRIGY. -/
def Obligations.LineOwners : Prop :=
  ∀ (c : Instr) (s t : State) (i : InstId) (r : Role), exec c s = .next t →
    (t.inst i).lines.get r ≠ (s.inst i).lines.get r →
      ∃ p, s.seq = .hostRun p ∧
        (((∃ q, p = .reset q) ∧ r ∈ [Role.trigX, .trigY, .clk]) ∨
          (((∃ ok q, p = .zero ok q) ∨ (∃ q, p = .write q) ∨ (∃ ok q, p = .refresh ok (.out q))) ∧
            r ∈ [Role.ldOut, .clk, .dOut]) ∨
          (((∃ q, p = .read q) ∨ (∃ ok q, p = .refresh ok (.inp q))) ∧ r ∈ [Role.ldIn, .clk]) ∨
          ((∃ q, p = .analog q) ∧ r ∈ [Role.trigX, .trigY]))

/-- Who writes the output cache and the mute flag (R35, R38): where a step other than a reset changes OUT or MUTE of an
instance, it is the issue of a SETOB or SETOM (of an MMUTE) of that instance, or a step of its MCONS (OUT only) or its
MDESTROY. Which step comes next is read off the schedule, the model's own (notes/assumptions/3.md). -/
def Obligations.OutputCacheOwners : Prop :=
  ∀ (s t : State) (i : InstId), step s = .next t → nextAction s ≠ .reset →
    ((t.inst i).out ≠ (s.inst i).out →
      (∃ w, nextAction s = .regWrite 0 w ∧ s.busy = false ∧
        ((∃ b c v, decode w = .ok (.setob i b c v)) ∨ (∃ b S R, decode w = .ok (.setom i b S R)))) ∨
      (nextAction s = .seq ∧ s.busy = true ∧
        ((∃ n, decode s.jobWord = .ok (.mcons i n)) ∨ decode s.jobWord = .ok (.mdestroy i)))) ∧
    ((t.inst i).mute ≠ (s.inst i).mute →
      (∃ w v, nextAction s = .regWrite 0 w ∧ s.busy = false ∧ decode w = .ok (.mmute i v)) ∨
      (nextAction s = .seq ∧ s.busy = true ∧ decode s.jobWord = .ok (.mdestroy i)))

/-- Who writes the input caches (R36, R37): where a step other than a reset changes IN or PREV of an instance, it is
the commit of a refresh of that instance, in a host job or in a round, or a step of its MCONS or MDESTROY. Which step
comes next is read off the schedule, the model's own (notes/assumptions/3.md). -/
def Obligations.InputCacheOwners : Prop :=
  ∀ (s t : State) (i : InstId), step s = .next t → nextAction s ≠ .reset →
    (t.inst i).inp ≠ (s.inst i).inp ∨ (t.inst i).prev ≠ (s.inst i).prev →
      nextAction s = .seq ∧
        ((s.busy = true ∧ ((∃ n, decode s.jobWord = .ok (.mcons i n)) ∨ decode s.jobWord = .ok (.mdestroy i))) ∨
          (s.busy = true ∧ (∃ ok bytes, s.seq = .hostRun (.refresh ok (.commit bytes))) ∧
            (decode s.jobWord = .ok (.refi i) ∨ decode s.jobWord = .ok (.ref i))) ∨
          ((∃ bytes, s.seq = .round (some (.commit bytes))) ∧ s.regOrder[s.roundPos]? = some i))

/-- Who writes BC and CONS (R33, R34): where a step other than a reset changes BC (CONS) of an instance, it is a step
of its MCONS, MSETCNT or MDESTROY (of its MCONS or MDESTROY). Which step comes next is read off the schedule, the
model's own (notes/assumptions/3.md). -/
def Obligations.ConstructionOwners : Prop :=
  ∀ (s t : State) (i : InstId), step s = .next t → nextAction s ≠ .reset →
    ((t.inst i).bc ≠ (s.inst i).bc →
      nextAction s = .seq ∧ s.busy = true ∧
        ((∃ n, decode s.jobWord = .ok (.mcons i n)) ∨ (∃ n, decode s.jobWord = .ok (.msetcnt i n)) ∨
          decode s.jobWord = .ok (.mdestroy i))) ∧
    ((t.inst i).cons ≠ (s.inst i).cons →
      nextAction s = .seq ∧ s.busy = true ∧
        ((∃ n, decode s.jobWord = .ok (.mcons i n)) ∨ decode s.jobWord = .ok (.mdestroy i)))

/-! ### Timebase, arbiter, rounds -/

/-- A TB step (R178) with the periodic tick (R180): TIME goes up by one modulo 2^32; while attached TMR_COUNT goes up,
and when it then reaches the period it goes to 0 and the tick sets ROUND_PENDING, or TICKLOST if that is already set;
nothing else changes. Which step comes next is read off the schedule, the model's own (notes/assumptions/3.md). -/
def Obligations.TbRule : Prop :=
  ∀ (s : State) (rest : List Action), s.script = .tb :: rest →
    (s.tmrAttached = false → step s = .next { s with script := rest, time := s.time + 1 }) ∧
    (s.tmrAttached = true → s.tmrCount.toNat + 1 < s.tmrPeriod.toNat →
      step s = .next { s with script := rest, time := s.time + 1, tmrCount := s.tmrCount + 1 }) ∧
    (s.tmrAttached = true → s.tmrPeriod.toNat ≤ s.tmrCount.toNat + 1 → s.roundPending = false →
      step s = .next { s with script := rest, time := s.time + 1, tmrCount := 0, roundPending := true }) ∧
    (s.tmrAttached = true → s.tmrPeriod.toNat ≤ s.tmrCount.toNat + 1 → s.roundPending = true →
      step s = .next { s with script := rest, time := s.time + 1, tmrCount := 0, tickLost := true })

/-- The arbiter (R181) and its grants (R176): a waiting round goes first unless a host job waits and the last grant was
a round; the grant of a round writes the round state and nothing else; the grant of a host job is `exec` of its
command; when nothing waits nothing is enabled, and a SEQ step that the schedule takes all the same changes nothing
(notes/assumptions/5.md). Which step comes next is read off the schedule, the model's own (notes/assumptions/3.md). -/
def Obligations.ArbiterRule : Prop :=
  ∀ (s : State) (rest : List Action), s.script = .seq :: rest → s.seq = .idle →
    (s.roundPending = true → s.busy = false ∨ s.lastGrant = .host →
      step s = .next { s with
        script := rest, roundPending := false, roundActive := true, roundPos := 0, lastGrant := .round
        seq := .round none }) ∧
    (s.busy = true → s.roundPending = false ∨ s.lastGrant = .round →
      ∀ c, decode s.jobWord = .ok c → cmdClass c ≠ .cache → step s = exec c { s with script := rest }) ∧
    (s.roundPending = false → s.busy = false → step s = .next { s with script := rest })

/-- A turn of a round (R182) and the end of a round (R185): the end when every position has had its turn, a skip when
the instance is muted, else step 1 of its refresh; nothing else changes. Which step comes next is read off the
schedule, the model's own (notes/assumptions/3.md). -/
def Obligations.TurnRule : Prop :=
  ∀ (s : State) (rest : List Action), s.script = .seq :: rest → s.seq = .round none →
    (s.regOrder.length ≤ s.roundPos →
      step s = .next { s with script := rest, roundActive := false, seq := .idle }) ∧
    (∀ j, s.regOrder[s.roundPos]? = some j →
      ((s.inst j).mute = true → step s = .next { s with script := rest, roundPos := s.roundPos + 1 }) ∧
      ((s.inst j).mute = false → step s = .next { s with script := rest, seq := .round (some (.out .ldLo)) }))

/-- Inside a turn (R176, R182) the round takes, with the phase hold met, exactly the line steps a REF of the instance
takes at the same position; its commit, whether the hold is met or not, is that of a refresh of the instance and also
ends the turn. Which step comes next is read off the schedule, the model's own (notes/assumptions/3.md). -/
def Obligations.RoundRefreshes : Prop :=
  ∀ (s : State) (rest : List Action) (p : RefreshPos) (j : InstId),
    s.script = .seq :: rest → s.seq = .round (some p) → s.regOrder[s.roundPos]? = some j →
      (s.params.phaseMinUs ≤ (s.time - s.seqLastT).toNat → ∀ (t : State) (q : RefreshPos),
        exec (.ref j) { s with script := rest, busy := true, seq := .hostRun (.refresh true p) } =
          .next { t with seq := .hostRun (.refresh true q) } →
        step s = .next { t with busy := s.busy, seq := .round (some q) }) ∧
      (∀ bytes, p = .commit bytes →
        step s = .next { s.setInst j (withCommit (s.inst j) bytes) with
          script := rest, roundPos := s.roundPos + 1, seq := .round none })

/-- What a round writes (R186): a SEQ step of a running round leaves RC, RESULT, BUSY, JOB, the host's registers, the
sticky flags, TIME and the timer, the registry and the pending bit unchanged, and every instance's CONS, BC, OUT and
MUTE; and it touches at most the lines, IN and PREV of one member of the registry. Which step comes next is read off
the schedule, the model's own (notes/assumptions/3.md). -/
def Obligations.RoundFrame : Prop :=
  ∀ (s t : State) (p : Option RefreshPos), s.seq = .round p → nextAction s = .seq → step s = .next t →
    t.rc = s.rc ∧ t.result = s.result ∧ t.busy = s.busy ∧ t.jobWord = s.jobWord ∧ t.jobData = s.jobData ∧
    t.params = s.params ∧ t.cmdReg = s.cmdReg ∧ t.data = s.data ∧ t.overrun = s.overrun ∧ t.tickLost = s.tickLost ∧
    t.time = s.time ∧ t.tmrAttached = s.tmrAttached ∧ t.tmrPeriod = s.tmrPeriod ∧ t.tmrCount = s.tmrCount ∧
    t.roundPending = s.roundPending ∧ t.lastGrant = s.lastGrant ∧ t.regOrder = s.regOrder ∧
    (∀ i, (t.inst i).cons = (s.inst i).cons ∧ (t.inst i).bc = (s.inst i).bc ∧ (t.inst i).out = (s.inst i).out ∧
      (t.inst i).mute = (s.inst i).mute) ∧
    (∀ i, s.regOrder[s.roundPos]? ≠ some i → t.inst i = s.inst i)

/-- No preemption (R184): a step other than a reset takes a running host job to a further position of it or to its
finish, and a running round to a further step of it or to its end; nothing else is granted in between. Which step comes
next is read off the schedule, the model's own (notes/assumptions/3.md). -/
def Obligations.NoPreemption : Prop :=
  ∀ s t : State, step s = .next t → nextAction s ≠ .reset →
    (∀ p, s.seq = .hostRun p →
      (∃ q, t.seq = .hostRun q) ∨ ((∃ rc r, p = .finish rc r) ∧ t.seq = .idle ∧ t.busy = false)) ∧
    (∀ p, s.seq = .round p →
      (∃ q, t.seq = .round q) ∨ (p = none ∧ t.seq = .idle ∧ t.roundActive = false))

/-! ### The register port -/

/-- A read (R52, R53, R55): the value of the register at the slot, and no side effect; the event is the observation.
The byte offset `4 A + k`, for `k` in 0 to 3, is the access at word index `A` (R58). Which step comes next is read off
the schedule, the model's own (notes/assumptions/3.md). -/
def Obligations.ReadRule : Prop :=
  (∀ (a : BitVec 4) (k : BitVec 2), slotOf (a ++ k) = a) ∧
  ∀ (s : State) (rest : List Action) (a : BitVec 4), s.script = .regRead a :: rest →
    ∃ v, step s = .next { s with script := rest, trace := .regRead a v :: s.trace } ∧
      (a = 0x0 → v = s.cmdReg) ∧ (a = 0x1 → v = s.data) ∧ (a = 0x2 → v = statusWord s) ∧ (a = 0x3 → v = s.result) ∧
      (a = 0x4 → v = s.time) ∧ (a = 0x5 → v = registryWord s) ∧ (a = 0x6 → v = instStateWord s) ∧
      (a = 0x7 → v = timerWord s) ∧ (a = 0x8 → v = bcountWord s) ∧ (0x9 ≤ a → v = 0)

/-- A write (R52, R54, R55) other than to CMD: DATA takes the value; STATUS clears the sticky flags whose bit is 1; a
read-only or reserved slot changes nothing. Which step comes next is read off the schedule, the model's own
(notes/assumptions/3.md). -/
def Obligations.WriteRule : Prop :=
  ∀ (s : State) (rest : List Action) (a : BitVec 4) (v : Word), s.script = .regWrite a v :: rest →
    (a = 0x1 → step s = .next { s with script := rest, data := v }) ∧
    (a = 0x2 → step s = .next { s with
      script := rest
      overrun := if v.getLsbD 16 then false else s.overrun
      tickLost := if v.getLsbD 17 then false else s.tickLost }) ∧
    (0x3 ≤ a → step s = .next { s with script := rest })

/-- The layout of STATUS (R44), bit by bit. -/
def Obligations.StatusLayout : Prop :=
  ∀ s : State,
    (statusWord s).getLsbD 0 = s.busy ∧ (statusWord s).getLsbD 1 = decide (s.seq ≠ .idle) ∧
    (statusWord s).getLsbD 2 = s.roundActive ∧ (statusWord s).getLsbD 3 = s.roundPending ∧
    (statusWord s).getLsbD 4 = s.tmrAttached ∧ (statusWord s).extractLsb' 5 3 = 0 ∧
    (statusWord s).extractLsb' 8 4 =
      (match s.rc with | .ok => 0#4 | .timeout => 1 | .badArg => 2 | .badState => 3 | .badOpcode => 4) ∧
    (statusWord s).extractLsb' 12 4 = 0 ∧ (statusWord s).getLsbD 16 = s.overrun ∧
    (statusWord s).getLsbD 17 = s.tickLost ∧ (statusWord s).extractLsb' 18 14 = 0

/-- The layouts of REGISTRY (R45), INSTSTATE (R46), TIMER (R47) and BCOUNT (R48). -/
def Obligations.RegisterLayouts : Prop :=
  ∀ s : State, s.regOrder.length ≤ 8 →
    (((registryWord s).extractLsb' 0 4).toNat = s.regOrder.length ∧ (registryWord s).extractLsb' 4 4 = 0 ∧
      (∀ k : Nat, k < 8 → (registryWord s).extractLsb' (3 * k + 8) 3 = s.regOrder.getD k 0)) ∧
    (∀ i : InstId,
      (instStateWord s).getLsbD i.toNat = (decide (i.toNat < s.params.ninst) && (s.inst i).cons) ∧
      (instStateWord s).getLsbD (8 + i.toNat) = (decide (i.toNat < s.params.ninst) && decide (i ∈ s.regOrder)) ∧
      (instStateWord s).getLsbD (16 + i.toNat) = (decide (i.toNat < s.params.ninst) && (s.inst i).mute)) ∧
    (instStateWord s).extractLsb' 24 8 = 0 ∧
    ((timerWord s).extractLsb' 0 16 = s.tmrPeriod ∧ (timerWord s).extractLsb' 16 16 = s.tmrCount) ∧
    (∀ i : InstId,
      (bcountWord s).extractLsb' (4 * i.toNat) 3 = (if i.toNat < s.params.ninst then (s.inst i).bc else 0) ∧
      (bcountWord s).getLsbD (4 * i.toNat + 3) = false)

/-! ### Reset, the invariant, liveness of the step -/

/-- The reset values (R49) of every piece of state the rule's table gives one; JOB, which it leaves unspecified, is not
spoken of. -/
def Obligations.ResetValues : Prop :=
  ∀ p : Params,
    let s := State.resetWith p
    s.seq = .idle ∧ s.seqLastT = 0 ∧ s.busy = false ∧ s.cmdReg = 0 ∧ s.data = 0 ∧ s.result = 0 ∧ s.rc = .ok ∧
    s.overrun = false ∧ s.tickLost = false ∧
    (∀ i : InstId, (s.inst i).lines.trigX = true ∧ (s.inst i).lines.trigY = true ∧ (s.inst i).lines.clk = true ∧
      (s.inst i).lines.dOut = false ∧ (s.inst i).lines.ldOut = false ∧ (s.inst i).lines.ldIn = false ∧
      (s.inst i).cons = false ∧ (s.inst i).bc = 1 ∧ (s.inst i).mute = false ∧
      ∀ b : Nat, bankGet (s.inst i).out b = 0 ∧ bankGet (s.inst i).inp b = 0 ∧ bankGet (s.inst i).prev b = 0) ∧
    s.regOrder = [] ∧ s.time = 0 ∧ s.tmrAttached = false ∧ s.tmrPeriod = 3000 ∧ s.tmrCount = 0 ∧
    s.roundPending = false ∧ s.roundActive = false ∧ s.roundPos = 0 ∧ s.lastGrant = .host

/-- Hardware reset (R200, R201) is one step, taken whatever the machine is doing: the state is the reset state of the
same parameters; what lies outside the block goes on. The model's own in it: JOB's value afterwards
(notes/assumptions/2.md), the answers of the environment not yet given, which stay (notes/assumptions/4.md), and the
events, of which reset records none and keeps those recorded (notes/assumptions/7.md). Which step comes next is read
off the schedule, the model's own (notes/assumptions/3.md). -/
def Obligations.HardReset : Prop :=
  ∀ (s : State) (rest : List Action), s.script = .reset :: rest →
    step s = .next { State.resetWith s.params with
      script := rest, draws := s.draws, freeIdx := s.freeIdx, trace := s.trace }

/-- The invariant holds right after reset, for all legal parameters. -/
def Obligations.InvReset : Prop := ∀ p : Params, p.legal = true → Inv (State.resetWith p)

/-- Every step of every agent keeps the invariant: board counts 1 to 4, a legal period, a registry of distinct
constructed instances, the timer attached exactly while it is not empty, a round only while attached, a job that is
still valid, the sequencer at a position of that job's program, and every line idle but those the running program has
moved (R34, R39, R41, R42, R91, R164, R172). -/
def Obligations.InvStep : Prop := ∀ s t : State, Inv s → step s = .next t → Inv t

/-- FSRC never stops. No step of any agent raises a fault (R170). And R187: in an execution that is fair (R11), in
whose states the invariant holds (InvStep), an outstanding host job finishes, a pending round is granted (or dropped,
R163, R200), and an active round ends; this where PHASE_MIN_US is at most 2^28 and SEQ steps at least once in 2^28
steps, a bound that R11 does not set and that keeps TIME from wrapping between two steps of a poll loop
(notes/assumptions/15.md). Without that bound, on R11 alone: where PHASE_MIN_US is 0, a job that makes no poll finishes
and an active round ends. A SEQ step that is not enabled, of which R11 asks nothing, changes nothing
(notes/assumptions/5.md). Executions and fairness are predicates of the model (notes/assumptions/3.md, 13.md). -/
def Obligations.NeverStops : Prop :=
  (∀ s : State, ∃ t, step s = .next t) ∧
  (∀ s : State, Inv s → seqEnabled s = false → act .seq s = .next s) ∧
  (∀ (sched : Nat → Action) (env : Nat → Bool) (run : Nat → State),
    Execution sched env run → Fair sched run → (∀ k, Inv (run k)) → ∀ k : Nat,
      (Paced sched → (run k).params.phaseMinUs ≤ 2 ^ 28 →
        ((run k).busy = true → ∃ m, k ≤ m ∧ (run m).busy = false) ∧
        ((run k).roundPending = true → ∃ m, k ≤ m ∧ (run m).roundPending = false) ∧
        ((run k).roundActive = true → ∃ m, k ≤ m ∧ (run m).roundActive = false)) ∧
      ((run k).params.phaseMinUs = 0 →
        ((run k).busy = true → (∀ c, decode (run k).jobWord = .ok c → polls c = false) →
          ∃ m, k ≤ m ∧ (run m).busy = false) ∧
        ((run k).roundActive = true → ∃ m, k ≤ m ∧ (run m).roundActive = false)))
end

