-- ==== Sys2Proof/Laws/State.lean ====
section
/-! SUPPORT. The field laws of the named updates of State: one lemma per field an update leaves unchanged, and the laws
of `inst` and `setInst`. -/

namespace Sys2Proof.Machine

/-! ### What `setInst` leaves unchanged -/

@[simp] theorem setInst_params (s : State) (i : InstId) (x : Instance) : (s.setInst i x).params = s.params := rfl
@[simp] theorem setInst_seq (s : State) (i : InstId) (x : Instance) : (s.setInst i x).seq = s.seq := rfl
@[simp] theorem setInst_seqLastT (s : State) (i : InstId) (x : Instance) : (s.setInst i x).seqLastT = s.seqLastT := rfl
@[simp] theorem setInst_busy (s : State) (i : InstId) (x : Instance) : (s.setInst i x).busy = s.busy := rfl
@[simp] theorem setInst_jobWord (s : State) (i : InstId) (x : Instance) : (s.setInst i x).jobWord = s.jobWord := rfl
@[simp] theorem setInst_jobData (s : State) (i : InstId) (x : Instance) : (s.setInst i x).jobData = s.jobData := rfl
@[simp] theorem setInst_cmdReg (s : State) (i : InstId) (x : Instance) : (s.setInst i x).cmdReg = s.cmdReg := rfl
@[simp] theorem setInst_data (s : State) (i : InstId) (x : Instance) : (s.setInst i x).data = s.data := rfl
@[simp] theorem setInst_result (s : State) (i : InstId) (x : Instance) : (s.setInst i x).result = s.result := rfl
@[simp] theorem setInst_rc (s : State) (i : InstId) (x : Instance) : (s.setInst i x).rc = s.rc := rfl
@[simp] theorem setInst_overrun (s : State) (i : InstId) (x : Instance) : (s.setInst i x).overrun = s.overrun := rfl
@[simp] theorem setInst_tickLost (s : State) (i : InstId) (x : Instance) : (s.setInst i x).tickLost = s.tickLost := rfl
@[simp] theorem setInst_time (s : State) (i : InstId) (x : Instance) : (s.setInst i x).time = s.time := rfl
@[simp] theorem setInst_tmrAttached (s : State) (i : InstId) (x : Instance) : (s.setInst i x).tmrAttached = s.tmrAttached := rfl
@[simp] theorem setInst_tmrPeriod (s : State) (i : InstId) (x : Instance) : (s.setInst i x).tmrPeriod = s.tmrPeriod := rfl
@[simp] theorem setInst_tmrCount (s : State) (i : InstId) (x : Instance) : (s.setInst i x).tmrCount = s.tmrCount := rfl
@[simp] theorem setInst_roundPending (s : State) (i : InstId) (x : Instance) : (s.setInst i x).roundPending = s.roundPending := rfl
@[simp] theorem setInst_roundActive (s : State) (i : InstId) (x : Instance) : (s.setInst i x).roundActive = s.roundActive := rfl
@[simp] theorem setInst_roundPos (s : State) (i : InstId) (x : Instance) : (s.setInst i x).roundPos = s.roundPos := rfl
@[simp] theorem setInst_lastGrant (s : State) (i : InstId) (x : Instance) : (s.setInst i x).lastGrant = s.lastGrant := rfl
@[simp] theorem setInst_regOrder (s : State) (i : InstId) (x : Instance) : (s.setInst i x).regOrder = s.regOrder := rfl
@[simp] theorem setInst_script (s : State) (i : InstId) (x : Instance) : (s.setInst i x).script = s.script := rfl
@[simp] theorem setInst_draws (s : State) (i : InstId) (x : Instance) : (s.setInst i x).draws = s.draws := rfl
@[simp] theorem setInst_freeIdx (s : State) (i : InstId) (x : Instance) : (s.setInst i x).freeIdx = s.freeIdx := rfl
@[simp] theorem setInst_trace (s : State) (i : InstId) (x : Instance) : (s.setInst i x).trace = s.trace := rfl

/-! ### What `record` leaves unchanged -/

@[simp] theorem record_params (e : Event) (s : State) : (record e s).params = s.params := rfl
@[simp] theorem record_seq (e : Event) (s : State) : (record e s).seq = s.seq := rfl
@[simp] theorem record_seqLastT (e : Event) (s : State) : (record e s).seqLastT = s.seqLastT := rfl
@[simp] theorem record_busy (e : Event) (s : State) : (record e s).busy = s.busy := rfl
@[simp] theorem record_jobWord (e : Event) (s : State) : (record e s).jobWord = s.jobWord := rfl
@[simp] theorem record_jobData (e : Event) (s : State) : (record e s).jobData = s.jobData := rfl
@[simp] theorem record_cmdReg (e : Event) (s : State) : (record e s).cmdReg = s.cmdReg := rfl
@[simp] theorem record_data (e : Event) (s : State) : (record e s).data = s.data := rfl
@[simp] theorem record_result (e : Event) (s : State) : (record e s).result = s.result := rfl
@[simp] theorem record_rc (e : Event) (s : State) : (record e s).rc = s.rc := rfl
@[simp] theorem record_overrun (e : Event) (s : State) : (record e s).overrun = s.overrun := rfl
@[simp] theorem record_tickLost (e : Event) (s : State) : (record e s).tickLost = s.tickLost := rfl
@[simp] theorem record_time (e : Event) (s : State) : (record e s).time = s.time := rfl
@[simp] theorem record_tmrAttached (e : Event) (s : State) : (record e s).tmrAttached = s.tmrAttached := rfl
@[simp] theorem record_tmrPeriod (e : Event) (s : State) : (record e s).tmrPeriod = s.tmrPeriod := rfl
@[simp] theorem record_tmrCount (e : Event) (s : State) : (record e s).tmrCount = s.tmrCount := rfl
@[simp] theorem record_roundPending (e : Event) (s : State) : (record e s).roundPending = s.roundPending := rfl
@[simp] theorem record_roundActive (e : Event) (s : State) : (record e s).roundActive = s.roundActive := rfl
@[simp] theorem record_roundPos (e : Event) (s : State) : (record e s).roundPos = s.roundPos := rfl
@[simp] theorem record_lastGrant (e : Event) (s : State) : (record e s).lastGrant = s.lastGrant := rfl
@[simp] theorem record_regOrder (e : Event) (s : State) : (record e s).regOrder = s.regOrder := rfl
@[simp] theorem record_insts (e : Event) (s : State) : (record e s).insts = s.insts := rfl
@[simp] theorem record_script (e : Event) (s : State) : (record e s).script = s.script := rfl
@[simp] theorem record_draws (e : Event) (s : State) : (record e s).draws = s.draws := rfl
@[simp] theorem record_freeIdx (e : Event) (s : State) : (record e s).freeIdx = s.freeIdx := rfl

/-! ### What `drive` leaves unchanged -/

@[simp] theorem drive_params (i : InstId) (r : Role) (v : Bool) (s : State) : (drive i r v s).params = s.params := rfl
@[simp] theorem drive_seq (i : InstId) (r : Role) (v : Bool) (s : State) : (drive i r v s).seq = s.seq := rfl
@[simp] theorem drive_busy (i : InstId) (r : Role) (v : Bool) (s : State) : (drive i r v s).busy = s.busy := rfl
@[simp] theorem drive_jobWord (i : InstId) (r : Role) (v : Bool) (s : State) : (drive i r v s).jobWord = s.jobWord := rfl
@[simp] theorem drive_jobData (i : InstId) (r : Role) (v : Bool) (s : State) : (drive i r v s).jobData = s.jobData := rfl
@[simp] theorem drive_cmdReg (i : InstId) (r : Role) (v : Bool) (s : State) : (drive i r v s).cmdReg = s.cmdReg := rfl
@[simp] theorem drive_data (i : InstId) (r : Role) (v : Bool) (s : State) : (drive i r v s).data = s.data := rfl
@[simp] theorem drive_result (i : InstId) (r : Role) (v : Bool) (s : State) : (drive i r v s).result = s.result := rfl
@[simp] theorem drive_rc (i : InstId) (r : Role) (v : Bool) (s : State) : (drive i r v s).rc = s.rc := rfl
@[simp] theorem drive_overrun (i : InstId) (r : Role) (v : Bool) (s : State) : (drive i r v s).overrun = s.overrun := rfl
@[simp] theorem drive_tickLost (i : InstId) (r : Role) (v : Bool) (s : State) : (drive i r v s).tickLost = s.tickLost := rfl
@[simp] theorem drive_time (i : InstId) (r : Role) (v : Bool) (s : State) : (drive i r v s).time = s.time := rfl
@[simp] theorem drive_tmrAttached (i : InstId) (r : Role) (v : Bool) (s : State) : (drive i r v s).tmrAttached = s.tmrAttached := rfl
@[simp] theorem drive_tmrPeriod (i : InstId) (r : Role) (v : Bool) (s : State) : (drive i r v s).tmrPeriod = s.tmrPeriod := rfl
@[simp] theorem drive_tmrCount (i : InstId) (r : Role) (v : Bool) (s : State) : (drive i r v s).tmrCount = s.tmrCount := rfl
@[simp] theorem drive_roundPending (i : InstId) (r : Role) (v : Bool) (s : State) : (drive i r v s).roundPending = s.roundPending := rfl
@[simp] theorem drive_roundActive (i : InstId) (r : Role) (v : Bool) (s : State) : (drive i r v s).roundActive = s.roundActive := rfl
@[simp] theorem drive_roundPos (i : InstId) (r : Role) (v : Bool) (s : State) : (drive i r v s).roundPos = s.roundPos := rfl
@[simp] theorem drive_lastGrant (i : InstId) (r : Role) (v : Bool) (s : State) : (drive i r v s).lastGrant = s.lastGrant := rfl
@[simp] theorem drive_regOrder (i : InstId) (r : Role) (v : Bool) (s : State) : (drive i r v s).regOrder = s.regOrder := rfl
@[simp] theorem drive_script (i : InstId) (r : Role) (v : Bool) (s : State) : (drive i r v s).script = s.script := rfl
@[simp] theorem drive_draws (i : InstId) (r : Role) (v : Bool) (s : State) : (drive i r v s).draws = s.draws := rfl
@[simp] theorem drive_freeIdx (i : InstId) (r : Role) (v : Bool) (s : State) : (drive i r v s).freeIdx = s.freeIdx := rfl

/-! ### What `dropBit` leaves unchanged -/

@[simp] theorem dropBit_params (s : State) : (dropBit s).params = s.params := by unfold dropBit; split <;> rfl
@[simp] theorem dropBit_seq (s : State) : (dropBit s).seq = s.seq := by unfold dropBit; split <;> rfl
@[simp] theorem dropBit_seqLastT (s : State) : (dropBit s).seqLastT = s.seqLastT := by unfold dropBit; split <;> rfl
@[simp] theorem dropBit_busy (s : State) : (dropBit s).busy = s.busy := by unfold dropBit; split <;> rfl
@[simp] theorem dropBit_jobWord (s : State) : (dropBit s).jobWord = s.jobWord := by unfold dropBit; split <;> rfl
@[simp] theorem dropBit_jobData (s : State) : (dropBit s).jobData = s.jobData := by unfold dropBit; split <;> rfl
@[simp] theorem dropBit_cmdReg (s : State) : (dropBit s).cmdReg = s.cmdReg := by unfold dropBit; split <;> rfl
@[simp] theorem dropBit_data (s : State) : (dropBit s).data = s.data := by unfold dropBit; split <;> rfl
@[simp] theorem dropBit_result (s : State) : (dropBit s).result = s.result := by unfold dropBit; split <;> rfl
@[simp] theorem dropBit_rc (s : State) : (dropBit s).rc = s.rc := by unfold dropBit; split <;> rfl
@[simp] theorem dropBit_overrun (s : State) : (dropBit s).overrun = s.overrun := by unfold dropBit; split <;> rfl
@[simp] theorem dropBit_tickLost (s : State) : (dropBit s).tickLost = s.tickLost := by unfold dropBit; split <;> rfl
@[simp] theorem dropBit_time (s : State) : (dropBit s).time = s.time := by unfold dropBit; split <;> rfl
@[simp] theorem dropBit_tmrAttached (s : State) : (dropBit s).tmrAttached = s.tmrAttached := by unfold dropBit; split <;> rfl
@[simp] theorem dropBit_tmrPeriod (s : State) : (dropBit s).tmrPeriod = s.tmrPeriod := by unfold dropBit; split <;> rfl
@[simp] theorem dropBit_tmrCount (s : State) : (dropBit s).tmrCount = s.tmrCount := by unfold dropBit; split <;> rfl
@[simp] theorem dropBit_roundPending (s : State) : (dropBit s).roundPending = s.roundPending := by unfold dropBit; split <;> rfl
@[simp] theorem dropBit_roundActive (s : State) : (dropBit s).roundActive = s.roundActive := by unfold dropBit; split <;> rfl
@[simp] theorem dropBit_roundPos (s : State) : (dropBit s).roundPos = s.roundPos := by unfold dropBit; split <;> rfl
@[simp] theorem dropBit_lastGrant (s : State) : (dropBit s).lastGrant = s.lastGrant := by unfold dropBit; split <;> rfl
@[simp] theorem dropBit_regOrder (s : State) : (dropBit s).regOrder = s.regOrder := by unfold dropBit; split <;> rfl
@[simp] theorem dropBit_insts (s : State) : (dropBit s).insts = s.insts := by unfold dropBit; split <;> rfl
@[simp] theorem dropBit_script (s : State) : (dropBit s).script = s.script := by unfold dropBit; split <;> rfl
@[simp] theorem dropBit_trace (s : State) : (dropBit s).trace = s.trace := by unfold dropBit; split <;> rfl

/-! ### What `sample` leaves unchanged -/

@[simp] theorem sample_params (i : InstId) (s : State) : (sample i s).params = s.params := by simp [sample]
@[simp] theorem sample_seq (i : InstId) (s : State) : (sample i s).seq = s.seq := by simp [sample]
@[simp] theorem sample_seqLastT (i : InstId) (s : State) : (sample i s).seqLastT = s.seqLastT := by simp [sample]
@[simp] theorem sample_busy (i : InstId) (s : State) : (sample i s).busy = s.busy := by simp [sample]
@[simp] theorem sample_jobWord (i : InstId) (s : State) : (sample i s).jobWord = s.jobWord := by simp [sample]
@[simp] theorem sample_jobData (i : InstId) (s : State) : (sample i s).jobData = s.jobData := by simp [sample]
@[simp] theorem sample_cmdReg (i : InstId) (s : State) : (sample i s).cmdReg = s.cmdReg := by simp [sample]
@[simp] theorem sample_data (i : InstId) (s : State) : (sample i s).data = s.data := by simp [sample]
@[simp] theorem sample_result (i : InstId) (s : State) : (sample i s).result = s.result := by simp [sample]
@[simp] theorem sample_rc (i : InstId) (s : State) : (sample i s).rc = s.rc := by simp [sample]
@[simp] theorem sample_overrun (i : InstId) (s : State) : (sample i s).overrun = s.overrun := by simp [sample]
@[simp] theorem sample_tickLost (i : InstId) (s : State) : (sample i s).tickLost = s.tickLost := by simp [sample]
@[simp] theorem sample_time (i : InstId) (s : State) : (sample i s).time = s.time := by simp [sample]
@[simp] theorem sample_tmrAttached (i : InstId) (s : State) : (sample i s).tmrAttached = s.tmrAttached := by simp [sample]
@[simp] theorem sample_tmrPeriod (i : InstId) (s : State) : (sample i s).tmrPeriod = s.tmrPeriod := by simp [sample]
@[simp] theorem sample_tmrCount (i : InstId) (s : State) : (sample i s).tmrCount = s.tmrCount := by simp [sample]
@[simp] theorem sample_roundPending (i : InstId) (s : State) : (sample i s).roundPending = s.roundPending := by simp [sample]
@[simp] theorem sample_roundActive (i : InstId) (s : State) : (sample i s).roundActive = s.roundActive := by simp [sample]
@[simp] theorem sample_roundPos (i : InstId) (s : State) : (sample i s).roundPos = s.roundPos := by simp [sample]
@[simp] theorem sample_lastGrant (i : InstId) (s : State) : (sample i s).lastGrant = s.lastGrant := by simp [sample]
@[simp] theorem sample_regOrder (i : InstId) (s : State) : (sample i s).regOrder = s.regOrder := by simp [sample]
@[simp] theorem sample_insts (i : InstId) (s : State) : (sample i s).insts = s.insts := by simp [sample]
@[simp] theorem sample_script (i : InstId) (s : State) : (sample i s).script = s.script := by simp [sample]

/-! ### What `poll` leaves unchanged -/

@[simp] theorem poll_params (i : InstId) (t0 T : Word) (s : State) : (poll i t0 T s).params = s.params := by unfold poll; split <;> simp
@[simp] theorem poll_seq (i : InstId) (t0 T : Word) (s : State) : (poll i t0 T s).seq = s.seq := by unfold poll; split <;> simp
@[simp] theorem poll_seqLastT (i : InstId) (t0 T : Word) (s : State) : (poll i t0 T s).seqLastT = s.seqLastT := by unfold poll; split <;> simp
@[simp] theorem poll_busy (i : InstId) (t0 T : Word) (s : State) : (poll i t0 T s).busy = s.busy := by unfold poll; split <;> simp
@[simp] theorem poll_jobWord (i : InstId) (t0 T : Word) (s : State) : (poll i t0 T s).jobWord = s.jobWord := by unfold poll; split <;> simp
@[simp] theorem poll_jobData (i : InstId) (t0 T : Word) (s : State) : (poll i t0 T s).jobData = s.jobData := by unfold poll; split <;> simp
@[simp] theorem poll_cmdReg (i : InstId) (t0 T : Word) (s : State) : (poll i t0 T s).cmdReg = s.cmdReg := by unfold poll; split <;> simp
@[simp] theorem poll_data (i : InstId) (t0 T : Word) (s : State) : (poll i t0 T s).data = s.data := by unfold poll; split <;> simp
@[simp] theorem poll_result (i : InstId) (t0 T : Word) (s : State) : (poll i t0 T s).result = s.result := by unfold poll; split <;> simp
@[simp] theorem poll_rc (i : InstId) (t0 T : Word) (s : State) : (poll i t0 T s).rc = s.rc := by unfold poll; split <;> simp
@[simp] theorem poll_overrun (i : InstId) (t0 T : Word) (s : State) : (poll i t0 T s).overrun = s.overrun := by unfold poll; split <;> simp
@[simp] theorem poll_tickLost (i : InstId) (t0 T : Word) (s : State) : (poll i t0 T s).tickLost = s.tickLost := by unfold poll; split <;> simp
@[simp] theorem poll_time (i : InstId) (t0 T : Word) (s : State) : (poll i t0 T s).time = s.time := by unfold poll; split <;> simp
@[simp] theorem poll_tmrAttached (i : InstId) (t0 T : Word) (s : State) : (poll i t0 T s).tmrAttached = s.tmrAttached := by unfold poll; split <;> simp
@[simp] theorem poll_tmrPeriod (i : InstId) (t0 T : Word) (s : State) : (poll i t0 T s).tmrPeriod = s.tmrPeriod := by unfold poll; split <;> simp
@[simp] theorem poll_tmrCount (i : InstId) (t0 T : Word) (s : State) : (poll i t0 T s).tmrCount = s.tmrCount := by unfold poll; split <;> simp
@[simp] theorem poll_roundPending (i : InstId) (t0 T : Word) (s : State) : (poll i t0 T s).roundPending = s.roundPending := by unfold poll; split <;> simp
@[simp] theorem poll_roundActive (i : InstId) (t0 T : Word) (s : State) : (poll i t0 T s).roundActive = s.roundActive := by unfold poll; split <;> simp
@[simp] theorem poll_roundPos (i : InstId) (t0 T : Word) (s : State) : (poll i t0 T s).roundPos = s.roundPos := by unfold poll; split <;> simp
@[simp] theorem poll_lastGrant (i : InstId) (t0 T : Word) (s : State) : (poll i t0 T s).lastGrant = s.lastGrant := by unfold poll; split <;> simp
@[simp] theorem poll_regOrder (i : InstId) (t0 T : Word) (s : State) : (poll i t0 T s).regOrder = s.regOrder := by unfold poll; split <;> simp
@[simp] theorem poll_insts (i : InstId) (t0 T : Word) (s : State) : (poll i t0 T s).insts = s.insts := by unfold poll; split <;> simp
@[simp] theorem poll_script (i : InstId) (t0 T : Word) (s : State) : (poll i t0 T s).script = s.script := by unfold poll; split <;> simp

/-! ### What `commitInputs` leaves unchanged -/

@[simp] theorem commitInputs_params (i : InstId) (bytes : List Byte) (s : State) : (commitInputs i bytes s).params = s.params := rfl
@[simp] theorem commitInputs_seq (i : InstId) (bytes : List Byte) (s : State) : (commitInputs i bytes s).seq = s.seq := rfl
@[simp] theorem commitInputs_seqLastT (i : InstId) (bytes : List Byte) (s : State) : (commitInputs i bytes s).seqLastT = s.seqLastT := rfl
@[simp] theorem commitInputs_busy (i : InstId) (bytes : List Byte) (s : State) : (commitInputs i bytes s).busy = s.busy := rfl
@[simp] theorem commitInputs_jobWord (i : InstId) (bytes : List Byte) (s : State) : (commitInputs i bytes s).jobWord = s.jobWord := rfl
@[simp] theorem commitInputs_jobData (i : InstId) (bytes : List Byte) (s : State) : (commitInputs i bytes s).jobData = s.jobData := rfl
@[simp] theorem commitInputs_cmdReg (i : InstId) (bytes : List Byte) (s : State) : (commitInputs i bytes s).cmdReg = s.cmdReg := rfl
@[simp] theorem commitInputs_data (i : InstId) (bytes : List Byte) (s : State) : (commitInputs i bytes s).data = s.data := rfl
@[simp] theorem commitInputs_result (i : InstId) (bytes : List Byte) (s : State) : (commitInputs i bytes s).result = s.result := rfl
@[simp] theorem commitInputs_rc (i : InstId) (bytes : List Byte) (s : State) : (commitInputs i bytes s).rc = s.rc := rfl
@[simp] theorem commitInputs_overrun (i : InstId) (bytes : List Byte) (s : State) : (commitInputs i bytes s).overrun = s.overrun := rfl
@[simp] theorem commitInputs_tickLost (i : InstId) (bytes : List Byte) (s : State) : (commitInputs i bytes s).tickLost = s.tickLost := rfl
@[simp] theorem commitInputs_time (i : InstId) (bytes : List Byte) (s : State) : (commitInputs i bytes s).time = s.time := rfl
@[simp] theorem commitInputs_tmrAttached (i : InstId) (bytes : List Byte) (s : State) : (commitInputs i bytes s).tmrAttached = s.tmrAttached := rfl
@[simp] theorem commitInputs_tmrPeriod (i : InstId) (bytes : List Byte) (s : State) : (commitInputs i bytes s).tmrPeriod = s.tmrPeriod := rfl
@[simp] theorem commitInputs_tmrCount (i : InstId) (bytes : List Byte) (s : State) : (commitInputs i bytes s).tmrCount = s.tmrCount := rfl
@[simp] theorem commitInputs_roundPending (i : InstId) (bytes : List Byte) (s : State) : (commitInputs i bytes s).roundPending = s.roundPending := rfl
@[simp] theorem commitInputs_roundActive (i : InstId) (bytes : List Byte) (s : State) : (commitInputs i bytes s).roundActive = s.roundActive := rfl
@[simp] theorem commitInputs_roundPos (i : InstId) (bytes : List Byte) (s : State) : (commitInputs i bytes s).roundPos = s.roundPos := rfl
@[simp] theorem commitInputs_lastGrant (i : InstId) (bytes : List Byte) (s : State) : (commitInputs i bytes s).lastGrant = s.lastGrant := rfl
@[simp] theorem commitInputs_regOrder (i : InstId) (bytes : List Byte) (s : State) : (commitInputs i bytes s).regOrder = s.regOrder := rfl
@[simp] theorem commitInputs_script (i : InstId) (bytes : List Byte) (s : State) : (commitInputs i bytes s).script = s.script := rfl
@[simp] theorem commitInputs_draws (i : InstId) (bytes : List Byte) (s : State) : (commitInputs i bytes s).draws = s.draws := rfl
@[simp] theorem commitInputs_freeIdx (i : InstId) (bytes : List Byte) (s : State) : (commitInputs i bytes s).freeIdx = s.freeIdx := rfl
@[simp] theorem commitInputs_trace (i : InstId) (bytes : List Byte) (s : State) : (commitInputs i bytes s).trace = s.trace := rfl

/-! ### What `dropAction` leaves unchanged -/

@[simp] theorem dropAction_params (s : State) : (dropAction s).params = s.params := by unfold dropAction; split <;> rfl
@[simp] theorem dropAction_seq (s : State) : (dropAction s).seq = s.seq := by unfold dropAction; split <;> rfl
@[simp] theorem dropAction_seqLastT (s : State) : (dropAction s).seqLastT = s.seqLastT := by unfold dropAction; split <;> rfl
@[simp] theorem dropAction_busy (s : State) : (dropAction s).busy = s.busy := by unfold dropAction; split <;> rfl
@[simp] theorem dropAction_jobWord (s : State) : (dropAction s).jobWord = s.jobWord := by unfold dropAction; split <;> rfl
@[simp] theorem dropAction_jobData (s : State) : (dropAction s).jobData = s.jobData := by unfold dropAction; split <;> rfl
@[simp] theorem dropAction_cmdReg (s : State) : (dropAction s).cmdReg = s.cmdReg := by unfold dropAction; split <;> rfl
@[simp] theorem dropAction_data (s : State) : (dropAction s).data = s.data := by unfold dropAction; split <;> rfl
@[simp] theorem dropAction_result (s : State) : (dropAction s).result = s.result := by unfold dropAction; split <;> rfl
@[simp] theorem dropAction_rc (s : State) : (dropAction s).rc = s.rc := by unfold dropAction; split <;> rfl
@[simp] theorem dropAction_overrun (s : State) : (dropAction s).overrun = s.overrun := by unfold dropAction; split <;> rfl
@[simp] theorem dropAction_tickLost (s : State) : (dropAction s).tickLost = s.tickLost := by unfold dropAction; split <;> rfl
@[simp] theorem dropAction_time (s : State) : (dropAction s).time = s.time := by unfold dropAction; split <;> rfl
@[simp] theorem dropAction_tmrAttached (s : State) : (dropAction s).tmrAttached = s.tmrAttached := by unfold dropAction; split <;> rfl
@[simp] theorem dropAction_tmrPeriod (s : State) : (dropAction s).tmrPeriod = s.tmrPeriod := by unfold dropAction; split <;> rfl
@[simp] theorem dropAction_tmrCount (s : State) : (dropAction s).tmrCount = s.tmrCount := by unfold dropAction; split <;> rfl
@[simp] theorem dropAction_roundPending (s : State) : (dropAction s).roundPending = s.roundPending := by unfold dropAction; split <;> rfl
@[simp] theorem dropAction_roundActive (s : State) : (dropAction s).roundActive = s.roundActive := by unfold dropAction; split <;> rfl
@[simp] theorem dropAction_roundPos (s : State) : (dropAction s).roundPos = s.roundPos := by unfold dropAction; split <;> rfl
@[simp] theorem dropAction_lastGrant (s : State) : (dropAction s).lastGrant = s.lastGrant := by unfold dropAction; split <;> rfl
@[simp] theorem dropAction_regOrder (s : State) : (dropAction s).regOrder = s.regOrder := by unfold dropAction; split <;> rfl
@[simp] theorem dropAction_insts (s : State) : (dropAction s).insts = s.insts := by unfold dropAction; split <;> rfl
@[simp] theorem dropAction_draws (s : State) : (dropAction s).draws = s.draws := by unfold dropAction; split <;> rfl
@[simp] theorem dropAction_trace (s : State) : (dropAction s).trace = s.trace := by unfold dropAction; split <;> rfl

/-! ### What `finish` leaves unchanged -/

@[simp] theorem finish_params (rc : ResultCode) (result : Option Word) (s : State) : (finish rc result s).params = s.params := rfl
@[simp] theorem finish_seqLastT (rc : ResultCode) (result : Option Word) (s : State) : (finish rc result s).seqLastT = s.seqLastT := rfl
@[simp] theorem finish_jobWord (rc : ResultCode) (result : Option Word) (s : State) : (finish rc result s).jobWord = s.jobWord := rfl
@[simp] theorem finish_jobData (rc : ResultCode) (result : Option Word) (s : State) : (finish rc result s).jobData = s.jobData := rfl
@[simp] theorem finish_cmdReg (rc : ResultCode) (result : Option Word) (s : State) : (finish rc result s).cmdReg = s.cmdReg := rfl
@[simp] theorem finish_data (rc : ResultCode) (result : Option Word) (s : State) : (finish rc result s).data = s.data := rfl
@[simp] theorem finish_overrun (rc : ResultCode) (result : Option Word) (s : State) : (finish rc result s).overrun = s.overrun := rfl
@[simp] theorem finish_tickLost (rc : ResultCode) (result : Option Word) (s : State) : (finish rc result s).tickLost = s.tickLost := rfl
@[simp] theorem finish_time (rc : ResultCode) (result : Option Word) (s : State) : (finish rc result s).time = s.time := rfl
@[simp] theorem finish_tmrAttached (rc : ResultCode) (result : Option Word) (s : State) : (finish rc result s).tmrAttached = s.tmrAttached := rfl
@[simp] theorem finish_tmrPeriod (rc : ResultCode) (result : Option Word) (s : State) : (finish rc result s).tmrPeriod = s.tmrPeriod := rfl
@[simp] theorem finish_tmrCount (rc : ResultCode) (result : Option Word) (s : State) : (finish rc result s).tmrCount = s.tmrCount := rfl
@[simp] theorem finish_roundPending (rc : ResultCode) (result : Option Word) (s : State) : (finish rc result s).roundPending = s.roundPending := rfl
@[simp] theorem finish_roundActive (rc : ResultCode) (result : Option Word) (s : State) : (finish rc result s).roundActive = s.roundActive := rfl
@[simp] theorem finish_roundPos (rc : ResultCode) (result : Option Word) (s : State) : (finish rc result s).roundPos = s.roundPos := rfl
@[simp] theorem finish_lastGrant (rc : ResultCode) (result : Option Word) (s : State) : (finish rc result s).lastGrant = s.lastGrant := rfl
@[simp] theorem finish_regOrder (rc : ResultCode) (result : Option Word) (s : State) : (finish rc result s).regOrder = s.regOrder := rfl
@[simp] theorem finish_insts (rc : ResultCode) (result : Option Word) (s : State) : (finish rc result s).insts = s.insts := rfl
@[simp] theorem finish_script (rc : ResultCode) (result : Option Word) (s : State) : (finish rc result s).script = s.script := rfl
@[simp] theorem finish_draws (rc : ResultCode) (result : Option Word) (s : State) : (finish rc result s).draws = s.draws := rfl
@[simp] theorem finish_freeIdx (rc : ResultCode) (result : Option Word) (s : State) : (finish rc result s).freeIdx = s.freeIdx := rfl
@[simp] theorem finish_trace (rc : ResultCode) (result : Option Word) (s : State) : (finish rc result s).trace = s.trace := rfl

/-! ### Instances -/

/-- Reading an instance after a replacement. -/
theorem inst_setInst (s : State) (i j : InstId) (x : Instance) :
    (s.setInst i x).inst j = if i = j then x else s.inst j := by
  simp only [State.inst, State.setInst, Vector.getElem_set, BitVec.toNat_inj]

@[simp] theorem inst_setInst_self (s : State) (i : InstId) (x : Instance) : (s.setInst i x).inst i = x := by
  simp [inst_setInst]

theorem inst_setInst_ne (s : State) {i j : InstId} (x : Instance) (h : i ≠ j) :
    (s.setInst i x).inst j = s.inst j := by
  simp [inst_setInst, h]

/-- The second of two replacements of one instance wins. -/
@[simp] theorem setInst_setInst (s : State) (i : InstId) (x y : Instance) :
    (s.setInst i x).setInst i y = s.setInst i y := by
  simp [State.setInst]

/-- Replacing an instance by itself changes nothing. -/
@[simp] theorem setInst_inst (s : State) (i : InstId) : s.setInst i (s.inst i) = s := by
  simp [State.setInst, State.inst]

/-- Two states whose instances are the same one by one have the same instances. -/
theorem insts_ext {s t : State} (h : ∀ i, s.inst i = t.inst i) : s.insts = t.insts := by
  apply Vector.ext
  intro n hn
  have := h (BitVec.ofNat 3 n)
  simpa [State.inst, Nat.mod_eq_of_lt hn] using this

/-! ### What the named updates write -/

@[simp] theorem record_trace (e : Event) (s : State) : (record e s).trace = e :: s.trace := rfl
@[simp] theorem record_inst (e : Event) (s : State) (j : InstId) : (record e s).inst j = s.inst j := rfl
@[simp] theorem drive_seqLastT (i : InstId) (r : Role) (v : Bool) (s : State) :
    (drive i r v s).seqLastT = s.time := rfl
@[simp] theorem drive_trace (i : InstId) (r : Role) (v : Bool) (s : State) :
    (drive i r v s).trace = .drive i r v s.time :: s.trace := rfl
theorem drive_inst (i j : InstId) (r : Role) (v : Bool) (s : State) :
    (drive i r v s).inst j =
      if i = j then { s.inst i with lines := (s.inst i).lines.set r v } else s.inst j :=
  inst_setInst s i j _
@[simp] theorem dropBit_inst (s : State) (j : InstId) : (dropBit s).inst j = s.inst j := by
  simp [State.inst]
@[simp] theorem sample_inst (i : InstId) (s : State) (j : InstId) : (sample i s).inst j = s.inst j := by
  simp [State.inst]
@[simp] theorem sample_trace (i : InstId) (s : State) :
    (sample i s).trace = .sample i (nextBit s) s.time :: s.trace := by simp [sample]
@[simp] theorem poll_inst (i : InstId) (t0 T : Word) (s : State) (j : InstId) :
    (poll i t0 T s).inst j = s.inst j := by
  simp [State.inst]
theorem commitInputs_inst_ne (i : InstId) (bytes : List Byte) (s : State) {j : InstId} (h : i ≠ j) :
    (commitInputs i bytes s).inst j = s.inst j :=
  inst_setInst_ne s _ h
@[simp] theorem finish_inst (rc : ResultCode) (result : Option Word) (s : State) (j : InstId) :
    (finish rc result s).inst j = s.inst j := rfl
@[simp] theorem finish_busy (rc : ResultCode) (result : Option Word) (s : State) :
    (finish rc result s).busy = false := rfl
@[simp] theorem finish_seq (rc : ResultCode) (result : Option Word) (s : State) :
    (finish rc result s).seq = .idle := rfl
@[simp] theorem finish_rc (rc : ResultCode) (result : Option Word) (s : State) :
    (finish rc result s).rc = rc := rfl
@[simp] theorem finish_result (rc : ResultCode) (result : Option Word) (s : State) :
    (finish rc result s).result = result.getD s.result := rfl
@[simp] theorem dropAction_inst (s : State) (j : InstId) : (dropAction s).inst j = s.inst j := by
  simp [State.inst]

end Sys2Proof.Machine
end

