-- ==== Sys2Proof/Laws/LinePrograms.lean ====
section
/-! SUPPORT. What one line step can do, said once: it changes nothing but the lines of its port, SEQ_LAST_T, the events
and the answers used up (`LineFrame`), and it leaves the lines of its port as the position it leads to says. -/

namespace Sys2Proof.Machine

/-- `t` differs from `s` at most in the lines of instance `i`, SEQ_LAST_T, the events, the answers listed and the
free-value counter. -/
structure LineFrame (i : InstId) (s t : State) : Prop where
  shared : SameShared s t
  seq : t.seq = s.seq
  busy : t.busy = s.busy
  jobWord : t.jobWord = s.jobWord
  jobData : t.jobData = s.jobData
  result : t.result = s.result
  rc : t.rc = s.rc
  lastGrant : t.lastGrant = s.lastGrant
  same : SameButLines (s.inst i) (t.inst i)
  others : ∀ j, i ≠ j → t.inst j = s.inst j

theorem LineFrame.refl (i : InstId) (s : State) : LineFrame i s s where
  shared := by simp [SameShared]
  seq := rfl
  busy := rfl
  jobWord := rfl
  jobData := rfl
  result := rfl
  rc := rfl
  lastGrant := rfl
  same := by simp [SameButLines]
  others := fun _ _ => rfl

theorem LineFrame.trans {i : InstId} {s t u : State} (h : LineFrame i s t) (k : LineFrame i t u) : LineFrame i s u where
  shared := by
    have := h.shared; have := k.shared
    simp_all [SameShared]
  seq := k.seq.trans h.seq
  busy := k.busy.trans h.busy
  jobWord := k.jobWord.trans h.jobWord
  jobData := k.jobData.trans h.jobData
  result := k.result.trans h.result
  rc := k.rc.trans h.rc
  lastGrant := k.lastGrant.trans h.lastGrant
  same := by
    have := h.same; have := k.same
    simp_all [SameButLines]
  others := fun j hj => (k.others j hj).trans (h.others j hj)

theorem drive_lineFrame (i : InstId) (r : Role) (v : Bool) (s : State) : LineFrame i s (drive i r v s) where
  shared := by simp [SameShared]
  seq := rfl
  busy := rfl
  jobWord := rfl
  jobData := rfl
  result := rfl
  rc := rfl
  lastGrant := rfl
  same := by simp [SameButLines, drive_inst]
  others := fun j hj => by simp [drive_inst, hj]

theorem sample_lineFrame (i : InstId) (s : State) : LineFrame i s (sample i s) where
  shared := by simp [SameShared]
  seq := by simp
  busy := by simp
  jobWord := by simp
  jobData := by simp
  result := by simp
  rc := by simp
  lastGrant := by simp
  same := by simp [SameButLines]
  others := fun j _ => by simp

theorem poll_lineFrame (i : InstId) (t0 T : Word) (s : State) : LineFrame i s (poll i t0 T s) := by
  unfold poll
  split
  · exact .refl i s
  · exact sample_lineFrame i s

/-- The level a drive leaves on its line, and the levels of the other lines of its port. -/
theorem drive_lines (i : InstId) (r : Role) (v : Bool) (s : State) :
    ((drive i r v s).inst i).lines = (s.inst i).lines.set r v := by
  simp [drive_inst]

theorem sample_lines (i : InstId) (s : State) : ((sample i s).inst i).lines = (s.inst i).lines := by simp

theorem poll_lines (i : InstId) (t0 T : Word) (s : State) :
    ((poll i t0 T s).inst i).lines = (s.inst i).lines := by simp

/-! ### Frames of the line programs -/

theorem resetStep_frame (i : InstId) (T : Word) (p : ResetPos) (s : State) :
    LineFrame i s (resetStep i T p s).state := by
  cases p <;> simp only [resetStep, Progress.state]
  case poll t0 => cases pollOutcome t0 T s <;> exact poll_lineFrame i t0 T s
  all_goals exact drive_lineFrame i _ _ s

theorem writeStep_frame (i : InstId) (bytes : List Byte) (p : WritePos) (s : State) :
    LineFrame i s (writeStep i bytes p s).state := by
  rcases p with _ | ⟨b, k, x, rest⟩ | _ | _ | _
  case bit => cases b <;> exact drive_lineFrame i _ _ s
  all_goals exact drive_lineFrame i _ _ s

theorem readStep_frame (i : InstId) (n : Nat) (p : ReadPos) (s : State) :
    LineFrame i s (readStep i n p s).state := by
  rcases p with _ | m | m | m | ⟨b, m, bytes, k, acc⟩
  case ldLo => simp only [readStep, afterBytes]; split <;> exact drive_lineFrame i _ _ s
  case bit =>
    cases b
    case sample => exact sample_lineFrame i s
    case clkLo => exact drive_lineFrame i _ _ s
    case clkHi => simp only [readStep, afterBytes]; split <;> [split; skip] <;> exact drive_lineFrame i _ _ s
  all_goals exact drive_lineFrame i _ _ s

theorem analogStep_frame (i : InstId) (a : Bool) (T : Word) (p : AnalogPos) (s : State) :
    LineFrame i s (analogStep i a T p s).state := by
  cases p <;> simp only [analogStep, Progress.state]
  case poll t0 => cases pollOutcome t0 T s <;> exact poll_lineFrame i t0 T s
  all_goals exact drive_lineFrame i _ _ s

theorem Progress.within_state {π ρ κ : Type} (x : Progress π ρ) (inside : π → κ) (after : ρ → κ) :
    (x.within inside after).1 = x.state := by
  cases x <;> rfl

/-! ### Levels of the line programs -/

/-- A step of RESET leads to a position whose levels the lines have, or ends with every line idle. -/
theorem resetStep_lines (i : InstId) (T : Word) (p : ResetPos) (s : State) (h : p.linesOk (s.inst i).lines) :
    match resetStep i T p s with
    | .more t q => q.linesOk (t.inst i).lines
    | .done t _ => (t.inst i).lines = Lines.idle := by
  cases p <;> simp only [ResetPos.linesOk] at h
  case poll t0 =>
    simp only [resetStep]
    cases pollOutcome t0 T s <;> simp [h, ResetPos.linesOk]
  all_goals simp [resetStep, ResetPos.linesOk, drive_lines, h, Lines.set, Lines.idle]

theorem nextByte_linesOk (bytes : List Byte) (l : Lines) (h : l = { Lines.idle with dOut := l.dOut }) :
    (nextByte bytes).linesOk l := by
  cases bytes <;> exact h

/-- A step of WRITEOUT leads to a position whose levels the lines have, or ends with every line idle. -/
theorem writeStep_lines (i : InstId) (bytes : List Byte) (p : WritePos) (s : State) (h : p.linesOk (s.inst i).lines) :
    match writeStep i bytes p s with
    | .more t q => q.linesOk (t.inst i).lines
    | .done t _ => (t.inst i).lines = Lines.idle := by
  rcases p with _ | ⟨b, k, x, rest⟩ | _ | _ | _
  case bit =>
    cases b <;> simp only [WritePos.linesOk] at h
    case clkHi =>
      simp only [writeStep, afterBit]
      split
      · exact nextByte_linesOk _ _ (by rw [drive_lines, h]; rfl)
      · simp only [WritePos.linesOk, drive_lines]; rw [h]; rfl
    all_goals simp only [writeStep, WritePos.linesOk, drive_lines]; rw [h]; rfl
  case ldLo => exact nextByte_linesOk _ _ (by simp only [WritePos.linesOk] at h; rw [drive_lines, h]; rfl)
  all_goals simp only [WritePos.linesOk] at h; simp only [writeStep, WritePos.linesOk, drive_lines]; rw [h]; rfl

/-- A step of READIN leads to a position whose levels and count are right, or ends with every line idle and as many
bytes read as boards counted. -/
theorem readStep_lines (i : InstId) (n : Nat) (p : ReadPos) (s : State) (h : p.linesOk (s.inst i).lines)
    (hc : p.countOk n) :
    match readStep i n p s with
    | .more t q => q.linesOk (t.inst i).lines ∧ q.countOk n
    | .done t bytes => (t.inst i).lines = Lines.idle ∧ bytes.length = n := by
  rcases p with _ | m | m | m | ⟨b, m, bytes, k, acc⟩
  case ldLo =>
    simp only [ReadPos.countOk] at hc
    subst hc
    simp only [ReadPos.linesOk] at h
    have hl : ((drive i .ldIn false s).inst i).lines = Lines.idle := by rw [drive_lines, h]; rfl
    by_cases hm : m ≤ ([] : List Byte).length
    · simp only [readStep, afterBytes, if_pos hm]
      exact ⟨hl, by simp at hm ⊢; omega⟩
    · simp only [readStep, afterBytes, if_neg hm]
      exact ⟨hl, rfl, by simp at hm ⊢; omega⟩
  case bit =>
    obtain ⟨rfl, hlt⟩ := hc
    cases b <;> simp only [ReadPos.linesOk] at h
    case clkHi =>
      have hl : ((drive i .clk true s).inst i).lines = Lines.idle := by rw [drive_lines, h]; rfl
      by_cases hk : k.val = 0
      · by_cases hm : m ≤ (bytes ++ [acc]).length
        · simp only [readStep, afterBytes, if_pos hk, if_pos hm]
          exact ⟨hl, by simp at hm ⊢; omega⟩
        · simp only [readStep, afterBytes, if_pos hk, if_neg hm]
          exact ⟨hl, rfl, by simp at hm ⊢; omega⟩
      · simp only [readStep, if_neg hk]
        exact ⟨hl, rfl, hlt⟩
    case sample => exact ⟨by simp [ReadPos.linesOk, h], rfl, hlt⟩
    case clkLo => exact ⟨by simp only [ReadPos.linesOk]; rw [drive_lines, h]; rfl, rfl, hlt⟩
  case ldHi =>
    simp only [ReadPos.linesOk] at h
    exact ⟨by simp only [ReadPos.linesOk]; rw [drive_lines, h]; rfl, rfl⟩
  all_goals
    simp only [ReadPos.linesOk] at h
    exact ⟨by simp only [ReadPos.linesOk]; rw [drive_lines, h]; rfl, hc⟩

/-- A step of ANALOG leads to a position whose levels the lines have, or ends with every line idle. -/
theorem analogStep_lines (i : InstId) (a : Bool) (T : Word) (p : AnalogPos) (s : State)
    (h : p.linesOk a (s.inst i).lines) :
    match analogStep i a T p s with
    | .more t q => q.linesOk a (t.inst i).lines
    | .done t _ => (t.inst i).lines = Lines.idle := by
  cases p <;> simp only [AnalogPos.linesOk] at h
  case poll t0 =>
    simp only [analogStep]
    cases pollOutcome t0 T s <;> simp [h, AnalogPos.linesOk]
  case trigLo => simp only [analogStep, AnalogPos.linesOk, drive_lines, h]
  case trigHi =>
    simp only [analogStep, AnalogPos.linesOk, drive_lines, h]
    cases a <;> rfl

end Sys2Proof.Machine
end

