-- ==== Sys2Proof/Laws/Commands.lean ====
section
/-! SUPPORT. What the refresh steps, the three command shapes (class C, R, S) and each command's line program can do,
said once. -/

namespace Sys2Proof.Machine

/-! ### Refresh -/

/-- `t` differs from `s` at most in the lines, IN and PREV of instance `i`, SEQ_LAST_T, the events, the answers listed
and the free-value counter: what a step of a refresh may change. -/
structure RefreshFrame (i : InstId) (s t : State) : Prop where
  shared : SameShared s t
  seq : t.seq = s.seq
  busy : t.busy = s.busy
  jobWord : t.jobWord = s.jobWord
  jobData : t.jobData = s.jobData
  result : t.result = s.result
  rc : t.rc = s.rc
  lastGrant : t.lastGrant = s.lastGrant
  cons : (t.inst i).cons = (s.inst i).cons
  bc : (t.inst i).bc = (s.inst i).bc
  out : (t.inst i).out = (s.inst i).out
  mute : (t.inst i).mute = (s.inst i).mute
  others : ∀ j, i ≠ j → t.inst j = s.inst j

theorem LineFrame.refresh {i : InstId} {s t : State} (h : LineFrame i s t) : RefreshFrame i s t where
  shared := h.shared
  seq := h.seq
  busy := h.busy
  jobWord := h.jobWord
  jobData := h.jobData
  result := h.result
  rc := h.rc
  lastGrant := h.lastGrant
  cons := h.same.1
  bc := h.same.2.1
  out := h.same.2.2.1
  mute := h.same.2.2.2.2.2
  others := h.others

theorem commitInputs_inst (i : InstId) (bytes : List Byte) (s : State) :
    ∃ inp prev : Bank, (commitInputs i bytes s).inst i = { s.inst i with inp := inp, prev := prev } := by
  exact ⟨_, _, inst_setInst_self _ _ _⟩

theorem commitInputs_frame (i : InstId) (bytes : List Byte) (s : State) :
    RefreshFrame i s (commitInputs i bytes s) := by
  obtain ⟨inp, prev, h⟩ := commitInputs_inst i bytes s
  exact {
    shared := by simp [SameShared]
    seq := rfl, busy := rfl, jobWord := rfl, jobData := rfl, result := rfl, rc := rfl, lastGrant := rfl
    cons := by rw [h], bc := by rw [h], out := by rw [h], mute := by rw [h]
    others := fun j hj => commitInputs_inst_ne i bytes s hj }

/-- The bytes of PREV and IN after the commit, board by board (R142). -/
theorem commitInputs_bytes (i : InstId) (bytes : List Byte) (s : State) (b : Nat) (hb : b < 4) :
    bankGet ((commitInputs i bytes s).inst i).prev b = committedPrev (s.inst i) bytes b ∧
      bankGet ((commitInputs i bytes s).inst i).inp b = committedIn (s.inst i) bytes b := by
  rw [commitInputs, inst_setInst_self]
  obtain rfl | rfl | rfl | rfl : b = 0 ∨ b = 1 ∨ b = 2 ∨ b = 3 := by omega
  all_goals exact ⟨rfl, rfl⟩

theorem refreshStep_frame (i : InstId) (p : RefreshPos) (s : State) : RefreshFrame i s (refreshStep i p s).state := by
  rcases p with q | q | bytes
  · have h := writeStep_frame i (snapshot i s) q s
    simp only [refreshStep, refreshOutStep]
    revert h
    cases writeStep i (snapshot i s) q s <;> exact LineFrame.refresh
  · have h := readStep_frame i (s.inst i).bc.toNat q s
    simp only [refreshStep]
    revert h
    cases readStep i (s.inst i).bc.toNat q s <;> exact LineFrame.refresh
  · exact commitInputs_frame i bytes s

/-- A step of a refresh leads to a position of it, with the levels and the count that position asks for, or ends with
every line of the port idle. -/
theorem refreshStep_ok (i : InstId) (p : RefreshPos) (s : State) (h : p.ok (s.inst i)) :
    match refreshStep i p s with
    | .more t q => q.ok (t.inst i)
    | .done t _ => (t.inst i).lines = Lines.idle := by
  rcases p with q | q | bytes
  · have hl := writeStep_lines i (snapshot i s) q s h
    simp only [refreshStep, refreshOutStep]
    revert hl
    cases writeStep i (snapshot i s) q s with
    | more t q' => exact id
    | done t _ => exact fun hl => ⟨hl, trivial⟩
  · have hl := readStep_lines i (s.inst i).bc.toNat q s h.1 h.2
    have hf := readStep_frame i (s.inst i).bc.toNat q s
    simp only [refreshStep]
    revert hl hf
    cases readStep i (s.inst i).bc.toNat q s with
    | more t q' =>
      intro hl hf
      refine ⟨hl.1, ?_⟩
      have hbc : (t.inst i).bc = (s.inst i).bc := hf.same.2.1
      rw [hbc]
      exact hl.2
    | done t bytes =>
      intro hl hf
      have hbc : (t.inst i).bc = (s.inst i).bc := hf.same.2.1
      exact ⟨hl.1, by rw [hbc]; exact hl.2⟩
  · obtain ⟨inp, prev, hi⟩ := commitInputs_inst i bytes s
    simp only [refreshStep, hi]
    exact h.1

/-! ### The registry -/

/-- What DEREGISTER does to the registry and the timer, and that nothing else changes (R163). -/
theorem deregister_eq (i : InstId) (s : State) :
    deregister i s =
      if i ∈ s.regOrder ∧ s.regOrder.erase i = [] then
        { s with regOrder := [], tmrAttached := false, tmrCount := 0, roundPending := false }
      else { s with regOrder := s.regOrder.erase i } := by
  unfold deregister
  by_cases hm : i ∈ s.regOrder
  · simp [hm]
  · rw [if_neg hm, if_neg (fun h => hm h.1), List.erase_of_not_mem hm]

/-- Every legal COUNT of MCONS and MSETCNT stands for 1 to 4 boards (R73). -/
theorem boardCount_legal : ∀ n : BitVec 3, boardCountLegal n = true →
    1 ≤ (boardCount n).toNat ∧ (boardCount n).toNat ≤ 4 := by
  decide

/-- A command that validation lets through names an existing instance, in the state it needs, with legal arguments
(R174, R175). -/
theorem validate_none {c : Instr} {s : State} {i : InstId} (hi : instOperand c = some i) (h : validate c s = none) :
    i.toNat < s.params.ninst ∧ (∀ b, consNeeded c = some b → (s.inst i).cons = b) ∧ argsLegal c = true := by
  simp only [validate, hi] at h
  split at h
  · cases h
  · split at h
    · cases h
    · split at h
      · rename_i h1 h2 h3
        refine ⟨by omega, fun b hb => ?_, h3⟩
        simp [hb] at h2
        exact h2.symm
      · cases h

/-- An instance number that does not exist is rejected first (R174). -/
theorem validate_badArg {c : Instr} {i : InstId} {s : State} (hi : instOperand c = some i)
    (h : s.params.ninst ≤ i.toNat) : validate c s = some .badArg := by
  simp [validate, hi, h]

/-- Then the instance-state check (R174, R175). -/
theorem validate_badState {c : Instr} {i : InstId} {s : State} (hi : instOperand c = some i)
    (h : i.toNat < s.params.ninst) {b : Bool} (hb : consNeeded c = some b) (hc : (s.inst i).cons ≠ b) :
    validate c s = some .badState := by
  simp only [validate, hi, Nat.not_le.mpr h, if_false, hb, Option.any_some]
  rw [if_pos (by simpa using fun e => hc e.symm)]

/-- Then the argument check (R174, R175). -/
theorem validate_args {c : Instr} {i : InstId} {s : State} (hi : instOperand c = some i)
    (h : i.toNat < s.params.ninst) (hc : ∀ b, consNeeded c = some b → (s.inst i).cons = b) :
    validate c s = if argsLegal c then none else some .badArg := by
  have hn : (consNeeded c).any (fun need => need != (s.inst i).cons) = false := by
    cases hn : consNeeded c with
    | none => rfl
    | some b => simp [hc b hn]
  simp [validate, hi, Nat.not_le.mpr h, hn]

/-! ### The three command shapes -/

/-- A class C command is rejected, or runs whole. -/
theorem cacheCommand_cases (c : Instr) (effect : State → State) (s : State) :
    (∃ rc, validate c s = some rc ∧ cacheCommand c effect s = { s with rc := rc }) ∨
      (validate c s = none ∧ cacheCommand c effect s = { effect s with rc := .ok }) := by
  unfold cacheCommand
  cases h : validate c s with
  | some rc => exact .inl ⟨rc, rfl, rfl⟩
  | none => exact .inr ⟨rfl, rfl⟩

/-- Issuing a class R or S command rejects it, or accepts it. -/
theorem issueJob_cases (c : Instr) (s : State) :
    (∃ rc, validate c s = some rc ∧ issueJob c s = { s with rc := rc }) ∨
      (validate c s = none ∧ issueJob c s = { s with jobWord := s.cmdReg, jobData := s.data, busy := true }) := by
  unfold issueJob
  cases h : validate c s with
  | some rc => exact .inl ⟨rc, rfl, rfl⟩
  | none => exact .inr ⟨rfl, rfl⟩

/-- A class R command is issued, granted with its whole rule, or waits. -/
theorem registryCommand_cases (c : Instr) (effect : State → State) (s : State) :
    (s.busy = false ∧ registryCommand c effect s = issueJob c s) ∨
      (s.busy = true ∧ s.seq = .idle ∧
        registryCommand c effect s = finish .ok none (effect { s with lastGrant := .host })) ∨
      (s.busy = true ∧ s.seq ≠ .idle ∧ registryCommand c effect s = s) := by
  unfold registryCommand
  cases hb : s.busy
  · exact .inl ⟨rfl, rfl⟩
  · cases hs : s.seq
    · exact .inr (.inl ⟨rfl, rfl, rfl⟩)
    · exact .inr (.inr ⟨rfl, by simp, rfl⟩)
    · exact .inr (.inr ⟨rfl, by simp, rfl⟩)

/-- A position of a program is held, has no step, or takes its step with the phase hold met. -/
theorem programStep_cases (run : Pos → State → Option (State × Pos)) (p : Pos) (s : State) :
    (∃ t q, (p.isLine = true → phaseMet s = true) ∧ run p s = some (t, q) ∧
        programStep run p s = { t with seq := .hostRun q }) ∨
      programStep run p s = s := by
  unfold programStep
  by_cases h : (p.isLine && !phaseMet s) = true
  · exact .inr (if_pos h)
  · rw [if_neg h]
    cases hr : run p s with
    | none => exact .inr rfl
    | some x => exact .inl ⟨x.1, x.2, fun hl => by simpa [hl] using h, rfl, rfl⟩

/-- A running job at a position other than its finish takes its program's step. -/
theorem sequencedCommand_run (c : Instr) (start : Pos) (run : Pos → State → Option (State × Pos))
    (atFinish : State → State) {s : State} {p : Pos} (hb : s.busy = true) (hs : s.seq = .hostRun p)
    (hp : ∀ rc r, p ≠ .finish rc r) : sequencedCommand c start run atFinish s = programStep run p s := by
  unfold sequencedCommand
  rw [if_pos hb, hs]
  cases p <;> first | rfl | exact absurd rfl (hp _ _)

/-- A class S command is issued, granted, finished, takes a step of its program with the phase hold met, or has no step
enabled. -/
theorem sequencedCommand_cases (c : Instr) (start : Pos) (run : Pos → State → Option (State × Pos))
    (atFinish : State → State) (s : State) :
    (s.busy = false ∧ sequencedCommand c start run atFinish s = issueJob c s) ∨
      (s.busy = true ∧ s.seq = .idle ∧
        sequencedCommand c start run atFinish s = { s with lastGrant := .host, seq := .hostRun start }) ∨
      (∃ rc r, s.busy = true ∧ s.seq = .hostRun (.finish rc r) ∧
        sequencedCommand c start run atFinish s = finish rc r (atFinish s)) ∨
      (∃ p t q, s.busy = true ∧ s.seq = .hostRun p ∧ (∀ rc r, p ≠ .finish rc r) ∧
        (p.isLine = true → phaseMet s = true) ∧ run p s = some (t, q) ∧
        sequencedCommand c start run atFinish s = { t with seq := .hostRun q }) ∨
      sequencedCommand c start run atFinish s = s := by
  cases hb : s.busy
  · exact .inl ⟨rfl, by simp [sequencedCommand, hb]⟩
  · cases hs : s.seq with
    | idle => exact .inr (.inl ⟨rfl, rfl, by simp [sequencedCommand, hb, hs]⟩)
    | round q => exact .inr (.inr (.inr (.inr (by simp [sequencedCommand, hb, hs]))))
    | hostRun p =>
      by_cases hf : ∃ rc r, p = .finish rc r
      · obtain ⟨rc, r, rfl⟩ := hf
        exact .inr (.inr (.inl ⟨rc, r, rfl, rfl, by simp [sequencedCommand, hb, hs]⟩))
      · have hne : ∀ rc r, p ≠ .finish rc r := fun rc r h => hf ⟨rc, r, h⟩
        rw [sequencedCommand_run c start run atFinish hb hs hne]
        obtain ⟨t, q, h1, h2, h3⟩ | h := programStep_cases run p s
        · exact .inr (.inr (.inr (.inl ⟨p, t, q, rfl, rfl, hne, h1, h2, h3⟩)))
        · exact .inr (.inr (.inr (.inr h)))

/-! ### The class S commands in one shape -/

/-- Step 1 of the line program of a class S command (R176). -/
def startOf : Instr → Pos
  | .treset _ _ => .reset .trigX
  | .twrite _ _ => .write .ldLo
  | .twrzero _ => .zero true .ldLo
  | .tread _ _ => .read .ldHi
  | .tanalog _ _ _ => .analog .trigLo
  | .tanalog8 _ _ => .analog .trigLo
  | .mcons _ _ => .reset .trigX
  | .refo _ => .refresh true (.out .ldLo)
  | .refi _ => .refresh true (.inp .ldHi)
  | .ref _ => .refresh true (.out .ldLo)
  | _ => .finish .ok none

/-- The line program of a class S command. -/
def runOf : Instr → Pos → State → Option (State × Pos)
  | .treset i imm => tresetRun i (resetTimeout imm)
  | .twrite i n => twriteRun i n.toNat
  | .twrzero i => twrzeroRun i
  | .tread i n => treadRun i n.toNat
  | .tanalog i a imm => tanalogRun i a (analogTimeout imm)
  | .tanalog8 i a => tanalog8Run i a
  | .mcons i n => mconsRun i (boardCount n)
  | .refo i => refoRun i
  | .refi i => refiRun i
  | .ref i => refRun i
  | _ => fun _ _ => none

/-- What the finish of a class S command writes besides RC, RESULT, BUSY and SEQ. -/
def finishOf : Instr → State → State
  | .mcons i _ => markConstructed i
  | _ => id

theorem exec_sequenced (c : Instr) (h : cmdClass c = .sequenced) (s : State) :
    exec c s = .next (sequencedCommand c (startOf c) (runOf c) (finishOf c) s) := by
  cases c <;> first | rfl | cases h

/-- The whole effect of a class R command. -/
def effectOf : Instr → State → State
  | .mdestroy i => destroyInst i
  | .msetcnt i n => fun s => s.setInst i { s.inst i with bc := boardCount n }
  | .mreg i imm => register i (refreshPeriod imm)
  | _ => id

theorem exec_registry (c : Instr) (h : cmdClass c = .registry) (s : State) :
    exec c s = .next (registryCommand c (effectOf c) s) := by
  cases c <;> first | rfl | cases h

/-- The effect of a class C command besides RC. -/
def cacheEffectOf : Instr → State → State
  | .mmute i v => fun s => s.setInst i { s.inst i with mute := v }
  | .setob i b c v => fun s => s.setInst i (withOutBit (s.inst i) b c v)
  | .setom i b S R => fun s => s.setInst i (withOutMask (s.inst i) b S R)
  | .getob i b c => fun s => { s with result := cacheBit (s.inst i) (s.inst i).out b c }
  | .getom i b => fun s => { s with result := cacheByte (s.inst i) (s.inst i).out b }
  | .getib i b c => fun s => { s with result := cacheBit (s.inst i) (s.inst i).inp b c }
  | .getpib i b c => fun s => { s with result := cacheBit (s.inst i) (s.inst i).prev b c }
  | .getim i b => fun s => { s with result := cacheByte (s.inst i) (s.inst i).inp b }
  | .getpim i b => fun s => { s with result := cacheByte (s.inst i) (s.inst i).prev b }
  | _ => id

theorem exec_cache (c : Instr) (h : cmdClass c = .cache) (s : State) :
    exec c s = .next (cacheCommand c (cacheEffectOf c) s) := by
  cases c <;> first | rfl | cases h

/-- While BUSY = 0 a command of class R or S is issued (R172). -/
theorem exec_issue {c : Instr} (hc : cmdClass c ≠ .cache) {s : State} (hb : s.busy = false) :
    exec c s = .next (issueJob c s) := by
  cases h : cmdClass c with
  | cache => exact absurd h hc
  | registry => rw [exec_registry c h, registryCommand, if_neg (by simp [hb])]
  | sequenced => rw [exec_sequenced c h, sequencedCommand, if_neg (by simp [hb])]

/-- How a command of class R or S is issued, said of the command's own checks (R172 to R175). -/
theorem issues_of {c : Instr} {i : InstId} (hi : instOperand c = some i) (hc : cmdClass c ≠ .cache) {legal : Prop}
    (hl : argsLegal c = true ↔ legal) : Issues c i (consNeeded c) legal := by
  intro s hb
  rw [exec_issue hc hb]
  refine ⟨fun h => ?_, fun h ⟨b, h1, h2⟩ => ?_, fun h h1 h2 => ?_, fun h h1 h2 => ?_⟩
  · simp [issueJob, validate_badArg hi h, reject]
  · simp [issueJob, validate_badState hi h h1 h2, reject]
  · rw [issueJob, validate_args hi h h1, if_neg (fun e => h2 (hl.mp e))]; rfl
  · rw [issueJob, validate_args hi h h1, if_pos (hl.mpr h2)]; rfl

/-- How a command of class C that needs a constructed instance is rejected (R121, R175). -/
theorem rejectsUnconstructed_of {c : Instr} {i : InstId} (hi : instOperand c = some i) (hc : cmdClass c = .cache)
    (hn : consNeeded c = some true) (s : State) : RejectsUnconstructed c i s := by
  refine ⟨fun h => ?_, fun h h1 => ?_⟩ <;> rw [exec_cache c hc]
  · simp [cacheCommand, validate_badArg hi h, reject]
  · simp [cacheCommand, validate_badState hi h hn (by simp [h1]), reject]

/-- What a class C command that needs a constructed instance does on one (R121). -/
theorem exec_cache_constructed {c : Instr} {i : InstId} (hi : instOperand c = some i) (hc : cmdClass c = .cache)
    (hn : consNeeded c = some true) (ha : argsLegal c = true) {s : State} (hk : Constructed i s) :
    exec c s = .next { cacheEffectOf c s with rc := .ok } := by
  have hv : validate c s = none := by
    rw [validate_args hi hk.1 (fun b hb => by rw [hn] at hb; cases hb; exact hk.2), if_pos ha]
  rw [exec_cache c hc, cacheCommand, hv]

/-! ### Cache bytes -/

@[simp] theorem bankGet_bankSet_self (k : Bank) {b : Nat} (x : Byte) (h : b < 4) : bankGet (bankSet k b x) b = x := by
  simp [bankGet, bankSet, h]

theorem bankGet_bankSet_ne (k : Bank) {b d : Nat} (x : Byte) (h : d ≠ b) : bankGet (bankSet k b x) d = bankGet k d := by
  unfold bankGet bankSet
  by_cases hd : d < 4 <;> by_cases hb : b < 4 <;> simp [hd, hb, Vector.getElem_set]
  intro e; exact absurd e.symm h

/-- The lanes of a byte after one bit is replaced (R122). -/
theorem setBit_lane (x : Byte) {c k : Nat} (v : Bool) (hc : c < 8) (hk : k < 8) :
    (setBit x c v).getLsbD k = if k = c then v else x.getLsbD k := by
  have h1 : ∀ c k : Fin 8, (1#8 <<< c.val).getLsbD k.val = decide (k = c) := by decide
  have h2 : ∀ (v : Bool) (c k : Fin 8),
      ((BitVec.ofBool v).setWidth 8 <<< c.val).getLsbD k.val = (v && decide (k = c)) := by decide
  have e1 := h1 ⟨c, hc⟩ ⟨k, hk⟩
  have e2 := h2 v ⟨c, hc⟩ ⟨k, hk⟩
  simp only [Fin.mk.injEq] at e1 e2
  rw [setBit, BitVec.getLsbD_or, BitVec.getLsbD_and, BitVec.getLsbD_not, e1, e2]
  by_cases h : k = c <;> simp [h, hk]

end Sys2Proof.Machine
end

