-- ==== Sys2Proof/Laws/Decode.lean ====
section
/-! SUPPORT. The fields of a command word (R70): what each field of an assembled word is, that a word is assembled from
its fields, and that the machine's argument check is well-formedness. -/

namespace Sys2Proof

section
variable (imm : BitVec 16) (v : Bool) (ch : BitVec 4) (b i : BitVec 3) (op : BitVec 5)

/-- Each bit of an assembled word. -/
theorem cmd32_getLsbD (k : Nat) : (cmd32 imm v ch b i op).getLsbD k =
    if k < 5 then op.getLsbD k else if k < 8 then i.getLsbD (k - 5) else if k < 11 then b.getLsbD (k - 8)
    else if k < 15 then ch.getLsbD (k - 11) else if k < 16 then v else imm.getLsbD (k - 16) := by
  have h : (imm ++ BitVec.ofBool v ++ ch ++ b ++ i ++ op).getLsbD k = _ := BitVec.getLsbD_append
  refine h.trans ?_
  simp only [BitVec.getLsbD_append, Nat.sub_sub]
  split_ifs <;> first | rfl | omega | skip
  simp [show k = 15 by omega]

theorem fieldOp_cmd32 : fieldOp (cmd32 imm v ch b i op) = op := by
  refine BitVec.eq_of_getLsbD_eq fun k hk => ?_
  simp [fieldOp, -BitVec.getLsbD_eq_getElem, hk, cmd32_getLsbD]

theorem fieldInst_cmd32 : fieldInst (cmd32 imm v ch b i op) = i := by
  refine BitVec.eq_of_getLsbD_eq fun k hk => ?_
  simp only [fieldInst, BitVec.getLsbD_extractLsb', hk, decide_true, Bool.true_and, cmd32_getLsbD]
  rw [if_neg (by omega), if_pos (by omega), show 5 + k - 5 = k by omega]

theorem fieldBoard_cmd32 : fieldBoard (cmd32 imm v ch b i op) = b := by
  refine BitVec.eq_of_getLsbD_eq fun k hk => ?_
  simp only [fieldBoard, BitVec.getLsbD_extractLsb', hk, decide_true, Bool.true_and, cmd32_getLsbD]
  rw [if_neg (by omega), if_neg (by omega), if_pos (by omega), show 8 + k - 8 = k by omega]

theorem fieldChan_cmd32 : fieldChan (cmd32 imm v ch b i op) = ch := by
  refine BitVec.eq_of_getLsbD_eq fun k hk => ?_
  simp only [fieldChan, BitVec.getLsbD_extractLsb', hk, decide_true, Bool.true_and, cmd32_getLsbD]
  rw [if_neg (by omega), if_neg (by omega), if_neg (by omega), if_pos (by omega), show 11 + k - 11 = k by omega]

theorem fieldVal_cmd32 : fieldVal (cmd32 imm v ch b i op) = v :=
  cmd32_getLsbD imm v ch b i op 15

theorem fieldImm_cmd32 : fieldImm (cmd32 imm v ch b i op) = imm := by
  refine BitVec.eq_of_getLsbD_eq fun k hk => ?_
  simp only [fieldImm, BitVec.getLsbD_extractLsb', hk, decide_true, Bool.true_and, cmd32_getLsbD]
  rw [if_neg (by omega), if_neg (by omega), if_neg (by omega), if_neg (by omega), if_neg (by omega),
    show 16 + k - 16 = k by omega]

end

/-- `SET` is the low byte of `IMM16`. -/
theorem fieldSet_eq (w : Word) : fieldSet w = (fieldImm w).extractLsb' 0 8 := by
  refine BitVec.eq_of_getLsbD_eq fun k hk => ?_
  simp [fieldSet, fieldImm, hk, show k < 16 by omega]

/-- `RST` is the high byte of `IMM16`. -/
theorem fieldRst_eq (w : Word) : fieldRst w = (fieldImm w).extractLsb' 8 8 := by
  refine BitVec.eq_of_getLsbD_eq fun k hk => ?_
  simp [fieldRst, fieldImm, hk, show 8 + k < 16 by omega, show 16 + (8 + k) = 24 + k by omega]

/-- A word is assembled from its fields. -/
theorem cmd32_fields (w : Word) :
    cmd32 (fieldImm w) (fieldVal w) (fieldChan w) (fieldBoard w) (fieldInst w) (fieldOp w) = w := by
  refine BitVec.eq_of_getLsbD_eq fun k hk => ?_
  rw [cmd32_getLsbD]
  simp only [fieldImm, fieldVal, fieldChan, fieldBoard, fieldInst, fieldOp, BitVec.getLsbD_extractLsb']
  split_ifs
  · simp_all
  · rw [decide_eq_true (by omega), show 5 + (k - 5) = k by omega]; rfl
  · rw [decide_eq_true (by omega), show 8 + (k - 8) = k by omega]; rfl
  · rw [decide_eq_true (by omega), show 11 + (k - 11) = k by omega]; rfl
  · rw [show k = 15 by omega]
  · rw [decide_eq_true (by omega), show 16 + (k - 16) = k by omega]; rfl

/-- The machine's argument check (R175) is the well-formedness of the command (R73). -/
theorem argsLegal_eq_wellFormed (c : Instr) : Machine.argsLegal c = c.wellFormed := by
  cases c <;> rfl

end Sys2Proof
end

