-- ==== Sys2Proof/Laws/Invariant.lean ====
section
/-! SUPPORT. What keeps the invariant `Inv`: the updates that do not touch it, a class C command, the issue of a job, the
grant of a class R command, a step of a line program, a finish, and so any step of a host job. -/

namespace Sys2Proof.Machine

/-- Everything the invariant speaks of is the same. -/
def SameInv (s t : State) : Prop :=
  t.params = s.params ∧ t.seq = s.seq ∧ t.busy = s.busy ∧ t.jobWord = s.jobWord ∧ t.tmrAttached = s.tmrAttached ∧
  t.tmrPeriod = s.tmrPeriod ∧ t.tmrCount = s.tmrCount ∧ t.roundPending = s.roundPending ∧
  t.roundActive = s.roundActive ∧ t.roundPos = s.roundPos ∧ t.regOrder = s.regOrder ∧ t.insts = s.insts

/-- The invariant depends on nothing but the fields of `SameInv`. -/
theorem Inv.congr {s t : State} (h : Inv s) (e : SameInv s t) : Inv t := by
  cases s; cases t
  obtain ⟨e1, e2, e3, e4, e5, e6, e7, e8, e9, e10, e11, e12⟩ := e
  simp only at e1 e2 e3 e4 e5 e6 e7 e8 e9 e10 e11 e12
  subst e1 e2 e3 e4 e5 e6 e7 e8 e9 e10 e11 e12
  exact ⟨h.params, h.absent, h.boardCount, h.period, h.detached, h.distinct, h.constructed, h.attached, h.pending,
    h.active, h.position, h.turn, h.job, h.run, h.idle⟩

/-- Choosing the next step keeps the invariant. -/
theorem inv_dropAction {s : State} (h : Inv s) : Inv (dropAction s) :=
  h.congr (by simp [SameInv])

/-- Replacing an existing instance by one with the same lines, CONS and BC keeps the invariant. -/
theorem inv_setInst {s : State} (h : Inv s) (i : InstId) (x : Instance) (hi : i.toNat < s.params.ninst)
    (hl : x.lines = (s.inst i).lines) (hc : x.cons = (s.inst i).cons) (hb : x.bc = (s.inst i).bc) :
    Inv (s.setInst i x) := by
  have key : ∀ j, ((s.setInst i x).inst j).lines = (s.inst j).lines ∧ ((s.setInst i x).inst j).cons = (s.inst j).cons ∧
      ((s.setInst i x).inst j).bc = (s.inst j).bc := by
    intro j
    rw [inst_setInst]
    split
    · rename_i e; subst e; exact ⟨hl, hc, hb⟩
    · exact ⟨rfl, rfl, rfl⟩
  have hv : ∀ c, validate c (s.setInst i x) = validate c s := by
    intro c; simp only [validate, setInst_params, key]
  have hr : ∀ (p : RefreshPos) j, p.ok (s.inst j) → p.ok ((s.setInst i x).inst j) := by
    intro p j
    cases p <;> simp [RefreshPos.ok, key]
  have hp : ∀ (p : Pos) c j, p.ok c (s.inst j) → p.ok c ((s.setInst i x).inst j) := by
    intro p c j
    cases p <;> simp only [Pos.ok, key]
    case refresh ok p => exact fun h => ⟨hr _ _ h.1, h.2⟩
    all_goals exact id
  refine ⟨h.params, ?_, ?_, h.period, h.detached, h.distinct, ?_, h.attached, h.pending, h.active, h.position, ?_, ?_, ?_, ?_⟩
  · intro j hj
    rw [inst_setInst_ne]
    · exact h.absent j hj
    · rintro rfl; simp at hj; omega
  · intro j; rw [(key j).2.2]; exact h.boardCount j
  · intro j hj; rw [(key j).2.1]; exact h.constructed j hj
  · intro p hp
    obtain ⟨j, hj, ho⟩ := h.turn p hp
    exact ⟨j, hj, hr _ _ ho⟩
  · intro hb; obtain ⟨c, h1, h2, h3⟩ := h.job hb; exact ⟨c, h1, h2, by rw [hv]; exact h3⟩
  · intro p hp'
    obtain ⟨h1, c, j, h2, h3, h4⟩ := h.run p hp'
    exact ⟨h1, c, j, h2, h3, hp _ _ _ h4⟩
  · intro j hj; rw [(key j).1]; exact h.idle j hj

/-- A class C command keeps the invariant. -/
theorem inv_cacheCommand {s : State} (h : Inv s) (c : Instr) (hc : cmdClass c = .cache) :
    Inv (cacheCommand c (cacheEffectOf c) s) := by
  obtain ⟨rc, -, he⟩ | ⟨hv, he⟩ := cacheCommand_cases c (cacheEffectOf c) s
  · rw [he]; exact h.congr (by simp [SameInv])
  · rw [he]
    have hrc : ∀ t : State, Inv t → Inv { t with rc := .ok } := fun t ht => ht.congr (by simp [SameInv])
    apply hrc
    cases c <;> simp only [cmdClass, reduceCtorEq] at hc <;> simp only [cacheEffectOf, id]
    case nop => exact h
    case mmute i v => exact inv_setInst h i _ (validate_none rfl hv).1 rfl rfl rfl
    case setob i b ch v =>
      refine inv_setInst h i _ (validate_none rfl hv).1 ?_ ?_ ?_ <;> (unfold withOutBit; split <;> rfl)
    case setom i b S R =>
      refine inv_setInst h i _ (validate_none rfl hv).1 ?_ ?_ ?_ <;> (unfold withOutMask; split <;> rfl)
    all_goals exact h.congr (by simp [SameInv])

/-- No port is worked on while SEQ = IDLE. -/
theorem runningPort_idle {s : State} (h : s.seq = .idle) : runningPort s = none := by simp [runningPort, h]

/-- Issuing a class R or S command keeps the invariant (R172). -/
theorem inv_issueJob {s : State} (h : Inv s) (c : Instr) (hc : cmdClass c ≠ .cache) (hb : s.busy = false)
    (hw : decode s.cmdReg = .ok c) : Inv (issueJob c s) := by
  obtain ⟨rc, -, he⟩ | ⟨hv, he⟩ := issueJob_cases c s
  · rw [he]; exact h.congr (by simp [SameInv])
  · rw [he]
    have hnr : ∀ p, s.seq ≠ .hostRun p := by
      intro p hp
      have := (h.run p hp).1
      simp [hb] at this
    refine ⟨h.params, h.absent, h.boardCount, h.period, h.detached, h.distinct, h.constructed, h.attached, h.pending,
      h.active, h.position, h.turn, ?_, ?_, ?_⟩
    · intro _; exact ⟨c, hw, hc, hv⟩
    · intro p hp; exact absurd hp (hnr p)
    · intro i hi
      apply h.idle i
      intro hr
      apply hi
      cases hs : s.seq with
      | idle => simp [runningPort, hs] at hr
      | hostRun p => exact absurd hs (hnr p)
      | round p =>
        cases p with
        | none => simp [runningPort, hs] at hr
        | some q => simpa [runningPort, hs] using hr

/-- The command of the job is what its word decodes to. -/
theorem jobCommand_of {s : State} {c : Instr} (h : decode s.jobWord = .ok c) : jobCommand s = some c := by
  simp [jobCommand, h]

/-- The grant of a class R command, its whole rule and its finish included, keeps the invariant (R176). -/
theorem inv_registry_grant {s : State} (h : Inv s) (c : Instr) (hc : cmdClass c = .registry) (hb : s.busy = true)
    (hs : s.seq = .idle) (hw : decode s.jobWord = .ok c) :
    Inv (finish .ok none (effectOf c { s with lastGrant := .host })) := by
  obtain ⟨c', hw', -, hv⟩ := h.job hb
  rw [hw] at hw'; cases hw'
  have hra : s.roundActive = false := by
    by_contra hra
    obtain ⟨p, hp⟩ := h.active.mp (by simpa using hra)
    rw [hs] at hp; cases hp
  have hidle : ∀ i, (s.inst i).lines = Lines.idle := fun i => h.idle i (by simp [runningPort, hs])
  cases c <;> simp only [cmdClass, reduceCtorEq] at hc <;> simp only [effectOf]
  case msetcnt i n =>
    obtain ⟨hi, hcons, harg⟩ := validate_none (i := i) rfl hv
    have hn : 1 ≤ (boardCount n).toNat ∧ (boardCount n).toNat ≤ 4 := by
      exact boardCount_legal n harg
    have key : ∀ j, ∀ t : State, t = finish .ok none (State.setInst { s with lastGrant := .host } i { s.inst i with bc := boardCount n }) →
        (t.inst j).lines = Lines.idle ∧ (t.inst j).cons = (s.inst j).cons ∧ (1 ≤ (t.inst j).bc.toNat ∧ (t.inst j).bc.toNat ≤ 4) := by
      rintro j t rfl
      rw [finish_inst, inst_setInst]
      split
      · rename_i e; subst e; exact ⟨hidle i, rfl, hn⟩
      · exact ⟨hidle j, rfl, h.boardCount j⟩
    refine ⟨h.params, ?_, fun j => (key j _ rfl).2.2, h.period, h.detached, h.distinct, ?_, h.attached, h.pending, ?_, h.position, ?_, ?_, ?_, fun j _ => (key j _ rfl).1⟩
    · intro j hj
      rw [finish_inst, inst_setInst_ne]
      · exact h.absent j hj
      · rintro rfl; simp at hj; omega
    · intro j hj; exact ((key j _ rfl).2.1).trans (h.constructed j hj)
    · simp [hra]
    · simp
    · simp
    · simp
  case mdestroy i =>
    obtain ⟨hi, hcons, harg⟩ := validate_none (i := i) rfl hv
    have hdi : ∀ j, (deregister i { s with lastGrant := .host }).inst j = s.inst j := by
      intro j; rw [deregister_eq]; split <;> rfl
    have key : ∀ j, ∀ t : State, t = finish .ok none (destroyInst i { s with lastGrant := .host }) →
        (t.inst j).lines = Lines.idle ∧ (i ≠ j → t.inst j = s.inst j) ∧ (1 ≤ (t.inst j).bc.toNat ∧ (t.inst j).bc.toNat ≤ 4) := by
      rintro j t rfl
      rw [finish_inst, destroyInst, clearInst, inst_setInst]
      split
      · rename_i e; subst e; exact ⟨by rw [hdi]; exact hidle _, fun h => absurd rfl h, show 1 ≤ (1#3).toNat ∧ (1#3).toNat ≤ 4 by decide⟩
      · rw [hdi]; exact ⟨hidle j, fun _ => rfl, h.boardCount j⟩
    have horder : ∀ t : State, t = deregister i { s with lastGrant := .host } →
        t.params = s.params ∧ t.tmrPeriod = s.tmrPeriod ∧ t.roundActive = s.roundActive ∧ t.regOrder = s.regOrder.erase i ∧
        (t.tmrAttached = false → t.tmrCount = 0) ∧ (t.tmrAttached = true ↔ t.regOrder ≠ []) ∧
        (t.roundPending = true → t.tmrAttached = true) := by
      rintro t rfl
      rw [deregister_eq]
      have ha := h.attached; have hpd := h.pending; have hdt := h.detached
      split
      · rename_i hm; exact ⟨rfl, rfl, rfl, hm.2.symm, fun _ => rfl, by simp, by simp⟩
      · rename_i hm
        refine ⟨rfl, rfl, rfl, rfl, hdt, ?_, fun hh => hpd (.inl hh)⟩
        simp only at hm ⊢
        rw [ha]
        constructor
        · intro hne he
          by_cases hi : i ∈ s.regOrder
          · exact hm ⟨hi, he⟩
          · rw [List.erase_of_not_mem hi] at he; exact hne he
        · rintro hne he; simp [he] at hne
    obtain ⟨o1, o2, o3, o4, o5, o6, o7⟩ := horder _ rfl
    have key2 := fun j => key j _ rfl
    clear key horder hdi
    simp only [destroyInst, clearInst] at key2 ⊢
    replace o3 := o3.trans hra
    generalize deregister i { s with lastGrant := .host } = u at *
    refine ⟨?_, ?_, fun j => (key2 j).2.2, ?_, ?_, ?_, ?_, ?_, ?_, ?_, ?_, ?_, ?_, ?_, fun j _ => (key2 j).1⟩
    · simpa [o1] using h.params
    · intro j hj
      have hne : i ≠ j := by rintro rfl; simp [o1] at hj; omega
      rw [(key2 j).2.1 hne]
      exact h.absent j (by simpa [o1] using hj)
    · simpa [o2] using h.period
    · simpa using o5
    · simpa [o4] using h.distinct.erase i
    · intro j hj
      simp only [finish_regOrder, setInst_regOrder, o4] at hj
      have hne : i ≠ j := by
        rintro rfl
        exact (List.Nodup.not_mem_erase h.distinct) hj
      rw [(key2 j).2.1 hne]
      exact h.constructed j (List.mem_of_mem_erase hj)
    · simpa using o6
    · simpa [o3] using o7
    · simp [o3]
    · simp [o3]
    · simp
    · simp
    · simp
  case mreg i imm =>
    obtain ⟨hi, hcons, harg⟩ := validate_none (i := i) rfl hv
    have hcons := hcons true rfl
    refine ⟨h.params, h.absent, h.boardCount, ?_, ?_, ?_, ?_, ?_, ?_, ?_, ?_, ?_, ?_, ?_, fun j _ => hidle j⟩
    · simp only [finish_tmrPeriod, register, refreshPeriod, immOr, refreshPeriodDefault]
      split
      · decide
      · rename_i hne
        have : imm.toNat ≠ 0 := fun e => hne (BitVec.eq_of_toNat_eq (by simpa using e))
        omega
    · simp [register]
    · simp only [finish_regOrder, register]
      split
      · exact h.distinct
      · rename_i hm
        rw [List.nodup_append]
        refine ⟨h.distinct, by simp, ?_⟩
        rintro a ha b hb rfl
        simp at hb; subst hb; exact hm ha
    · intro j hj
      simp only [finish_regOrder, register] at hj
      change (s.inst j).cons = true
      split at hj
      · exact h.constructed j hj
      · rcases List.mem_append.mp hj with hj | hj
        · exact h.constructed j hj
        · simp at hj; subst hj; exact hcons
    · simp only [finish_tmrAttached, finish_regOrder, register, true_iff]
      split
      · rename_i hm; rintro e; simp [e] at hm
      · simp
    · simp [register]
    · simp [register, hra]
    · simp [register, hra]
    · simp
    · simp
    · simp

/-- What a step of the line program of a class S command may change: as `RefreshFrame`, and for MCONS the caches and the
board count, which stays legal. -/
structure RunFrame (i : InstId) (s t : State) : Prop where
  shared : SameShared s t
  seq : t.seq = s.seq
  busy : t.busy = s.busy
  jobWord : t.jobWord = s.jobWord
  jobData : t.jobData = s.jobData
  result : t.result = s.result
  rc : t.rc = s.rc
  lastGrant : t.lastGrant = s.lastGrant
  cons : (t.inst i).cons = (s.inst i).cons
  mute : (t.inst i).mute = (s.inst i).mute
  bc : (t.inst i).bc = (s.inst i).bc ∨ (1 ≤ (t.inst i).bc.toNat ∧ (t.inst i).bc.toNat ≤ 4)
  others : ∀ j, i ≠ j → t.inst j = s.inst j

/-- A step of a refresh is within the frame of a program step. -/
theorem RefreshFrame.run {i : InstId} {s t : State} (h : RefreshFrame i s t) : RunFrame i s t where
  shared := h.shared
  seq := h.seq
  busy := h.busy
  jobWord := h.jobWord
  jobData := h.jobData
  result := h.result
  rc := h.rc
  lastGrant := h.lastGrant
  cons := h.cons
  mute := h.mute
  bc := .inl h.bc
  others := h.others

/-- A step of a part either stays in the part or leads on in the command. -/
theorem some_within {π ρ κ : Type} {x : Progress π ρ} {inside : π → κ} {after : ρ → κ} {t : State} {q : κ}
    (h : some (x.within inside after) = some (t, q)) :
    (∃ p, x = .more t p ∧ q = inside p) ∨ (∃ r, x = .done t r ∧ q = after r) := by
  cases x with
  | more s p => simp [Progress.within] at h; exact .inl ⟨p, by simp [h.1], h.2.symm⟩
  | done s r => simp [Progress.within] at h; exact .inr ⟨r, by simp [h.1], h.2.symm⟩

/-- Step 1 of a line program finds the idle lines it asks for. -/
theorem startOf_ok (c : Instr) (h : cmdClass c = .sequenced) (x : Instance) (hx : x.lines = Lines.idle) :
    (startOf c).ok c x := by
  cases c <;> simp only [cmdClass, reduceCtorEq] at h <;>
    simp [startOf, Pos.ok, ResetPos.linesOk, WritePos.linesOk, ReadPos.linesOk, ReadPos.countOk, AnalogPos.linesOk, RefreshPos.ok, hx]

/-- Frames compose. -/
theorem RunFrame.trans {i : InstId} {s t u : State} (h : RunFrame i s t) (k : RunFrame i t u) : RunFrame i s u where
  shared := by
    have := h.shared; have := k.shared
    simp_all [SameShared]
  seq := k.seq.trans h.seq
  busy := k.busy.trans h.busy
  jobWord := k.jobWord.trans h.jobWord
  jobData := k.jobData.trans h.jobData
  result := k.result.trans h.result
  rc := k.rc.trans h.rc
  lastGrant := k.lastGrant.trans h.lastGrant
  cons := k.cons.trans h.cons
  mute := k.mute.trans h.mute
  bc := by
    rcases k.bc with e | e
    · rcases h.bc with e' | e'
      · exact .inl (e.trans e')
      · exact .inr (by rw [e]; exact e')
    · exact .inr e
  others := fun j hj => (k.others j hj).trans (h.others j hj)

/-- The init of MCONS is within the frame of a program step and changes no line (R147). -/
theorem constructEntry_frame (i : InstId) (n : BitVec 3) (q : ResetPos) (s : State)
    (hn : 1 ≤ n.toNat ∧ n.toNat ≤ 4) : RunFrame i s (constructEntry i n q s) ∧
      ((constructEntry i n q s).inst i).lines = (s.inst i).lines := by
  have hself : RunFrame i s s := (LineFrame.refl i s).refresh.run
  cases q <;> simp only [constructEntry] <;> try exact ⟨hself, trivial⟩
  refine ⟨?_, by simp [constructInit]⟩
  exact {
    shared := by simp [SameShared, constructInit]
    seq := rfl, busy := rfl, jobWord := rfl, jobData := rfl, result := rfl, rc := rfl, lastGrant := rfl
    cons := by simp [constructInit], mute := by simp [constructInit]
    bc := .inr (by simpa [constructInit] using hn)
    others := fun j hj => by simp [constructInit, inst_setInst, hj] }

/-- A step of RESET inside a command: levels and frame. -/
theorem resetStep_run {i : InstId} {T : Word} {r : ResetPos} {s : State} (h : r.linesOk (s.inst i).lines) :
    (∀ t r', resetStep i T r s = .more t r' → r'.linesOk (t.inst i).lines ∧ RunFrame i s t) ∧
      (∀ t ok, resetStep i T r s = .done t ok → (t.inst i).lines = Lines.idle ∧ RunFrame i s t) := by
  have h1 := resetStep_lines i T r s h
  have h2 := (resetStep_frame i T r s).refresh.run
  constructor <;> (intro t r' e; rw [e] at h1 h2; exact ⟨h1, h2⟩)

/-- A step of WRITEOUT inside a command: levels and frame. -/
theorem writeStep_run {i : InstId} {bytes : List Byte} {r : WritePos} {s : State} (h : r.linesOk (s.inst i).lines) :
    (∀ t r', writeStep i bytes r s = .more t r' → r'.linesOk (t.inst i).lines ∧ RunFrame i s t) ∧
      (∀ t ok, writeStep i bytes r s = .done t ok → (t.inst i).lines = Lines.idle ∧ RunFrame i s t) := by
  have h1 := writeStep_lines i bytes r s h
  have h2 := (writeStep_frame i bytes r s).refresh.run
  constructor <;> (intro t r' e; rw [e] at h1 h2; exact ⟨h1, h2⟩)

/-- A step of READIN inside a command: levels, count and frame. -/
theorem readStep_run {i : InstId} {n : Nat} {r : ReadPos} {s : State} (h : r.linesOk (s.inst i).lines)
    (hc : r.countOk n) :
    (∀ t r', readStep i n r s = .more t r' → (r'.linesOk (t.inst i).lines ∧ r'.countOk n) ∧ RunFrame i s t) ∧
      (∀ t bytes, readStep i n r s = .done t bytes → (t.inst i).lines = Lines.idle ∧ RunFrame i s t) := by
  have h1 := readStep_lines i n r s h hc
  have h2 := (readStep_frame i n r s).refresh.run
  constructor <;> (intro t r' e; rw [e] at h1 h2)
  · exact ⟨h1, h2⟩
  · exact ⟨h1.1, h2⟩

/-- A step of ANALOG inside a command: levels and frame. -/
theorem analogStep_run {i : InstId} {a : Bool} {T : Word} {r : AnalogPos} {s : State} (h : r.linesOk a (s.inst i).lines) :
    (∀ t r', analogStep i a T r s = .more t r' → r'.linesOk a (t.inst i).lines ∧ RunFrame i s t) ∧
      (∀ t ok, analogStep i a T r s = .done t ok → (t.inst i).lines = Lines.idle ∧ RunFrame i s t) := by
  have h1 := analogStep_lines i a T r s h
  have h2 := (analogStep_frame i a T r s).refresh.run
  constructor <;> (intro t r' e; rw [e] at h1 h2; exact ⟨h1, h2⟩)

/-- A step of a refresh inside a command: levels, count and frame. -/
theorem refreshStep_run {i : InstId} {r : RefreshPos} {s : State} (h : r.ok (s.inst i)) :
    (∀ t r', refreshStep i r s = .more t r' → r'.ok (t.inst i) ∧ RunFrame i s t) ∧
      (∀ t ok, refreshStep i r s = .done t ok → (t.inst i).lines = Lines.idle ∧ RunFrame i s t) := by
  have h1 := refreshStep_ok i r s h
  have h2 := (refreshStep_frame i r s).run
  constructor <;> (intro t r' e; rw [e] at h1 h2; exact ⟨h1, h2⟩)

/-- A step of a class S command leads to a position of it, within the frame. -/
theorem runOf_ok (c : Instr) (i : InstId) (hi : instOperand c = some i) (harg : argsLegal c = true)
    (p : Pos) (s t : State) (q : Pos)
    (hr : runOf c p s = some (t, q)) (hp : p.ok c (s.inst i)) : q.ok c (t.inst i) ∧ RunFrame i s t := by
  cases c <;> simp only [runOf, reduceCtorEq] at hr <;> cases Option.some.inj hi
  case treset imm =>
    cases p <;> simp only [tresetRun, reduceCtorEq] at hr
    obtain ⟨p', e, rfl⟩ | ⟨ok, e, rfl⟩ := some_within hr
    · have h := (resetStep_run hp.1).1 _ _ e; exact ⟨⟨h.1, trivial⟩, h.2⟩
    · have h := (resetStep_run hp.1).2 _ _ e; exact ⟨⟨h.1, rfl⟩, h.2⟩
  case twrite n =>
    cases p <;> simp only [twriteRun, reduceCtorEq] at hr
    obtain ⟨p', e, rfl⟩ | ⟨ok, e, rfl⟩ := some_within hr
    · have h := (writeStep_run hp.1).1 _ _ e; exact ⟨⟨h.1, trivial⟩, h.2⟩
    · have h := (writeStep_run hp.1).2 _ _ e; exact ⟨⟨h.1, rfl⟩, h.2⟩
  case twrzero =>
    cases p <;> simp only [twrzeroRun, reduceCtorEq] at hr
    obtain ⟨p', e, rfl⟩ | ⟨ok, e, rfl⟩ := some_within hr
    · have h := (writeStep_run hp.1).1 _ _ e; exact ⟨⟨h.1, trivial⟩, h.2⟩
    · have h := (writeStep_run hp.1).2 _ _ e; exact ⟨⟨h.1, rfl⟩, h.2⟩
  case tread n =>
    cases p <;> simp only [treadRun, reduceCtorEq] at hr
    obtain ⟨p', e, rfl⟩ | ⟨ok, e, rfl⟩ := some_within hr
    · have h := (readStep_run hp.1 hp.2).1 _ _ e; exact ⟨h.1, h.2⟩
    · have h := (readStep_run hp.1 hp.2).2 _ _ e; exact ⟨⟨h.1, rfl⟩, h.2⟩
  case tanalog a imm =>
    cases p <;> simp only [tanalogRun, reduceCtorEq] at hr
    obtain ⟨p', e, rfl⟩ | ⟨ok, e, rfl⟩ := some_within hr
    · have h := (analogStep_run hp).1 _ _ e; exact ⟨h.1, h.2⟩
    · have h := (analogStep_run hp).2 _ _ e; exact ⟨⟨h.1, rfl⟩, h.2⟩
  case tanalog8 a =>
    cases p <;> simp only [tanalog8Run, reduceCtorEq] at hr
    obtain ⟨p', e, rfl⟩ | ⟨ok, e, rfl⟩ := some_within hr
    · have h := (analogStep_run hp).1 _ _ e; exact ⟨h.1, h.2⟩
    · have h := (analogStep_run hp).2 _ _ e; exact ⟨⟨h.1, rfl⟩, h.2⟩
  case mcons n =>
    cases p <;> simp only [mconsRun, reduceCtorEq] at hr
    case reset r =>
      have hn := boardCount_legal n harg
      obtain ⟨hf, hl⟩ := constructEntry_frame i (boardCount n) r s hn
      have hp' : r.linesOk ((constructEntry i (boardCount n) r s).inst i).lines := by rw [hl]; exact hp.1
      obtain ⟨p', e, rfl⟩ | ⟨ok, e, rfl⟩ := some_within hr
      · have h := (resetStep_run hp').1 _ _ e; exact ⟨⟨h.1, trivial⟩, hf.trans h.2⟩
      · have h := (resetStep_run hp').2 _ _ e; exact ⟨⟨h.1, trivial⟩, hf.trans h.2⟩
    case zero ok r =>
      obtain ⟨p', e, rfl⟩ | ⟨ok, e, rfl⟩ := some_within hr
      · have h := (writeStep_run hp.1).1 _ _ e; exact ⟨⟨h.1, trivial⟩, h.2⟩
      · have h := (writeStep_run hp.1).2 _ _ e; exact ⟨⟨h.1, trivial⟩, h.2⟩
    case refresh ok r =>
      obtain ⟨p', e, rfl⟩ | ⟨ok, e, rfl⟩ := some_within hr
      · have h := (refreshStep_run hp.1).1 _ _ e; exact ⟨⟨h.1, trivial⟩, h.2⟩
      · have h := (refreshStep_run hp.1).2 _ _ e; exact ⟨⟨h.1, rfl⟩, h.2⟩
  case refo =>
    rcases p with _ | _ | _ | _ | _ | ⟨ok, _ | _ | _⟩ | _ <;> simp only [refoRun, reduceCtorEq] at hr
    obtain ⟨p', e, rfl⟩ | ⟨ok, e, rfl⟩ := some_within hr
    · have h := (writeStep_run hp.1).1 _ _ e; exact ⟨⟨h.1, ⟨_, rfl⟩⟩, h.2⟩
    · have h := (writeStep_run hp.1).2 _ _ e; exact ⟨⟨h.1, rfl⟩, h.2⟩
  case refi =>
    have hno : ∀ p' r, refreshStep i p' s = .more t r → (¬ ∃ q, p' = .out q) → ¬ ∃ q, r = .out q := by
      rintro p' r e hne ⟨q, rfl⟩
      rcases p' with q' | q' | b
      · exact hne ⟨_, rfl⟩
      · simp only [refreshStep] at e; split at e <;> cases e
      · simp only [refreshStep] at e; cases e
    rcases p with _ | _ | _ | _ | _ | ⟨ok, r⟩ | _ <;> simp only [refiRun, reduceCtorEq] at hr
    rcases r with r | r | r <;> simp only [reduceCtorEq] at hr
    all_goals
      obtain ⟨p', e, rfl⟩ | ⟨ok, e, rfl⟩ := some_within hr
      · have h := (refreshStep_run hp.1).1 _ _ e; exact ⟨⟨h.1, hno _ _ e hp.2⟩, h.2⟩
      · have h := (refreshStep_run hp.1).2 _ _ e; exact ⟨⟨h.1, rfl⟩, h.2⟩
  case ref =>
    cases p <;> simp only [refRun, reduceCtorEq] at hr
    obtain ⟨p', e, rfl⟩ | ⟨ok, e, rfl⟩ := some_within hr
    · have h := (refreshStep_run hp.1).1 _ _ e; exact ⟨⟨h.1, trivial⟩, h.2⟩
    · have h := (refreshStep_run hp.1).2 _ _ e; exact ⟨⟨h.1, rfl⟩, h.2⟩

/-- The part of `SameShared` the invariant speaks of. -/
theorem shared_inv {s t : State} (h : SameShared s t) : t.params = s.params ∧ t.tmrAttached = s.tmrAttached ∧
    t.tmrPeriod = s.tmrPeriod ∧ t.tmrCount = s.tmrCount ∧ t.roundPending = s.roundPending ∧
    t.roundActive = s.roundActive ∧ t.roundPos = s.roundPos ∧ t.regOrder = s.regOrder := by
  simp_all [SameShared]

/-- A state in which instance `i` and SEQ have changed as a program step changes them keeps everything of the invariant
that does not speak of SEQ and of the lines of `i`. -/
theorem inv_of_runFrame {s t : State} (h : Inv s) (i : InstId) (hi : i.toNat < s.params.ninst) (f : RunFrame i s t) (q : Seq)
    (hactive : s.roundActive = true ↔ ∃ p, q = .round p)
    (hturn : ∀ p, q = .round (some p) → ∃ j, s.regOrder[s.roundPos]? = some j ∧ p.ok (t.inst j))
    (hrun : ∀ p, q = .hostRun p → s.busy = true ∧ ∃ c j, decode s.jobWord = .ok c ∧ instOperand c = some j ∧ p.ok c (t.inst j))
    (hidle : ∀ j, runningPort { t with seq := q } ≠ some j → (t.inst j).lines = Lines.idle) :
    Inv { t with seq := q } := by
  obtain ⟨e1, e2, e3, e4, e5, e6, e7, e8⟩ := shared_inv f.shared
  have hcons : ∀ j, (t.inst j).cons = (s.inst j).cons := by
    intro j
    by_cases hj : i = j
    · subst hj; exact f.cons
    · rw [f.others j hj]
  have hbc : ∀ j, 1 ≤ (t.inst j).bc.toNat ∧ (t.inst j).bc.toNat ≤ 4 := by
    intro j
    by_cases hj : i = j
    · subst hj
      rcases f.bc with e | e
      · rw [e]; exact h.boardCount i
      · exact e
    · rw [f.others j hj]; exact h.boardCount j
  have hv : ∀ c, validate c t = validate c s := by
    intro c; simp only [validate, hcons, e1]
  refine ⟨by simpa [e1] using h.params, ?_, hbc, by simpa [e3] using h.period, by simpa [e2, e4] using h.detached, by simpa [e8] using h.distinct, ?_, by simpa [e2, e8] using h.attached, by simpa [e2, e5, e6] using h.pending, by simpa [e6] using hactive, by simpa [e6, e7, e8] using h.position, ?_, ?_, ?_, hidle⟩
  · intro j hj
    simp only [e1] at hj
    have : i ≠ j := by rintro rfl; omega
    exact (f.others j this).trans (h.absent j hj)
  · intro j hj
    simp only [e8] at hj
    exact (hcons j).trans (h.constructed j hj)
  · simp only [e7, e8]; exact hturn
  · intro hb
    simp only [f.busy] at hb
    obtain ⟨c, h1, h2, h3⟩ := h.job hb
    exact ⟨c, by simpa [f.jobWord] using h1, h2, (hv c).trans h3⟩
  · simp only [f.busy, f.jobWord]; exact hrun

/-- A line step or commit of a host job keeps the invariant. -/
theorem inv_programStep {s : State} (h : Inv s) (c : Instr) (hb : s.busy = true)
    (hw : decode s.jobWord = .ok c) (p : Pos) (hs : s.seq = .hostRun p) (t : State) (q : Pos)
    (hr : runOf c p s = some (t, q)) : Inv { t with seq := .hostRun q } := by
  obtain ⟨-, c', i, hw', hi, hp⟩ := h.run p hs
  rw [hw] at hw'; cases hw'
  obtain ⟨c', hw', -, hv⟩ := h.job hb
  rw [hw] at hw'; cases hw'
  obtain ⟨h1, h2, h3⟩ := validate_none hi hv
  obtain ⟨hq, f⟩ := runOf_ok c i hi h3 p s t q hr hp
  have hact : s.roundActive = false := by
    by_contra hra
    obtain ⟨p', hp'⟩ := h.active.mp (by simpa using hra)
    rw [hs] at hp'; cases hp'
  refine inv_of_runFrame h i h1 f _ (by simp [hact]) (by simp) ?_ ?_
  · rintro p' e; cases e; exact ⟨hb, c, i, hw, hi, hq⟩
  · intro j hj
    have hne : i ≠ j := by
      rintro rfl
      apply hj
      have := f.jobWord
      simp [runningPort, jobCommand, this, hw, hi]
    rw [f.others j hne]
    apply h.idle
    simp only [runningPort, hs, jobCommand, hw, Option.bind, hi, ne_eq, Option.some.injEq]
    exact hne

/-- Only MCONS writes more at its finish than `finish` does. -/
theorem finishOf_inst (c : Instr) (s : State) : finishOf c s = s ∨ ∃ i n, c = .mcons i n ∧ finishOf c s = markConstructed i s := by
  cases c <;> first | exact .inl rfl | exact .inr ⟨_, _, rfl, rfl⟩

/-- The finish of a class S command keeps the invariant (R177). -/
theorem inv_finish {s : State} (h : Inv s) (c : Instr) (hb : s.busy = true)
    (hw : decode s.jobWord = .ok c) (rc : ResultCode) (r : Option Word) (hs : s.seq = .hostRun (.finish rc r)) :
    Inv (finish rc r (finishOf c s)) := by
  obtain ⟨-, c', i, hw', hi, hp⟩ := h.run _ hs
  rw [hw] at hw'; cases hw'
  obtain ⟨c', hw', -, hv⟩ := h.job hb
  rw [hw] at hw'; cases hw'
  obtain ⟨h1, h2, h3⟩ := validate_none hi hv
  have hact : s.roundActive = false := by
    by_contra hra
    obtain ⟨p', hp'⟩ := h.active.mp (by simpa using hra)
    rw [hs] at hp'; cases hp'
  have hl : ∀ j, (s.inst j).lines = Lines.idle := by
    intro j
    by_cases hj : i = j
    · subst hj; exact hp.1
    · apply h.idle
      simp only [runningPort, hs, jobCommand, hw, Option.bind, hi, ne_eq, Option.some.injEq]
      exact hj
  obtain he | ⟨i', n, rfl, he⟩ := finishOf_inst c s
  · rw [he]
    refine ⟨h.params, h.absent, h.boardCount, h.period, h.detached, h.distinct, h.constructed, h.attached, h.pending, by simp [hact], h.position, by simp, by simp, by simp, fun j _ => hl j⟩
  · cases Option.some.inj hi
    rw [he]
    have key : ∀ j, ((markConstructed i s).inst j).lines = Lines.idle ∧ (i ≠ j → (markConstructed i s).inst j = s.inst j) ∧
      ((markConstructed i s).inst j).bc = (s.inst j).bc ∧ ((s.inst j).cons = true → ((markConstructed i s).inst j).cons = true) := by
      intro j
      rw [markConstructed, inst_setInst]
      split
      · rename_i e; subst e; exact ⟨hl _, fun h => absurd rfl h, rfl, fun _ => rfl⟩
      · exact ⟨hl j, fun _ => rfl, rfl, id⟩
    refine ⟨h.params, ?_, ?_, h.period, h.detached, h.distinct, ?_, h.attached, h.pending, ?_, h.position, by simp, by simp, by simp, ?_⟩
    · intro j hj
      have hne : i ≠ j := by rintro rfl; simp [markConstructed] at hj; omega
      exact ((key j).2.1 hne).trans (h.absent j hj)
    · intro j
      have := (key j).2.2.1
      rw [finish_inst, this]
      exact h.boardCount j
    · intro j hj
      exact (key j).2.2.2 (h.constructed j hj)
    · simp [markConstructed, hact]
    · intro j _; exact (key j).1

/-- A class R or S command names an instance. -/
theorem startOf_decode {c : Instr} (hc : cmdClass c ≠ .cache) : ∃ i, instOperand c = some i := by
  cases c <;> first | exact ⟨_, rfl⟩ | exact absurd rfl hc

/-- A step of a host job keeps the invariant. -/
theorem inv_jobExec {s : State} (h : Inv s) (c : Instr) (hc : cmdClass c ≠ .cache) (hb : s.busy = true)
    (hw : decode s.jobWord = .ok c) (t : State) (ht : exec c s = .next t) : Inv t := by
  have hcls : cmdClass c = .registry ∨ cmdClass c = .sequenced := by
    cases hcc : cmdClass c
    · exact absurd hcc hc
    · exact .inl rfl
    · exact .inr rfl
  rcases hcls with hcls | hcls
  · rw [exec_registry c hcls] at ht
    cases ht
    obtain ⟨h1, -⟩ | ⟨-, h2, h3⟩ | ⟨-, -, h3⟩ := registryCommand_cases c (effectOf c) s
    · simp [hb] at h1
    · rw [h3]; exact inv_registry_grant h c hcls hb h2 hw
    · rw [h3]; exact h
  · rw [exec_sequenced c hcls] at ht
    cases ht
    obtain ⟨h1, -⟩ | ⟨-, hs, he⟩ | ⟨rc, r, -, hs, he⟩ | ⟨p, t, q, -, hs, -, -, hr, he⟩ | he := sequencedCommand_cases c (startOf c) (runOf c) (finishOf c) s
    · simp [hb] at h1
    · rw [he]
      obtain ⟨i, hi⟩ := startOf_decode hc
      have hact : s.roundActive = false := by
        by_contra hra
        obtain ⟨p', hp'⟩ := h.active.mp (by simpa using hra)
        rw [hs] at hp'; cases hp'
      have hl : ∀ j, (s.inst j).lines = Lines.idle := fun j => h.idle j (by simp [runningPort, hs])
      refine ⟨h.params, h.absent, h.boardCount, h.period, h.detached, h.distinct, h.constructed, h.attached, h.pending, by simp [hact], h.position, by simp, h.job, ?_, fun j _ => hl j⟩
      rintro p e; cases e
      exact ⟨hb, c, i, hw, hi, startOf_ok c hcls _ (hl i)⟩
    · rw [he]; exact inv_finish h c hb hw rc r hs
    · rw [he]; exact inv_programStep h c hb hw p hs t q hr
    · rw [he]; exact h

/-- The same of `jobStep`. -/
theorem inv_jobStep {s t : State} (h : Inv s) (ht : jobStep s = .next t) : Inv t := by
  unfold jobStep at ht
  cases hb : s.busy with
  | false => simp [hb] at ht; subst ht; exact h
  | true =>
    obtain ⟨c, hw, hc, hv⟩ := h.job hb
    simp only [hb, hw, hc, if_true, if_false] at ht
    exact inv_jobExec h c hc hb hw t ht

end Sys2Proof.Machine
end

