-- ==== Sys2Proof/Laws/Runs.lean ====
section
/-! SUPPORT. The line programs inside a command: each of their steps (`RunsReset`, `RunsWriteOut`, `RunsReadIn`,
`RunsAnalog`, `RunsCommit` of Safety.lean, from the command's `runOf`), and whole runs of WRITEOUT and READIN with no
step of another agent between. -/

namespace Sys2Proof.Machine

/-! ### One step -/

/-- A step of a class S command at a position other than its finish, with the phase hold met. -/
theorem goes_of {c : Instr} (hc : cmdClass c = .sequenced) {s t : State} {p q : Pos} (hp : ∀ rc r, p ≠ .finish rc r)
    (hr : runOf c p s = some (t, q)) : Goes c s p t q := by
  rintro ⟨hb, hs, hh⟩
  have hpm : phaseMet s = true := decide_eq_true hh
  rw [exec_sequenced c hc, sequencedCommand_run _ _ _ _ hb hs hp]
  simp [programStep, hpm, hr]

/-- The grant of a class S command. -/
theorem grantedAt_of {c : Instr} (hc : cmdClass c = .sequenced) : GrantedAt c (startOf c) := by
  intro s hb hs
  rw [exec_sequenced c hc]
  simp [sequencedCommand, hb, hs]

/-- The finish of a class S command. -/
theorem finishesWith_of {c : Instr} (hc : cmdClass c = .sequenced) : FinishesWith c (finishOf c) := by
  intro s rc r hb hs
  have hr : (finishOf c s).result = s.result := by cases c <;> rfl
  rw [exec_sequenced c hc]
  simp [sequencedCommand, hb, hs, finish, hr]

/-- A poll that has not timed out and reads 1 (R95). -/
theorem poll_settled {t0 T : Word} {s : State} (i : InstId) (h : s.time - t0 < T) (hb : nextBit s = true) :
    pollOutcome t0 T s = .settled (s.time - t0) ∧ poll i t0 T s = sample i s := by
  have hn : ¬ T ≤ s.time - t0 := by rw [BitVec.not_le]; exact h
  simp [pollOutcome, poll, elapsed, hn, hb]

/-- A poll that has not timed out and reads 0 (R95). -/
theorem poll_goOn {t0 T : Word} {s : State} (i : InstId) (h : s.time - t0 < T) (hb : nextBit s = false) :
    pollOutcome t0 T s = .goOn ∧ poll i t0 T s = sample i s := by
  have hn : ¬ T ≤ s.time - t0 := by rw [BitVec.not_le]; exact h
  simp [pollOutcome, poll, elapsed, hn, hb]

/-- A poll that has timed out does not sample (R95). -/
theorem poll_timeout {t0 T : Word} {s : State} (i : InstId) (h : T ≤ s.time - t0) :
    pollOutcome t0 T s = .timeout ∧ poll i t0 T s = s := by
  simp [pollOutcome, poll, elapsed, h]

/-- The steps of RESET inside a command whose program is RESET at these positions. -/
theorem runsReset_of {c : Instr} (hc : cmdClass c = .sequenced) {i : InstId} {T : Word} {entry : State → State}
    {after : Bool → Pos}
    (h1 : ∀ q s, q ≠ .trigX → runOf c (.reset q) s = some ((resetStep i T q s).within .reset after))
    (h2 : ∀ s, runOf c (.reset .trigX) s = some ((resetStep i T .trigX (entry s)).within .reset after)) :
    RunsReset c i T entry after := by
  intro s t0
  refine ⟨?_, ?_, fun h => ?_, fun h hb => ?_, fun h hb => ?_, ?_, ?_⟩ <;> apply goes_of hc (by simp)
  · rw [h2]; rfl
  · rw [h1 _ _ (by simp)]; rfl
  · rw [h1 _ _ (by simp), resetStep, (poll_timeout i h).1, (poll_timeout i h).2]; rfl
  · rw [h1 _ _ (by simp), resetStep, (poll_settled i h hb).1, (poll_settled i h hb).2]; rfl
  · rw [h1 _ _ (by simp), resetStep, (poll_goOn i h hb).1, (poll_goOn i h hb).2]; rfl
  · rw [h1 _ _ (by simp)]; rfl
  · rw [h1 _ _ (by simp)]; rfl

/-- The steps of ANALOG inside a command whose program is ANALOG. -/
theorem runsAnalog_of {c : Instr} (hc : cmdClass c = .sequenced) {i : InstId} {a : Bool} {T : Word}
    {after : Word → ResultCode → Pos}
    (h : ∀ q s, runOf c (.analog q) s = some ((analogStep i a T q s).within .analog (fun r => after r.1 r.2))) :
    RunsAnalog c i (if a then .trigY else .trigX) T after := by
  intro s t0
  refine ⟨?_, ?_, fun hT => ?_, fun hT hb => ?_, fun hT hb => ?_⟩ <;> apply goes_of hc (by simp) <;> rw [h]
  · rfl
  · rfl
  · rw [analogStep, (poll_timeout i hT).1, (poll_timeout i hT).2]; rfl
  · rw [analogStep, (poll_settled i hT hb).1, (poll_settled i hT hb).2]; rfl
  · rw [analogStep, (poll_goOn i hT hb).1, (poll_goOn i hT hb).2]; rfl

/-- The steps of WRITEOUT inside a command whose program is WRITEOUT at the positions `at'`. -/
theorem runsWriteOut_of {c : Instr} (hc : cmdClass c = .sequenced) {i : InstId} {bytes : State → List Byte}
    {at' : WritePos → Pos} {after : Pos} (hf : ∀ p rc r, at' p ≠ .finish rc r)
    (h : ∀ q s, runOf c (at' q) s = some ((writeStep i (bytes s) q s).within at' (fun _ => after))) :
    RunsWriteOut c i bytes at' after := by
  intro s k x rest
  refine ⟨fun hb => ?_, ?_, ?_, fun hk => ?_, fun y ys hr => ?_, ?_, ?_, ?_, ?_⟩ <;>
    apply goes_of hc (hf _) <;> rw [h]
  · simp [writeStep, hb, Progress.within, nextByte]
  · rfl
  · rfl
  · simp [writeStep, Progress.within, afterBit, hk]
  · simp [writeStep, Progress.within, afterBit, hr, nextByte]
  · rfl
  · rfl
  · rfl
  · rfl

/-- The steps of READIN inside a command whose program is READIN at the positions `at'`. -/
theorem runsReadIn_of {c : Instr} (hc : cmdClass c = .sequenced) {i : InstId} {n : State → Nat} {at' : ReadPos → Pos}
    {after : List Byte → Pos} (hf : ∀ p rc r, at' p ≠ .finish rc r)
    (h : ∀ q s, runOf c (at' q) s = some ((readStep i (n s) q s).within at' after)) :
    RunsReadIn c i n at' after := by
  intro s m bytes k acc
  refine ⟨?_, ?_, ?_, fun hm => ?_, ?_, ?_, fun hk => ?_, fun hm => ?_, fun hm => ?_⟩ <;>
    apply goes_of hc (hf _) <;> rw [h]
  · rfl
  · rfl
  · rfl
  · simp [readStep, afterBytes, Progress.within, show m ≠ 0 by omega]
  · rfl
  · rfl
  · simp [readStep, Progress.within, hk]
  · simp [readStep, afterBytes, Progress.within, show ¬ m ≤ bytes.length + 1 by omega]
  · simp [readStep, afterBytes, Progress.within, show m ≤ bytes.length + 1 by omega]

/-- The commit inside a command. -/
theorem runsCommit_of {c : Instr} (hc : cmdClass c = .sequenced) {i : InstId} {ok : Bool} {after : Pos}
    (h : ∀ bytes s, runOf c (.refresh ok (.commit bytes)) s = some (commitInputs i bytes s, after)) :
    RunsCommit c i (fun bytes => .refresh ok (.commit bytes)) after := by
  intro s bytes hb hs
  rw [exec_sequenced c hc, sequencedCommand_run _ _ _ _ hb hs (by simp)]
  simp [programStep, Pos.isLine, RefreshPos.isLine, h, commitInputs]

/-! ### Runs -/

/-- A run is the run of its first part and then of the rest. -/
theorem runCommand_add {c : Instr} {m : Nat} : ∀ {s t : State} (n : Nat), runCommand c m s = .next t →
    runCommand c (m + n) s = runCommand c n t := by
  induction m with
  | zero => intro s t n h; cases h; rw [Nat.zero_add]
  | succ m ih =>
    intro s t n h
    rw [Nat.succ_add, runCommand]
    rw [runCommand] at h
    cases he : exec c s with
    | next u => rw [he] at h; exact ih n h
    | fault f => rw [he] at h; cases h
    | refused r => rw [he] at h; cases h

/-- A run of one step. -/
theorem runCommand_one {c : Instr} {s t : State} (h : exec c s = .next t) : runCommand c 1 s = .next t := by
  simp [runCommand, h]

/-- `s` with other lines on the port of `i`, another SEQ_LAST_T, other events, other answers and another position: what
a line step of that port changes. -/
def atLine (i : InstId) (l : Lines) (last : Word) (tr : List Event) (ds : List Bool) (q : Seq) (s : State) : State :=
  { s with
    insts := s.insts.set i.toNat { s.inst i with lines := l } i.isLt
    seqLastT := last, trace := tr, draws := ds, seq := q }

/-- Where a run starts. -/
theorem atLine_self (i : InstId) (q : Seq) (s : State) :
    atLine i (s.inst i).lines s.seqLastT s.trace s.draws q s = { s with seq := q } := by
  have h : s.insts.set i.toNat (s.inst i) i.isLt = s.insts := by simp [State.inst]
  simp only [atLine, h]

theorem drive_atLine (i : InstId) (r : Role) (v : Bool) (l : Lines) (last : Word) (tr : List Event) (ds : List Bool)
    (q : Seq) (s : State) :
    drive i r v (atLine i l last tr ds q s) =
      atLine i (l.set r v) s.time (.drive i r v s.time :: tr) ds q s := by
  simp [drive, record, atLine, State.setInst, State.inst]

theorem sample_atLine (i : InstId) (d : Bool) (l : Lines) (last : Word) (tr : List Event) (ds : List Bool) (q : Seq)
    (s : State) :
    sample i (atLine i l last tr (d :: ds) q s) = atLine i l last (.sample i d s.time :: tr) ds q s := by
  simp [sample, record, dropBit, nextBit, atLine]

theorem nextBit_atLine (i : InstId) (d : Bool) (l : Lines) (last : Word) (tr : List Event) (ds : List Bool) (q : Seq)
    (s : State) : nextBit (atLine i l last tr (d :: ds) q s) = d := by
  simp [nextBit, atLine]

theorem atPos_atLine {i : InstId} {l : Lines} {last : Word} {tr : List Event} {ds : List Bool} {p : Pos} {s : State}
    (hb : s.busy = true) (h0 : s.params.phaseMinUs = 0) : AtPos (atLine i l last tr ds (.hostRun p) s) p :=
  ⟨hb, rfl, by simp [atLine, h0]⟩

/-- The first step of a run: the grant. -/
theorem run_start {c : Instr} (hc : cmdClass c = .sequenced) (i : InstId) {s : State} (hb : s.busy = true)
    (hs : s.seq = .idle) (hl : (s.inst i).lines = Lines.idle) :
    runCommand c 1 s = .next (atLine i Lines.idle s.seqLastT s.trace s.draws (.hostRun (startOf c))
      { s with lastGrant := .host }) := by
  apply runCommand_one
  rw [grantedAt_of hc s hb hs, ← hl]
  exact congrArg _ (atLine_self i _ { s with lastGrant := .host }).symm

/-- One drive in a run. -/
theorem run_drive {c : Instr} {i : InstId} {r : Role} {v : Bool} {p p' : Pos} {l : Lines} {last : Word}
    {tr : List Event} {ds : List Bool} {s : State} (hb : s.busy = true) (h0 : s.params.phaseMinUs = 0)
    (h : ∀ u, Goes c u p (drive i r v u) p') :
    runCommand c 1 (atLine i l last tr ds (.hostRun p) s) =
      .next (atLine i (l.set r v) s.time (.drive i r v s.time :: tr) ds (.hostRun p') s) := by
  apply runCommand_one
  rw [h _ (atPos_atLine hb h0), drive_atLine]
  rfl

/-- The three drives of one bit of WRITEOUT. -/
theorem run_writeBit {c : Instr} {i : InstId} {bytes : State → List Byte} {at' : WritePos → Pos} {after : Pos}
    (h : RunsWriteOut c i bytes at' after) {l : Lines} {last : Word} {tr : List Event} {ds : List Bool} {s : State}
    (hb : s.busy = true) (h0 : s.params.phaseMinUs = 0) {k : Fin 8} {x : Byte} {rest : List Byte} {p : WritePos}
    (hn : ∀ u, Goes c u (at' (.bit .clkHi k x rest)) (drive i .clk true u) (at' p)) :
    runCommand c 3 (atLine i l last tr ds (.hostRun (at' (.bit .clkLo k x rest))) s) =
      .next (atLine i { l with clk := true, dOut := x.getLsbD k } s.time
        (.drive i .clk true s.time :: .drive i .dOut (x.getLsbD k) s.time :: .drive i .clk false s.time :: tr) ds
        (.hostRun (at' p)) s) := by
  rw [runCommand_add (m := 1) 2 (run_drive hb h0 fun u => (h u k x rest).2.1),
    runCommand_add (m := 1) 1 (run_drive hb h0 fun u => (h u k x rest).2.2.1), run_drive hb h0 hn]
  rfl

/-- The twenty-four drives of one byte of WRITEOUT. -/
theorem run_writeByte {c : Instr} {i : InstId} {bytes : State → List Byte} {at' : WritePos → Pos} {after : Pos}
    (h : RunsWriteOut c i bytes at' after) {l : Lines} {last : Word} {tr : List Event} {ds : List Bool} {s : State}
    (hb : s.busy = true) (h0 : s.params.phaseMinUs = 0) {x : Byte} {rest : List Byte} :
    runCommand c 24 (atLine i l last tr ds (.hostRun (at' (.bit .clkLo 7 x rest))) s) =
      .next (atLine i { l with clk := true, dOut := x.getLsbD 0 } s.time ((byteEvents i s.time x).reverse ++ tr) ds
        (.hostRun (at' (nextByte rest))) s) := by
  have hl : ∀ u, Goes c u (at' (.bit .clkHi 0 x rest)) (drive i .clk true u) (at' (nextByte rest)) := by
    intro u
    cases rest with
    | nil => exact (h u 0 x []).2.2.2.2.2.1
    | cons y ys => exact (h u 0 x (y :: ys)).2.2.2.2.1 y ys rfl
  have hk : ∀ k : Fin 8, k ≠ 0 →
      ∀ u, Goes c u (at' (.bit .clkHi k x rest)) (drive i .clk true u) (at' (.bit .clkLo (k - 1) x rest)) :=
    fun k hk u => (h u k x rest).2.2.2.1 hk
  exact (runCommand_add (m := 3) 21 (run_writeBit h hb h0 (hk 7 (by decide)))).trans <|
    (runCommand_add (m := 3) 18 (run_writeBit h hb h0 (hk 6 (by decide)))).trans <|
    (runCommand_add (m := 3) 15 (run_writeBit h hb h0 (hk 5 (by decide)))).trans <|
    (runCommand_add (m := 3) 12 (run_writeBit h hb h0 (hk 4 (by decide)))).trans <|
    (runCommand_add (m := 3) 9 (run_writeBit h hb h0 (hk 3 (by decide)))).trans <|
    (runCommand_add (m := 3) 6 (run_writeBit h hb h0 (hk 2 (by decide)))).trans <|
    (runCommand_add (m := 3) 3 (run_writeBit h hb h0 (hk 1 (by decide)))).trans (run_writeBit h hb h0 hl)

/-- The bits of all the bytes of WRITEOUT, from the first one on; after them DOUT holds some level. -/
theorem run_writeBytes {c : Instr} {i : InstId} {bytes : State → List Byte} {at' : WritePos → Pos} {after : Pos}
    (h : RunsWriteOut c i bytes at' after) {ds : List Bool} {s : State}
    (hb : s.busy = true) (h0 : s.params.phaseMinUs = 0) (xs : List Byte) :
    ∀ (d : Bool) (tr : List Event), ∃ d' : Bool,
      runCommand c (24 * xs.length)
          (atLine i (Lines.idle.set .dOut d) s.time tr ds (.hostRun (at' (nextByte xs))) s) =
        .next (atLine i (Lines.idle.set .dOut d') s.time ((xs.flatMap (byteEvents i s.time)).reverse ++ tr) ds
          (.hostRun (at' .dataLo)) s) := by
  induction xs with
  | nil => intro d tr; exact ⟨d, rfl⟩
  | cons x xs ih =>
    intro d tr
    obtain ⟨d', hd⟩ := ih (x.getLsbD 0) ((byteEvents i s.time x).reverse ++ tr)
    refine ⟨d', ?_⟩
    rw [show 24 * (x :: xs).length = 24 + 24 * xs.length by simp; omega]
    refine (runCommand_add (m := 24) (24 * xs.length) (run_writeByte h hb h0)).trans ?_
    rw [List.flatMap_cons, List.reverse_append, List.append_assoc]
    exact hd

/-- WRITEOUT with the bytes `xs`, at least one, from its step 1 on idle lines to its end: `24 n + 4` drives (R98). -/
theorem run_writeOut {c : Instr} {i : InstId} {bytes : State → List Byte} {at' : WritePos → Pos} {after : Pos}
    (h : RunsWriteOut c i bytes at' after) {last : Word} {tr : List Event} {ds : List Bool} {s : State}
    (hb : s.busy = true) (h0 : s.params.phaseMinUs = 0) (xs : List Byte) (hne : xs ≠ [])
    (hx : bytes (atLine i Lines.idle last tr ds (.hostRun (at' .ldLo)) s) = xs) :
    runCommand c (24 * xs.length + 4) (atLine i Lines.idle last tr ds (.hostRun (at' .ldLo)) s) =
      .next (atLine i Lines.idle s.time ((writeEvents i s.time xs).reverse ++ tr) ds (.hostRun after) s) := by
  have h1 : runCommand c 1 (atLine i Lines.idle last tr ds (.hostRun (at' .ldLo)) s) =
      .next (atLine i (Lines.idle.set .dOut false) s.time (.drive i .ldOut false s.time :: tr) ds
        (.hostRun (at' (nextByte xs))) s) := by
    apply runCommand_one
    have hg : Goes c (atLine i Lines.idle last tr ds (.hostRun (at' .ldLo)) s) (at' .ldLo)
        (drive i .ldOut false (atLine i Lines.idle last tr ds (.hostRun (at' .ldLo)) s)) (at' (nextByte xs)) := by
      cases xs with
      | nil => exact absurd rfl hne
      | cons y ys => exact (h _ 0 y ys).1 hx
    rw [hg (atPos_atLine hb h0), drive_atLine]
    rfl
  obtain ⟨d, h2⟩ := run_writeBytes h (ds := ds) hb h0 xs false (.drive i .ldOut false s.time :: tr)
  rw [show 24 * xs.length + 4 = 1 + (24 * xs.length + 3) by omega, runCommand_add (m := 1) _ h1, runCommand_add _ h2,
    runCommand_add (m := 1) 2 (run_drive hb h0 fun u => (h u 0 0 []).2.2.2.2.2.2.1),
    runCommand_add (m := 1) 1 (run_drive hb h0 fun u => (h u 0 0 []).2.2.2.2.2.2.2.1),
    run_drive hb h0 fun u => (h u 0 0 []).2.2.2.2.2.2.2.2]
  rw [writeEvents, List.reverse_append, List.reverse_append]
  simp [Lines.set, Lines.idle]

/-- The eight bits of a byte, set from the most significant one down, are the byte. -/
theorem setBits_eq (x : Byte) :
    setBit (setBit (setBit (setBit (setBit (setBit (setBit (setBit 0 7 (x.getLsbD 7)) 6 (x.getLsbD 6)) 5 (x.getLsbD 5))
      4 (x.getLsbD 4)) 3 (x.getLsbD 3)) 2 (x.getLsbD 2)) 1 (x.getLsbD 1)) 0 (x.getLsbD 0) = x := by
  refine BitVec.eq_of_getLsbD_eq fun k hk => ?_
  rw [setBit_lane _ _ (by decide) hk, setBit_lane _ _ (by decide) hk, setBit_lane _ _ (by decide) hk,
    setBit_lane _ _ (by decide) hk, setBit_lane _ _ (by decide) hk, setBit_lane _ _ (by decide) hk,
    setBit_lane _ _ (by decide) hk, setBit_lane _ _ (by decide) hk]
  split_ifs <;> first | (subst_vars; rfl) | omega

/-- The sample and the clock pulse of one bit of READIN. -/
theorem run_readBit {c : Instr} {i : InstId} {n : State → Nat} {at' : ReadPos → Pos} {after : List Byte → Pos}
    (h : RunsReadIn c i n at' after) {last : Word} {tr : List Event} {ds : List Bool} {s : State}
    (hb : s.busy = true) (h0 : s.params.phaseMinUs = 0) {m : Nat} {bs : List Byte} {k : Fin 8} {acc : Byte} {v : Bool}
    {p : Pos} (hn : ∀ u, Goes c u (at' (.bit .clkHi m bs k (setBit acc k v))) (drive i .clk true u) p) :
    runCommand c 3 (atLine i Lines.idle last tr ((!v) :: ds) (.hostRun (at' (.bit .sample m bs k acc))) s) =
      .next (atLine i Lines.idle s.time
        (.drive i .clk true s.time :: .drive i .clk false s.time :: .sample i (!v) s.time :: tr) ds (.hostRun p) s) := by
  have h1 : runCommand c 1 (atLine i Lines.idle last tr ((!v) :: ds) (.hostRun (at' (.bit .sample m bs k acc))) s) =
      .next (atLine i Lines.idle last (.sample i (!v) s.time :: tr) ds
        (.hostRun (at' (.bit .clkLo m bs k (setBit acc k v)))) s) := by
    apply runCommand_one
    rw [(h _ m bs k acc).2.2.2.2.1 (atPos_atLine hb h0), sample_atLine, nextBit_atLine, Bool.not_not]
    rfl
  exact (runCommand_add (m := 1) 2 h1).trans <|
    (runCommand_add (m := 1) 1 (run_drive hb h0 fun u => (h u m bs k _).2.2.2.2.2.1)).trans (run_drive hb h0 hn)

/-- The twenty-four steps of one byte of READIN, where the line answers with the inverted bits of `x`. -/
theorem run_readByte {c : Instr} {i : InstId} {n : State → Nat} {at' : ReadPos → Pos} {after : List Byte → Pos}
    (h : RunsReadIn c i n at' after) {last : Word} {tr : List Event} {ds : List Bool} {s : State}
    (hb : s.busy = true) (h0 : s.params.phaseMinUs = 0) {m : Nat} {bs : List Byte} {x : Byte} {p : Pos}
    (hn : ∀ u, Goes c u (at' (.bit .clkHi m bs 0 x)) (drive i .clk true u) p) :
    runCommand c 24 (atLine i Lines.idle last tr (answersFor [x] ++ ds) (.hostRun (at' (.bit .sample m bs 7 0))) s) =
      .next (atLine i Lines.idle s.time ((readByteEvents i s.time x).reverse ++ tr) ds (.hostRun p) s) := by
  have hk : ∀ (k : Fin 8) (acc : Byte), k ≠ 0 →
      ∀ u, Goes c u (at' (.bit .clkHi m bs k acc)) (drive i .clk true u) (at' (.bit .sample m bs (k - 1) acc)) :=
    fun k acc hk u => (h u m bs k acc).2.2.2.2.2.2.1 hk
  rw [← setBits_eq x] at hn
  exact (runCommand_add (m := 3) 21 (run_readBit h hb h0 (hk 7 _ (by decide)))).trans <|
    (runCommand_add (m := 3) 18 (run_readBit h hb h0 (hk 6 _ (by decide)))).trans <|
    (runCommand_add (m := 3) 15 (run_readBit h hb h0 (hk 5 _ (by decide)))).trans <|
    (runCommand_add (m := 3) 12 (run_readBit h hb h0 (hk 4 _ (by decide)))).trans <|
    (runCommand_add (m := 3) 9 (run_readBit h hb h0 (hk 3 _ (by decide)))).trans <|
    (runCommand_add (m := 3) 6 (run_readBit h hb h0 (hk 2 _ (by decide)))).trans <|
    (runCommand_add (m := 3) 3 (run_readBit h hb h0 (hk 1 _ (by decide)))).trans (run_readBit h hb h0 hn)

/-- The bytes of READIN still to read: `xs`, not empty, after the `bs` already read. -/
theorem run_readBytes {c : Instr} {i : InstId} {n : State → Nat} {at' : ReadPos → Pos} {after : List Byte → Pos}
    (h : RunsReadIn c i n at' after) {ds : List Bool} {s : State}
    (hb : s.busy = true) (h0 : s.params.phaseMinUs = 0) (xs : List Byte) :
    ∀ (x : Byte) (bs : List Byte) (m : Nat) (last : Word) (tr : List Event), m = bs.length + 1 + xs.length →
      runCommand c (24 * (xs.length + 1))
          (atLine i Lines.idle last tr (answersFor (x :: xs) ++ ds) (.hostRun (at' (.bit .sample m bs 7 0))) s) =
        .next (atLine i Lines.idle s.time (((x :: xs).flatMap (readByteEvents i s.time)).reverse ++ tr) ds
          (.hostRun (after (bs ++ x :: xs))) s) := by
  induction xs with
  | nil =>
    intro x bs m last tr hm
    refine (run_readByte h hb h0 (x := x) fun u => (h u m bs 0 x).2.2.2.2.2.2.2.2 (by simp at hm; omega)).trans ?_
    simp
  | cons y ys ih =>
    intro x bs m last tr hm
    simp only [List.length_cons] at hm
    have h1 := run_readByte h hb h0 (last := last) (tr := tr) (ds := answersFor (y :: ys) ++ ds) (m := m) (bs := bs)
      (x := x) fun u => (h u m bs 0 x).2.2.2.2.2.2.2.1 (by omega)
    have h2 := ih y (bs ++ [x]) m s.time ((readByteEvents i s.time x).reverse ++ tr) (by simp; omega)
    rw [show 24 * ((y :: ys).length + 1) = 24 + 24 * (ys.length + 1) by simp; omega,
      show answersFor (x :: y :: ys) ++ ds = answersFor [x] ++ (answersFor (y :: ys) ++ ds) by simp [answersFor],
      runCommand_add (m := 24) _ h1, h2]
    simp

/-- READIN of the bytes `x :: xs`, from its step 1 on idle lines to its end: `24 n + 4` steps (R99). -/
theorem run_readIn {c : Instr} {i : InstId} {n : State → Nat} {at' : ReadPos → Pos} {after : List Byte → Pos}
    (h : RunsReadIn c i n at' after) {last : Word} {tr : List Event} {ds : List Bool} {s : State}
    (hb : s.busy = true) (h0 : s.params.phaseMinUs = 0) (x : Byte) (xs : List Byte)
    (hx : n (atLine i Lines.idle last tr (answersFor (x :: xs) ++ ds) (.hostRun (at' .ldHi)) s) = xs.length + 1) :
    runCommand c (24 * (xs.length + 1) + 4)
        (atLine i Lines.idle last tr (answersFor (x :: xs) ++ ds) (.hostRun (at' .ldHi)) s) =
      .next (atLine i Lines.idle s.time ((readEvents i s.time (x :: xs)).reverse ++ tr) ds
        (.hostRun (after (x :: xs))) s) := by
  have h1 : runCommand c 1 (atLine i Lines.idle last tr (answersFor (x :: xs) ++ ds) (.hostRun (at' .ldHi)) s) =
      .next (atLine i (Lines.idle.set .ldIn true) s.time (.drive i .ldIn true s.time :: tr)
        (answersFor (x :: xs) ++ ds) (.hostRun (at' (.loadLo (xs.length + 1)))) s) := by
    apply runCommand_one
    rw [(h _ 0 [] 0 0).1 (atPos_atLine hb h0), drive_atLine, hx]
    rfl
  rw [show 24 * (xs.length + 1) + 4 = 1 + (1 + (1 + (1 + 24 * (xs.length + 1)))) by omega, runCommand_add (m := 1) _ h1,
    runCommand_add (m := 1) _ (run_drive hb h0 fun u => (h u _ [] 0 0).2.1),
    runCommand_add (m := 1) _ (run_drive hb h0 fun u => (h u _ [] 0 0).2.2.1),
    runCommand_add (m := 1) _ (run_drive hb h0 fun u => (h u _ [] 0 0).2.2.2.1 (by omega))]
  refine (run_readBytes h hb h0 xs x [] (xs.length + 1) s.time _ (by simp; omega)).trans ?_
  rw [readEvents, List.reverse_append]
  simp

end Sys2Proof.Machine
end

