-- ==== Sys2Proof/Laws/Progress.lean ====
section
/-! SUPPORT. What bounds a job and a round: how many SEQ steps are left of each (`Pos.left`, `roundLeft`), what a step of
SEQ that is enabled takes off (`seqStep_hostRun`, `seqStep_round`, `seqStep_idle`), a poll loop apart, and that a step of
another agent leaves them alone (`act_kept`). -/

namespace Sys2Proof.Machine

/-! ### Steps left of the programs -/

/-- A bound on the steps left of a WRITEOUT of at most 8 bytes. -/
def WritePos.left : WritePos → Nat
  | .ldLo => 250
  | .bit .clkLo k _ rest => 24 * rest.length + 3 * k.val + 6
  | .bit .data k _ rest => 24 * rest.length + 3 * k.val + 5
  | .bit .clkHi k _ rest => 24 * rest.length + 3 * k.val + 4
  | .dataLo => 3
  | .latchHi => 2
  | .latchLo => 1

/-- A bound on the steps left of a READIN of at most 8 boards. -/
def ReadPos.left : ReadPos → Nat
  | .ldHi => 300
  | .loadLo n => 24 * n + 3
  | .loadHi n => 24 * n + 2
  | .ldLo n => 24 * n + 1
  | .bit .sample n bytes k _ => 24 * (n - bytes.length - 1) + 3 * k.val + 3
  | .bit .clkLo n bytes k _ => 24 * (n - bytes.length - 1) + 3 * k.val + 2
  | .bit .clkHi n bytes k _ => 24 * (n - bytes.length - 1) + 3 * k.val + 1

/-- A bound on the steps left of a refresh. -/
def RefreshPos.left : RefreshPos → Nat
  | .out p => p.left + 301
  | .inp p => p.left + 1
  | .commit _ => 1

/-- A bound on the steps left of a class S command, the same at all positions of a poll loop. -/
def Pos.left : Pos → Nat
  | .reset .trigX => 2002
  | .reset .trigY => 2001
  | .reset _ => 2000
  | .zero _ p => p.left + 1000
  | .write p => p.left + 1
  | .read p => p.left + 1
  | .analog .trigLo => 4
  | .analog .trigHi => 3
  | .analog (.poll _) => 2
  | .refresh _ p => p.left + 1
  | .finish _ _ => 1

/-- In a poll loop: its `t0`, and how many steps come before its next poll. -/
def Pos.toPoll : Pos → Option (Word × Nat)
  | .reset (.poll t0) => some (t0, 0)
  | .reset (.clkHi t0) => some (t0, 1)
  | .reset (.clkLo t0) => some (t0, 2)
  | .analog (.poll t0) => some (t0, 0)
  | _ => none

theorem writeStep_left {i : InstId} {bytes : List Byte} (hb : bytes.length ≤ 8) {p q : WritePos} {s t : State}
    (h : writeStep i bytes p s = .more t q) : q.left < p.left := by
  have hn : ∀ l : List Byte, (nextByte l).left ≤ 24 * l.length + 3 := by
    intro l
    cases l <;> simp [nextByte, WritePos.left]
    omega
  rcases p with _ | ⟨b, k, x, rest⟩ | _ | _ | _
  case bit =>
    cases b <;> simp only [writeStep, Progress.more.injEq] at h <;> rcases h with ⟨-, rfl⟩
    case clkHi =>
      unfold afterBit
      split
      · refine Nat.lt_of_le_of_lt (hn rest) ?_; simp only [WritePos.left]; omega
      · have : (k - 1 : Fin 8).val = k.val - 1 := by revert k; decide
        simp only [WritePos.left]; omega
    all_goals simp [WritePos.left]
  all_goals simp only [writeStep, Progress.more.injEq, reduceCtorEq] at h
  · rcases h with ⟨-, rfl⟩; exact Nat.lt_of_le_of_lt (hn bytes) (by simp only [WritePos.left]; omega)
  · rcases h with ⟨-, rfl⟩; decide
  · rcases h with ⟨-, rfl⟩; decide

theorem readStep_left {i : InstId} {n : Nat} (hn : n ≤ 8) {p q : ReadPos} {s t : State}
    (h : readStep i n p s = .more t q) : q.left < p.left := by
  rcases p with _ | m | m | m | ⟨b, m, bytes, k, acc⟩
  case bit =>
    cases b <;> simp only [readStep, afterBytes] at h
    case clkHi =>
      split at h
      · split at h
        · cases h
        · rename_i hk hl
          cases h
          simp at hl
          simp [ReadPos.left]; omega
      · cases h
        have : (k - 1 : Fin 8).val = k.val - 1 := by revert k; decide
        simp only [ReadPos.left]; omega
    all_goals cases h; simp [ReadPos.left]
  case ldLo =>
    simp only [readStep, afterBytes] at h
    split at h
    · cases h
    · rename_i hl; cases h; simp at hl; simp [ReadPos.left]; omega
  all_goals cases h; simp [ReadPos.left]
  omega

theorem WritePos.left_pos (p : WritePos) : 1 ≤ p.left := by
  rcases p with _ | ⟨b, k, x, rest⟩ | _ | _ | _
  case bit => cases b <;> simp [WritePos.left]
  all_goals decide

theorem ReadPos.left_pos (p : ReadPos) : 1 ≤ p.left := by
  rcases p with _ | m | m | m | ⟨b, m, bytes, k, acc⟩
  case bit => cases b <;> simp [ReadPos.left]
  all_goals simp [ReadPos.left]

theorem RefreshPos.left_pos (p : RefreshPos) : 1 ≤ p.left := by
  rcases p with p | p | p <;> simp [RefreshPos.left]

theorem bc_le (x : BitVec 3) : x.toNat ≤ 8 := by have := x.isLt; omega

theorem snapshot_length (i : InstId) (s : State) : (snapshot i s).length ≤ 8 := by
  simpa [snapshot, farthestFirst] using bc_le _

theorem refreshStep_left {i : InstId} {p q : RefreshPos} {s t : State} (h : refreshStep i p s = .more t q) :
    q.left < p.left := by
  rcases p with p | p | bytes <;> simp only [refreshStep, refreshOutStep, reduceCtorEq] at h
  · split at h
    · rename_i hw; cases h
      have := writeStep_left (snapshot_length i s) hw
      simp only [RefreshPos.left]; omega
    · cases h
      have := p.left_pos
      simp [RefreshPos.left, ReadPos.left]; omega
  · split at h
    · rename_i hw; cases h
      have := readStep_left (bc_le _) hw
      simp only [RefreshPos.left]; omega
    · cases h
      have := p.left_pos
      simp [RefreshPos.left]; omega

/-- A step of a part of a command takes the command on. -/
theorem within_left {π ρ : Type} {x : Progress π ρ} {inside : π → Pos} {after : ρ → Pos} {m : π → Nat} {p : π} {b : Nat}
    (hm : ∀ t q, x = .more t q → m q < m p) (ha : ∀ r, (after r).left ≤ b) (hi : ∀ q, (inside q).left = m q + b)
    (h1 : 1 ≤ m p) : (x.within inside after).2.left < (inside p).left := by
  cases x with
  | more t q => simp only [Progress.within, hi]; have := hm t q rfl; omega
  | done t r => simp only [Progress.within, hi]; have := ha r; omega

/-- What a step of a class S command's program leads to: fewer steps left, or on in a poll loop with the same `t0`;
a poll stays in it only before 65535 microseconds have passed. -/
def Advances (p : Pos) (s : State) (q : Pos) : Prop :=
  q.left < p.left ∨
    ∃ t0 d d', p.toPoll = some (t0, d) ∧ q.toPoll = some (t0, d') ∧ q.left = p.left ∧
      (d = d' + 1 ∨ (d = 0 ∧ d' ≤ 2 ∧ (s.time - t0).toNat < 65535))

theorem reset_advances {i : InstId} {T : Word} (hT : T.toNat ≤ 65535) (p : ResetPos) (s u : State)
    (hu : u.time = s.time) (after : Bool → Pos) (ha : ∀ ok, (after ok).left < 2000) :
    Advances (.reset p) s ((resetStep i T p u).within .reset after).2 := by
  cases p with
  | trigX => exact .inl (by simp [resetStep, Progress.within, Pos.left])
  | trigY => exact .inl (by simp [resetStep, Progress.within, Pos.left])
  | clkLo t0 => exact .inr ⟨t0, 2, 1, rfl, rfl, rfl, .inl rfl⟩
  | clkHi t0 => exact .inr ⟨t0, 1, 0, rfl, rfl, rfl, .inl rfl⟩
  | poll t0 =>
    cases ho : pollOutcome t0 T u with
    | timeout => simp only [resetStep, ho, Progress.within]; exact .inl (ha _)
    | settled el => simp only [resetStep, ho, Progress.within]; exact .inl (ha _)
    | goOn =>
      simp only [resetStep, ho, Progress.within]
      refine .inr ⟨t0, 0, 2, rfl, rfl, rfl, .inr ⟨rfl, le_refl _, ?_⟩⟩
      unfold pollOutcome elapsed at ho
      split at ho
      · cases ho
      · rename_i hle
        rw [← hu]
        have : (u.time - t0).toNat < T.toNat := by simpa [BitVec.le_def] using hle
        omega

theorem analog_advances {i : InstId} {a : Bool} {T : Word} (hT : T.toNat ≤ 65535) (p : AnalogPos) (s : State)
    (after : Word × ResultCode → Pos) (ha : ∀ r, (after r).left < 2) :
    Advances (.analog p) s ((analogStep i a T p s).within .analog after).2 := by
  cases p with
  | trigLo => exact .inl (by simp [analogStep, Progress.within, Pos.left])
  | trigHi => exact .inl (by simp [analogStep, Progress.within, Pos.left])
  | poll t0 =>
    cases ho : pollOutcome t0 T s with
    | timeout => simp only [analogStep, ho, Progress.within]; exact .inl (ha _)
    | settled el => simp only [analogStep, ho, Progress.within]; exact .inl (ha _)
    | goOn =>
      simp only [analogStep, ho, Progress.within]
      refine .inr ⟨t0, 0, 0, rfl, rfl, rfl, .inr ⟨rfl, by omega, ?_⟩⟩
      unfold pollOutcome elapsed at ho
      split at ho
      · cases ho
      · rename_i hle
        have : (s.time - t0).toNat < T.toNat := by simpa [BitVec.le_def] using hle
        omega

theorem resetTimeout_le (imm : BitVec 16) : (resetTimeout imm).toNat ≤ 65535 := by
  have := imm.isLt; simp [resetTimeout]; omega

theorem analogTimeout_le (imm : BitVec 16) : (analogTimeout imm).toNat ≤ 65535 := by
  have := imm.isLt; simp [analogTimeout]; omega

/-- A position of a class S command, other than its finish, has a step, and that step advances. -/
theorem runOf_advances {c : Instr} {i : InstId} {p : Pos} {s : State} (hi : instOperand c = some i)
    (hok : p.ok c (s.inst i)) (hf : ∀ rc r, p ≠ .finish rc r) :
    ∃ t q, runOf c p s = some (t, q) ∧ Advances p s q := by
  have hw : ∀ (q : WritePos) (bytes : List Byte) (inside : WritePos → Pos) (after : Unit → Pos) (b : Nat),
      bytes.length ≤ 8 → (∀ r, (after r).left ≤ b) → (∀ q, (inside q).left = q.left + b) →
        Advances (inside q) s ((writeStep i bytes q s).within inside after).2 :=
    fun q bytes inside after b hb ha hi => .inl (within_left (fun t r h => writeStep_left hb h) ha hi q.left_pos)
  have hr : ∀ (q : RefreshPos) (ok : Bool) (after : Unit → Pos), (∀ r, (after r).left ≤ 1) →
        Advances (.refresh ok q) s ((refreshStep i q s).within (.refresh ok) after).2 :=
    fun q ok after ha => .inl (within_left (fun t r h => refreshStep_left h) ha (fun q => rfl) q.left_pos)
  have z8 : zeroBytes.length ≤ 8 := by decide
  cases c <;> simp only [instOperand, Option.some.injEq, reduceCtorEq] at hi
  all_goals subst hi
  all_goals
    cases p <;> simp only [Pos.ok, and_false] at hok <;>
      first
        | exact absurd rfl (hf _ _)
        | skip
  case treset.reset i imm q =>
    exact ⟨_, _, rfl, reset_advances (resetTimeout_le _) q s s rfl _ (fun ok => by simp [Pos.left])⟩
  case twrite.write i n q =>
    exact ⟨_, _, rfl, hw q _ .write _ 1 (by simpa [farthestFirst] using bc_le _) (fun _ => by simp [Pos.left]) (fun _ => rfl)⟩
  case twrzero.zero i ok q =>
    exact ⟨_, _, rfl, hw q _ (.zero ok) _ 1000 z8 (fun _ => by simp [Pos.left]) (fun _ => rfl)⟩
  case tread.read i n q =>
    exact ⟨_, _, rfl, .inl (within_left (fun t r h => readStep_left (bc_le _) h) (b := 1) (fun _ => by simp [Pos.left])
      (fun _ => rfl) q.left_pos)⟩
  case tanalog.analog i a imm q =>
    exact ⟨_, _, rfl, analog_advances (analogTimeout_le _) q s _ (fun r => by simp [Pos.left])⟩
  case tanalog8.analog i a q =>
    exact ⟨_, _, rfl, analog_advances (by decide) q s _ (fun r => by simp [Pos.left])⟩
  case mcons.reset i n q =>
    exact ⟨_, _, rfl, reset_advances (resetTimeout_le _) q s _ (by cases q <;> rfl) _ (fun ok => by simp [Pos.left, WritePos.left])⟩
  case mcons.zero i n ok q =>
    exact ⟨_, _, rfl, hw q _ (.zero ok) _ 1000 z8 (fun _ => by simp [Pos.left, RefreshPos.left, WritePos.left]) (fun _ => rfl)⟩
  case mcons.refresh i n ok q => exact ⟨_, _, rfl, hr q ok _ (fun _ => by simp [Pos.left])⟩
  case refo.refresh i ok q =>
    obtain ⟨-, q, rfl⟩ := hok
    refine ⟨_, _, rfl, hw q _ (fun q => .refresh ok (.out q)) _ 302 (snapshot_length _ _) (fun _ => by simp [Pos.left]) (fun _ => rfl)⟩
  case refi.refresh i ok q =>
    rcases q with q | q | q
    · exact absurd ⟨_, rfl⟩ hok.2
    · exact ⟨_, _, rfl, hr (.inp q) ok _ (fun _ => by simp [Pos.left])⟩
    · exact ⟨_, _, rfl, hr (.commit q) ok (fun _ => .finish .ok none) (fun _ => by simp [Pos.left])⟩
  case ref.refresh i ok q => exact ⟨_, _, rfl, hr q ok _ (fun _ => by simp [Pos.left])⟩

theorem startOf_left (c : Instr) : (startOf c).left < 2010 := by
  cases c <;> simp [startOf, Pos.left, WritePos.left, ReadPos.left, RefreshPos.left]

/-- A bound on the SEQ steps left of a round that stands at `p`. -/
def roundLeft (s : State) : Option RefreshPos → Nat
  | none => 1000 * (s.regOrder.length - s.roundPos) + 1
  | some p => 1000 * (s.regOrder.length - s.roundPos - 1) + p.left + 2

/-! ### Steps that are none of SEQ's -/

/-- SEQ has something to do: a job or a round runs or waits. -/
def Wants (s : State) : Prop := s.seq ≠ .idle ∨ s.busy = true ∨ s.roundPending = true

/-- Nothing of what SEQ does next has changed but that a job or a round may wait where none did. -/
structure Kept (s t : State) : Prop where
  params : t.params = s.params
  seq : t.seq = s.seq
  seqLastT : t.seqLastT = s.seqLastT
  lastGrant : t.lastGrant = s.lastGrant
  regOrder : t.regOrder = s.regOrder
  roundPos : t.roundPos = s.roundPos
  busy : s.busy = true → t.busy = true
  jobWord : s.busy = true → t.jobWord = s.jobWord
  pending : s.roundPending = true → t.roundPending = true

theorem Kept.refl (s : State) : Kept s s := ⟨rfl, rfl, rfl, rfl, rfl, rfl, id, fun _ => rfl, id⟩

theorem Kept.trans {s t u : State} (h : Kept s t) (k : Kept t u) : Kept s u where
  params := k.params.trans h.params
  seq := k.seq.trans h.seq
  seqLastT := k.seqLastT.trans h.seqLastT
  lastGrant := k.lastGrant.trans h.lastGrant
  regOrder := k.regOrder.trans h.regOrder
  roundPos := k.roundPos.trans h.roundPos
  busy := k.busy ∘ h.busy
  jobWord hb := (k.jobWord (h.busy hb)).trans (h.jobWord hb)
  pending := k.pending ∘ h.pending

theorem Kept.wants {s t : State} (h : Kept s t) (w : Wants s) : Wants t := by
  obtain w | w | w := w
  · exact .inl (by rw [h.seq]; exact w)
  · exact .inr (.inl (h.busy w))
  · exact .inr (.inr (h.pending w))

theorem Kept.roundLeft {s t : State} (h : Kept s t) (p : Option RefreshPos) : roundLeft t p = roundLeft s p := by
  cases p <;> simp only [Machine.roundLeft, h.regOrder, h.roundPos]

/-- What a step of HOST or TB leaves; `hardReset` apart. -/
theorem act_kept {a : Action} {s t : State} (ha : a ≠ .seq) (hr : a ≠ .reset) (h : act a s = .next t) :
    Kept s t ∧ t.time = if a = .tb then s.time + 1 else s.time := by
  cases a with
  | seq => exact absurd rfl ha
  | reset => exact absurd rfl hr
  | regRead a => cases h; exact ⟨⟨rfl, rfl, rfl, rfl, rfl, rfl, id, fun _ => rfl, id⟩, rfl⟩
  | tb =>
    cases h
    unfold tbStep periodicTick
    split
    · split
      · split
        · exact ⟨⟨rfl, rfl, rfl, rfl, rfl, rfl, id, fun _ => rfl, id⟩, rfl⟩
        · exact ⟨⟨rfl, rfl, rfl, rfl, rfl, rfl, id, fun _ => rfl, fun _ => rfl⟩, rfl⟩
      · exact ⟨⟨rfl, rfl, rfl, rfl, rfl, rfl, id, fun _ => rfl, id⟩, rfl⟩
    · exact ⟨⟨rfl, rfl, rfl, rfl, rfl, rfl, id, fun _ => rfl, id⟩, rfl⟩
  | regWrite a v =>
    have other : ∀ u, u.params = s.params → u.seq = s.seq → u.seqLastT = s.seqLastT → u.lastGrant = s.lastGrant →
        u.regOrder = s.regOrder → u.roundPos = s.roundPos → u.busy = s.busy → u.jobWord = s.jobWord →
        u.roundPending = s.roundPending → u.time = s.time →
        Kept s u ∧ u.time = if Action.regWrite a v = .tb then s.time + 1 else s.time :=
      fun u h1 h2 h3 h4 h5 h6 h7 h8 h9 h10 =>
        ⟨⟨h1, h2, h3, h4, h5, h6, fun h => h7.trans h, fun _ => h8, fun h => h9.trans h⟩, h10⟩
    simp only [act, writePort] at h
    split at h
    · unfold writeCmd at h
      split at h
      · cases h; exact other _ rfl rfl rfl rfl rfl rfl rfl rfl rfl rfl
      · rename_i hb
        split at h
        · cases h; exact other _ rfl rfl rfl rfl rfl rfl rfl rfl rfl rfl
        · rename_i c hd
          by_cases hc : cmdClass c = .cache
          · rw [exec_cache c hc] at h
            cases h
            obtain ⟨rc, -, he⟩ | ⟨-, he⟩ := cacheCommand_cases c (cacheEffectOf c) { s with cmdReg := v }
            · rw [he]; exact other _ rfl rfl rfl rfl rfl rfl rfl rfl rfl rfl
            · rw [he]
              apply other <;> (cases c <;> rfl)
          · rw [exec_issue hc (by simpa using hb)] at h
            cases h
            obtain ⟨rc, -, he⟩ | ⟨-, he⟩ := issueJob_cases c { s with cmdReg := v }
            · rw [he]; exact other _ rfl rfl rfl rfl rfl rfl rfl rfl rfl rfl
            · rw [he]
              exact ⟨⟨rfl, rfl, rfl, rfl, rfl, rfl, fun _ => rfl, fun h => absurd h hb, id⟩, rfl⟩
    · cases h; exact other _ rfl rfl rfl rfl rfl rfl rfl rfl rfl rfl
    · cases h; exact other _ rfl rfl rfl rfl rfl rfl rfl rfl rfl rfl
    · cases h; exact other _ rfl rfl rfl rfl rfl rfl rfl rfl rfl rfl

/-! ### Steps of SEQ -/

/-- The arbiter picks something exactly when a job or a round waits (R181). -/
theorem pick_isSome (s : State) : (pick s).isSome = (s.busy || s.roundPending) := by
  unfold pick
  cases s.roundPending <;> cases s.busy <;> simp
  split <;> rfl

/-- With the phase hold met, a SEQ step is enabled exactly when SEQ has something to do. -/
theorem seqEnabled_of_phaseMet {s : State} (h : phaseMet s = true) : seqEnabled s = true ↔ Wants s := by
  unfold seqEnabled Wants
  cases hs : s.seq with
  | hostRun p => simp [h]
  | round p => cases p <;> simp [h]
  | idle => simp [pick_isSome]

/-- A SEQ step is not enabled though SEQ has something to do: it is held at a line step (R93). -/
theorem held_of_not_seqEnabled {s : State} (h : seqEnabled s = false) (w : Wants s) :
    phaseMet s = false ∧ ∀ t : State, t.seq = s.seq → seqEnabled t = phaseMet t := by
  have hp : phaseMet s = false := by
    by_contra hne
    rw [(seqEnabled_of_phaseMet (by simpa using hne)).mpr w] at h
    cases h
  refine ⟨hp, fun t ht => ?_⟩
  have wi : s.seq ≠ .idle := by
    intro hs
    simp only [seqEnabled, hs, pick_isSome, Bool.or_eq_false_iff] at h
    simp [Wants, hs, h] at w
  unfold seqEnabled at h ⊢
  rw [ht]
  cases hs : s.seq with
  | idle => exact absurd hs wi
  | hostRun p =>
    rw [hs] at h
    simp only [hp, Bool.or_false, Bool.not_eq_false'] at h
    simp [h]
  | round p =>
    rw [hs] at h
    cases p with
    | none => cases h
    | some p =>
      simp only [hp, Bool.or_false, Bool.not_eq_false'] at h
      simp [h]

/-- A SEQ step that is not enabled changes nothing (R176; notes/assumptions/5.md), in a state that satisfies the
invariant. -/
theorem seqStep_not_enabled {s : State} (hi : Inv s) (h : seqEnabled s = false) : seqStep s = .next s := by
  unfold seqEnabled at h
  unfold seqStep
  cases hs : s.seq with
  | idle =>
    rw [hs] at h
    simp only [Option.isSome_eq_false_iff, Option.isNone_iff_eq_none] at h
    simp [h]
  | hostRun p =>
    rw [hs] at h
    simp only [Bool.or_eq_false_iff, Bool.not_eq_false'] at h
    obtain ⟨hb, c, i, hw, -, -⟩ := hi.run p hs
    simp only [jobStep, hb, hw, if_true]
    split
    · rfl
    · rename_i hc
      cases hk : cmdClass c with
      | cache => exact absurd hk hc
      | registry => rw [exec_registry c hk]; simp [registryCommand, hb, hs]
      | sequenced =>
        rw [exec_sequenced c hk, sequencedCommand_run _ _ _ _ hb hs (by rintro rc r rfl; simp [Pos.isLine] at h)]
        simp [programStep, h]
  | round p =>
    rw [hs] at h
    cases p with
    | none => cases h
    | some p =>
      simp only [Bool.or_eq_false_iff, Bool.not_eq_false'] at h
      simp only [roundLineStep]
      split
      · simp [roundRefreshStep, h]
      · rfl

/-- A SEQ step of a running host job finishes it, or takes its program on. -/
theorem seqStep_hostRun {s t : State} {p : Pos} (h : Inv s) (hs : s.seq = .hostRun p) (he : seqEnabled s = true)
    (ht : seqStep s = .next t) :
    t.params = s.params ∧ t.lastGrant = s.lastGrant ∧
      ((t.busy = false ∧ t.seq = .idle) ∨
        (t.busy = true ∧ t.jobWord = s.jobWord ∧ t.time = s.time ∧ ∃ q, t.seq = .hostRun q ∧ Advances p s q)) := by
  obtain ⟨hb, c, i, hw, hi, hok⟩ := h.run p hs
  obtain ⟨c', hw', hc, hv⟩ := h.job hb
  rw [hw] at hw'
  cases hw'
  have hk : cmdClass c = .sequenced := by
    cases c <;> first | rfl | (cases p <;> simp [Pos.ok, cmdClass] at hok)
  simp only [seqStep, hs, jobStep, hb, hw, if_true, if_neg hc] at ht
  rw [exec_sequenced c hk] at ht
  cases ht
  by_cases hf : ∃ rc r, p = .finish rc r
  · obtain ⟨rc, r, rfl⟩ := hf
    simp only [sequencedCommand, hb, hs, if_true]
    refine ⟨?_, ?_, .inl ⟨rfl, rfl⟩⟩ <;> cases c <;> rfl
  · have hf : ∀ rc r, p ≠ .finish rc r := fun rc r e => hf ⟨rc, r, e⟩
    rw [sequencedCommand_run _ _ _ _ hb hs hf]
    obtain ⟨u, q, hr, ha⟩ := runOf_advances hi hok hf
    have hfr := (runOf_ok c i hi (validate_none hi hv).2.2 p s u q hr hok).2
    have hsh := hfr.shared
    simp only [SameShared] at hsh
    have hl : (p.isLine && !phaseMet s) = false := by
      unfold seqEnabled at he
      rw [hs] at he
      simp only at he
      cases hp : phaseMet s <;> simp_all
    have hst : programStep (runOf c) p s = { u with seq := .hostRun q } := by
      simp only [programStep, hl, hr]; rfl
    rw [hst]
    exact ⟨by tauto, hfr.lastGrant, .inr ⟨hfr.busy.trans hb, hfr.jobWord, by tauto, q, rfl, ha⟩⟩

/-- What a refresh step inside a round leaves alone. -/
theorem refreshStep_work (j : InstId) (p : RefreshPos) (s : State) :
    (refreshStep j p s).state.regOrder = s.regOrder ∧ (refreshStep j p s).state.roundPos = s.roundPos ∧
      (refreshStep j p s).state.busy = s.busy ∧ (refreshStep j p s).state.jobWord = s.jobWord ∧
      (refreshStep j p s).state.params = s.params ∧ (refreshStep j p s).state.lastGrant = s.lastGrant := by
  have f := refreshStep_frame j p s
  have g := f.shared
  simp only [SameShared] at g
  exact ⟨by tauto, by tauto, f.busy, f.jobWord, by tauto, f.lastGrant⟩

/-- A SEQ step of a running round ends it, or takes it on. -/
theorem seqStep_round {s t : State} {p : Option RefreshPos} (h : Inv s) (hs : s.seq = .round p)
    (he : seqEnabled s = true) (ht : seqStep s = .next t) :
    t.busy = s.busy ∧ t.jobWord = s.jobWord ∧ t.params = s.params ∧ t.lastGrant = s.lastGrant ∧
      ((t.seq = .idle ∧ t.roundActive = false) ∨ ∃ q, t.seq = .round q ∧ roundLeft t q < roundLeft s p) := by
  unfold seqStep at ht
  cases p with
  | none =>
    simp only [hs] at ht
    cases ht
    unfold turnStep
    split
    · exact ⟨rfl, rfl, rfl, rfl, .inl ⟨rfl, rfl⟩⟩
    · rename_i j hj
      have hlt : s.roundPos < s.regOrder.length := (List.getElem?_eq_some_iff.mp hj).1
      split
      · exact ⟨rfl, rfl, rfl, rfl, .inr ⟨none, hs, by simp only [roundLeft]; omega⟩⟩
      · exact ⟨rfl, rfl, rfl, rfl, .inr ⟨_, rfl, by simp only [roundLeft, RefreshPos.left, WritePos.left]; omega⟩⟩
  | some p =>
    simp only [hs] at ht
    cases ht
    obtain ⟨j, hj, -⟩ := h.turn p hs
    have hlt : s.roundPos < s.regOrder.length := (List.getElem?_eq_some_iff.mp hj).1
    have hl : (p.isLine && !phaseMet s) = false := by
      unfold seqEnabled at he
      rw [hs] at he
      simp only at he
      cases hp : phaseMet s <;> simp_all
    obtain ⟨h1, h2, h3, h4, h5, h6⟩ := refreshStep_work j p s
    simp only [roundLineStep, hj, roundRefreshStep, hl, Bool.false_eq_true, if_false]
    cases hr : refreshStep j p s with
    | more t q =>
      have := refreshStep_left hr
      rw [hr] at h1 h2 h3 h4 h5 h6
      simp only [Progress.state] at h1 h2 h3 h4 h5 h6
      refine ⟨h3, h4, h5, h6, .inr ⟨some q, rfl, ?_⟩⟩
      simp only [roundLeft, h1, h2]
      omega
    | done t r =>
      rw [hr] at h1 h2 h3 h4 h5 h6
      simp only [Progress.state] at h1 h2 h3 h4 h5 h6
      refine ⟨h3, h4, h5, h6, .inr ⟨none, rfl, ?_⟩⟩
      have := p.left_pos
      simp only [roundLeft, h1, h2]
      omega

/-- A SEQ step with SEQ IDLE and something waiting: the grant of a round, or the grant of the host job, which a class R
command ends and a class S command begins with. -/
theorem seqStep_idle {s t : State} (h : Inv s) (hs : s.seq = .idle) (he : seqEnabled s = true) (ht : seqStep s = .next t) :
    t.params = s.params ∧
    ((s.roundPending = true ∧ (s.busy = false ∨ s.lastGrant = .host) ∧ t = grantRound s) ∨
      ((s.roundPending = false ∨ s.lastGrant = .round) ∧ t.lastGrant = .host ∧
        ((t.busy = false ∧ t.seq = .idle) ∨ (t.busy = true ∧ t.jobWord = s.jobWord ∧ ∃ p, t.seq = .hostRun p)))) := by
  unfold seqStep at ht
  unfold seqEnabled at he
  rw [hs] at he
  simp only [hs] at ht
  cases hp : pick s with
  | none => rw [hp] at he; cases he
  | some g =>
    have hk := hp
    unfold pick at hk
    rw [hp] at ht
    cases g with
    | round =>
      cases ht
      split at hk
      · rename_i hc; simp at hc; exact ⟨rfl, .inl ⟨hc.1, hc.2, rfl⟩⟩
      · split at hk <;> cases hk
    | host =>
      have hb : s.busy = true := by
        split at hk
        · cases hk
        · split at hk
          · assumption
          · cases hk
      obtain ⟨c, hw, hc, hv⟩ := h.job hb
      have hw' : s.roundPending = false ∨ s.lastGrant = .round := by
        split at hk
        · cases hk
        · rename_i hn
          cases hr : s.roundPending with
          | false => exact .inl rfl
          | true =>
            refine .inr ?_
            cases hg : s.lastGrant with
            | round => rfl
            | host => simp [hr, hg] at hn
      suffices t.params = s.params ∧ t.lastGrant = .host ∧
          ((t.busy = false ∧ t.seq = .idle) ∨ (t.busy = true ∧ t.jobWord = s.jobWord ∧ ∃ p, t.seq = .hostRun p)) from
        ⟨this.1, .inr ⟨hw', this.2⟩⟩
      simp only [jobStep, hb, hw, if_true, if_neg hc] at ht
      cases hk : cmdClass c with
      | cache => exact absurd hk hc
      | registry =>
        rw [exec_registry c hk] at ht
        cases ht
        simp only [registryCommand, hb, hs, if_true]
        refine ⟨?_, ?_, .inl ⟨rfl, rfl⟩⟩ <;> cases c <;>
          first
            | rfl
            | (simp only [effectOf, finish, destroyInst, clearInst, setInst_lastGrant, setInst_params, deregister_eq]
               split <;> rfl)
      | sequenced =>
        rw [exec_sequenced c hk] at ht
        cases ht
        simp only [sequencedCommand, hb, hs, if_true]
        exact ⟨trivial, trivial, .inr ⟨trivial, trivial, _, rfl⟩⟩

end Sys2Proof.Machine
end

