-- ==== Sys2Proof/Laws/Executions.lean ====
section
/-! SUPPORT. Infinite executions (Machine/Execution.lean): one step of one, the steps up to the next enabled step of SEQ,
and that such a step comes (`next_of_fair`, `next_of_paced`). -/

namespace Sys2Proof.Machine

variable {sched : Nat → Action} {env : Nat → Bool} {run : Nat → State}

/-- A step of an execution is the step of its agent, the choice of it used up. -/
theorem Execution.act (hx : Execution sched env run) (k : Nat) :
    act (sched k) { run k with script := [], draws := [env k] } = .next (run (k + 1)) := hx k

/-- In a state that satisfies the invariant, a step of SEQ that is not enabled, or a step of HOST or TB other than a
reset, leaves SEQ's work alone; only TB moves TIME. -/
theorem Execution.rest (hx : Execution sched env run) {k : Nat} (hi : Inv (run k)) (hr : sched k ≠ .reset)
    (he : sched k = .seq → seqEnabled (run k) = false) :
    Kept (run k) (run (k + 1)) ∧
      (run (k + 1)).time = if sched k = .tb then (run k).time + 1 else (run k).time := by
  have h := hx.act k
  by_cases hs : sched k = .seq
  · rw [hs] at h
    have hi' : Inv { run k with script := [], draws := [env k] } := hi.congr (by simp [SameInv])
    rw [show Machine.act .seq { run k with script := [], draws := [env k] } = _ from
      seqStep_not_enabled hi' (he hs)] at h
    rw [← Host.Outcome.next.inj h]
    exact ⟨⟨rfl, rfl, rfl, rfl, rfl, rfl, id, fun _ => rfl, id⟩, by rw [hs]; rfl⟩
  · obtain ⟨hk, ht⟩ := act_kept hs hr h
    exact ⟨⟨hk.params, hk.seq, hk.seqLastT, hk.lastGrant, hk.regOrder, hk.roundPos, hk.busy, hk.jobWord, hk.pending⟩, ht⟩

/-- The SEQ step of an execution, as a step of its state. -/
theorem Execution.seq (hx : Execution sched env run) {k : Nat} (hs : sched k = .seq) :
    seqStep { run k with script := [], draws := [env k] } = .next (run (k + 1)) := by
  have h := hx.act k
  rw [hs] at h
  exact h

/-- The invariant of the state a step of an execution starts from. -/
theorem Inv.choice {s : State} (h : Inv s) (d : Bool) : Inv { s with script := [], draws := [d] } :=
  h.congr (by simp [SameInv])

/-- From step `k` on, step `m` is the first SEQ step that is enabled. -/
structure Next (sched : Nat → Action) (run : Nat → State) (k m : Nat) : Prop where
  le : k ≤ m
  seq : sched m = .seq
  enabled : seqEnabled (run m) = true
  first : ∀ j, k ≤ j → j < m → sched j = .seq → seqEnabled (run j) = false

/-- `n` ticks of TIME lie between two states. -/
def Ticks (n : Nat) (s t : State) : Prop := t.time = s.time + BitVec.ofNat 32 n

theorem Ticks.zero {s t : State} (h : t.time = s.time) : Ticks 0 s t := by simp [Ticks, h]

theorem Ticks.trans {m n : Nat} {s t u : State} (h : Ticks m s t) (k : Ticks n t u) : Ticks (m + n) s u := by
  unfold Ticks at *
  rw [k, h, BitVec.add_assoc, BitVec.ofNat_add]

/-- The time since `x`, `n` ticks later. -/
theorem Ticks.since {n : Nat} {s t : State} (h : Ticks n s t) (x : Word) :
    (t.time - x).toNat = ((s.time - x).toNat + n) % 2 ^ 32 := by
  rw [h, BitVec.toNat_sub, BitVec.toNat_add, BitVec.toNat_sub, BitVec.toNat_ofNat]
  have := s.time.isLt
  have := x.isLt
  omega

/-- With neither a reset nor an enabled SEQ step among them, steps leave SEQ's work alone, and at most as many ticks pass
as there are steps. -/
theorem Execution.kept (hx : Execution sched env run) (hi : ∀ k, Inv (run k)) {k m : Nat} (hkm : k ≤ m)
    (hr : ∀ j, k ≤ j → sched j ≠ .reset) (hf : ∀ j, k ≤ j → j < m → sched j = .seq → seqEnabled (run j) = false) :
    Kept (run k) (run m) ∧ ∃ n, n ≤ m - k ∧ Ticks n (run k) (run m) := by
  induction m, hkm using Nat.le_induction with
  | base => exact ⟨.refl _, 0, Nat.zero_le _, .zero rfl⟩
  | succ m hm ih =>
    obtain ⟨h1, n, hn, h2⟩ := ih fun j hj hjm => hf j hj (by omega)
    obtain ⟨h3, h4⟩ := hx.rest (hi m) (hr m hm) (hf m hm (by omega))
    refine ⟨h1.trans h3, ?_⟩
    split at h4
    · exact ⟨n + 1, by omega, h2.trans (by simp [Ticks, h4])⟩
    · exact ⟨n, by omega, h2.trans (.zero h4)⟩

/-- With no phase hold, fairness alone brings a SEQ step that is enabled, as long as SEQ has something to do. -/
theorem Execution.next_of_fair (hx : Execution sched env run) (hi : ∀ k, Inv (run k)) (hf : Fair sched run) {k : Nat}
    (hr : ∀ j, k ≤ j → sched j ≠ .reset) (h0 : (run k).params.phaseMinUs = 0) (w : Wants (run k)) :
    ∃ m, Next sched run k m := by
  by_contra hn
  have hall : ∀ m, k ≤ m → sched m ≠ .seq ∧ seqEnabled (run m) = true := by
    intro m
    induction m using Nat.strong_induction_on with
    | _ m ih =>
      intro hm
      have hk := (hx.kept hi hm hr fun j hj hjm hs => absurd hs (ih j hjm hj).1).1
      have he : seqEnabled (run m) = true :=
        (seqEnabled_of_phaseMet (by simp [phaseMet, hk.params, h0])).mpr (hk.wants w)
      exact ⟨fun hs => hn ⟨m, hm, hs, he, fun j hj hjm hs => absurd hs (ih j hjm hj).1⟩, he⟩
  obtain ⟨m, hm, hs⟩ := hf.seq k fun m hm => (hall m hm).2
  exact (hall m hm).1 hs

/-- TIME goes on by any number of ticks. `P` may be asked to hold all the way (of a step's start), if every step that
starts from it, with fewer ticks gone by, keeps it and moves TIME by the tick of TB alone. -/
theorem ticks_pass {P : Nat → Prop} (hf : Fair sched run) (n : Nat) :
    ∀ k, P k → (∀ j d, k ≤ j → d < n → Ticks d (run k) (run j) → P j →
        P (j + 1) ∧ (run (j + 1)).time = if sched j = .tb then (run j).time + 1 else (run j).time) →
      ∃ m, k ≤ m ∧ P m ∧ Ticks n (run k) (run m) ∧
        ∀ j, k ≤ j → j < m → P j ∧ ∃ d, d < n ∧ Ticks d (run k) (run j) := by
  induction n with
  | zero => exact fun k hp _ => ⟨k, le_refl _, hp, .zero rfl, fun j hj hjk => by omega⟩
  | succ n ih =>
    intro k hp hstep
    obtain ⟨m, hm, hpm, ht, hall⟩ := ih k hp fun j d hj hd => hstep j d hj (by omega)
    have htb := hf.tb m
    obtain ⟨hle, htb'⟩ := Nat.find_spec htb
    have hmin : ∀ j, m ≤ j → j < Nat.find htb → sched j ≠ .tb := fun j hj hjt h => Nat.find_min htb hjt ⟨hj, h⟩
    generalize Nat.find htb = u at hle htb' hmin
    have hto : ∀ j, m ≤ j → j ≤ u → P j ∧ Ticks n (run k) (run j) := by
      intro j hj
      induction j, hj using Nat.le_induction with
      | base => exact fun _ => ⟨hpm, ht⟩
      | succ j hj ih' =>
        intro hju
        obtain ⟨h1, h2⟩ := ih' (by omega)
        obtain ⟨h3, h4⟩ := hstep j n (by omega) (by omega) h2 h1
        rw [if_neg (hmin j hj (by omega))] at h4
        exact ⟨h3, h2.trans (.zero h4)⟩
    obtain ⟨h1, h2⟩ := hto u hle (le_refl _)
    obtain ⟨h3, h4⟩ := hstep u n (by omega) (by omega) h2 h1
    rw [if_pos htb'] at h4
    refine ⟨u + 1, by omega, h3, h2.trans (by simp [Ticks, h4]), fun j hj hju => ?_⟩
    by_cases hjm : j < m
    · obtain ⟨h5, d, h6, h7⟩ := hall j hj hjm
      exact ⟨h5, d, by omega, h7⟩
    · obtain ⟨h5, h6⟩ := hto j (by omega) (by omega)
      exact ⟨h5, n, by omega, h6⟩

/-- With SEQ stepping often enough, a SEQ step that is enabled comes before TIME can wrap, as long as SEQ has something
to do, though line steps are held (R93). -/
theorem Execution.next_of_paced (hx : Execution sched env run) (hi : ∀ k, Inv (run k)) (hf : Fair sched run)
    (hp : Paced sched) {k : Nat} (hr : ∀ j, k ≤ j → sched j ≠ .reset) (hh : (run k).params.phaseMinUs ≤ 2 ^ 28)
    (w : Wants (run k)) : ∃ m, Next sched run k m ∧ ∃ n, n ≤ 3 * 2 ^ 28 ∧ Ticks n (run k) (run m) := by
  -- the first step of SEQ that the schedule holds from `j` on, where none is enabled on the way from `k` to `j`
  have first : ∀ j, k ≤ j → (∀ i, k ≤ i → i < j → sched i = .seq → seqEnabled (run i) = false) →
      ∃ m, j ≤ m ∧ m < j + 2 ^ 28 ∧ sched m = .seq ∧
        ∀ i, k ≤ i → i < m → sched i = .seq → seqEnabled (run i) = false := by
    intro j hj hf
    have hex := hp j
    obtain ⟨h1, h2, h3⟩ := Nat.find_spec hex
    have hmin : ∀ i, j ≤ i → i < Nat.find hex → sched i ≠ .seq :=
      fun i hi hit h => Nat.find_min hex hit ⟨hi, by omega, h⟩
    refine ⟨_, h1, h2, h3, fun i hi him hs => ?_⟩
    by_cases hij : i < j
    · exact hf i hi hij hs
    · exact absurd hs (hmin i (by omega) him)
  obtain ⟨a, hka, hak, hsa, hfa⟩ := first k (le_refl _) fun i _ _ => by omega
  obtain ⟨hkept, n, hn, ht⟩ := hx.kept hi hka hr hfa
  cases hea : seqEnabled (run a) with
  | true => exact ⟨a, ⟨hka, hsa, hea, hfa⟩, n, by omega, ht⟩
  | false =>
    obtain ⟨hpm, hheld⟩ := held_of_not_seqEnabled hea (hkept.wants w)
    have hlt : ((run a).time - (run a).seqLastT).toNat < (run a).params.phaseMinUs := by
      simpa [phaseMet] using hpm
    rw [hkept.params] at hlt
    obtain ⟨e, hee⟩ : ∃ e, e = ((run a).time - (run a).seqLastT).toNat := ⟨_, rfl⟩
    -- until the hold is lifted nothing is enabled
    have hpass := ticks_pass (P := fun j => Kept (run a) (run j)) hf ((run k).params.phaseMinUs - e) a (.refl _)
      fun j d hj hd htd hpj => by
        have : seqEnabled (run j) = false := by
          rw [hheld _ hpj.seq]
          simp only [phaseMet, hpj.seqLastT, hpj.params, hkept.params, htd.since, decide_eq_false_iff_not]
          omega
        obtain ⟨h1, h2⟩ := hx.rest (hi j) (hr j (by omega)) fun _ => this
        exact ⟨hpj.trans h1, h2⟩
    obtain ⟨b, hab, hkb, htb, hall⟩ := hpass
    have hfb : ∀ i, k ≤ i → i < b → sched i = .seq → seqEnabled (run i) = false := by
      intro i hki hib hs
      by_cases hia : i < a
      · exact hfa i hki hia hs
      · obtain ⟨h1, d, h2, h3⟩ := hall i (by omega) hib
        rw [hheld _ h1.seq]
        simp only [phaseMet, h1.seqLastT, h1.params, hkept.params, h3.since, decide_eq_false_iff_not]
        omega
    obtain ⟨c, hbc, hcb, hsc, hfc⟩ := first b (by omega) hfb
    obtain ⟨hkc, n', hn', ht'⟩ := hx.kept hi hbc (fun j hj => hr j (by omega)) fun i hi' hic => hfc i (by omega) hic
    refine ⟨c, ⟨by omega, hsc, ?_, hfc⟩, n + ((run k).params.phaseMinUs - e) + n', by omega, (ht.trans htb).trans ht'⟩
    rw [hheld _ (hkc.seq.trans hkb.seq)]
    simp only [phaseMet, hkc.seqLastT, hkb.seqLastT, hkc.params, hkb.params, hkept.params, (htb.trans ht').since,
      decide_eq_true_eq]
    omega

/-! ### A running job and a running round end -/

/-- An execution in which a SEQ step that is enabled comes as long as SEQ has something to do and PHASE_MIN_US is at most
`B` (`next_of_fair` for 0, `next_of_paced` for 2 ^ 28). -/
structure Served (sched : Nat → Action) (env : Nat → Bool) (run : Nat → State) (B : Nat) : Prop where
  execution : Execution sched env run
  inv : ∀ k, Inv (run k)
  next : ∀ k, (∀ j, k ≤ j → sched j ≠ .reset) → (run k).params.phaseMinUs ≤ B → Wants (run k) → ∃ m, Next sched run k m

/-- The next SEQ step that is enabled, and all that is the same when it comes. -/
theorem Served.step {B} (x : Served sched env run B) {k} (hr : ∀ j, k ≤ j → sched j ≠ .reset)
    (hb : (run k).params.phaseMinUs ≤ B) (w : Wants (run k)) :
    ∃ m, k ≤ m ∧ Kept (run k) (run m) ∧ sched m = .seq ∧ seqEnabled (run m) = true ∧
      seqStep { run m with script := [], draws := [env m] } = .next (run (m + 1)) := by
  obtain ⟨m, hm⟩ := x.next k hr hb w
  exact ⟨m, hm.le, (x.execution.kept x.inv hm.le hr hm.first).1, hm.seq, hm.enabled, x.execution.seq hm.seq⟩

/-- A running round ends, with LAST_GRANT and an outstanding job as they were. -/
theorem Served.round_ends {B} (x : Served sched env run B) : ∀ n k p, (∀ j, k ≤ j → sched j ≠ .reset) →
    (run k).params.phaseMinUs ≤ B → (run k).seq = .round p → roundLeft (run k) p = n →
    ∃ m, k ≤ m ∧ (run m).seq = .idle ∧ (run m).roundActive = false ∧ (run m).lastGrant = (run k).lastGrant ∧
      (run m).params = (run k).params ∧
      ((run k).busy = true → (run m).busy = true ∧ (run m).jobWord = (run k).jobWord) := by
  intro n
  induction n using Nat.strong_induction_on with
  | _ n ih =>
    intro k p hr hB hs hn
    obtain ⟨m, hkm, hk, hsm, he, hst⟩ := x.step hr hB (.inl (by rw [hs]; simp))
    have hsm' : (run m).seq = .round p := hk.seq.trans hs
    obtain ⟨h1, h2, h3, h4, h5⟩ := seqStep_round ((x.inv m).choice (env m)) hsm' he hst
    have hbj : (run k).busy = true → (run (m + 1)).busy = true ∧ (run (m + 1)).jobWord = (run k).jobWord :=
      fun hb => ⟨h1.trans (hk.busy hb), h2.trans (hk.jobWord hb)⟩
    obtain ⟨h5, h6⟩ | ⟨q, h5, h6⟩ := h5
    · exact ⟨m + 1, by omega, h5, h6, h4.trans hk.lastGrant, h3.trans hk.params, hbj⟩
    · have hlt : roundLeft (run (m + 1)) q < n := by
        have := hk.roundLeft p
        change roundLeft (run (m + 1)) q < roundLeft (run m) p at h6
        omega
      have hB' : (run (m + 1)).params.phaseMinUs ≤ B := by
        rw [show (run (m + 1)).params = (run m).params from h3, hk.params]; exact hB
      obtain ⟨m', h7, h8, h9, h10, h11, h12⟩ := ih _ hlt (m + 1) q (fun j hj => hr j (by omega)) hB' h5 rfl
      refine ⟨m', by omega, h8, h9, h10.trans (h4.trans hk.lastGrant), h11.trans (h3.trans hk.params), fun hb => ?_⟩
      obtain ⟨e1, e2⟩ := hbj hb
      obtain ⟨e3, e4⟩ := h12 e1
      exact ⟨e3, e4.trans e2⟩

/-- A step that does not start at a poll loop takes the program on. -/
theorem Advances.left_lt {p q : Pos} {s : State} (h : Advances p s q) (hp : p.toPoll = none) : q.left < p.left := by
  obtain h | ⟨t0, d, d', h, -⟩ := h
  · exact h
  · rw [hp] at h; cases h

/-- From step `k` on, where the host job stands in a poll loop at `p`, the job finishes or leaves the loop. -/
def LeavesPolls (run : Nat → State) (k : Nat) (p : Pos) : Prop :=
  ∃ m, k ≤ m ∧ (run m).lastGrant = (run k).lastGrant ∧ (run m).params = (run k).params ∧
    ((run m).busy = false ∧ (run m).seq = .idle ∨
      (run m).jobWord = (run k).jobWord ∧ ∃ q, (run m).seq = .hostRun q ∧ q.left < p.left)

/-- A running host job finishes if its poll loops end; `W` is what is known of its command. -/
theorem Served.host_ends {B} (x : Served sched env run B) {W : Word → Prop}
    (hp : ∀ k p t0 d, (∀ j, k ≤ j → sched j ≠ .reset) → (run k).params.phaseMinUs ≤ B → W (run k).jobWord →
      (run k).seq = .hostRun p → p.toPoll = some (t0, d) → LeavesPolls run k p) :
    ∀ n k p, (∀ j, k ≤ j → sched j ≠ .reset) → (run k).params.phaseMinUs ≤ B → W (run k).jobWord →
    (run k).seq = .hostRun p → p.left = n →
    ∃ m, k ≤ m ∧ (run m).seq = .idle ∧ (run m).busy = false ∧ (run m).lastGrant = (run k).lastGrant ∧
      (run m).params = (run k).params := by
  intro n
  induction n using Nat.strong_induction_on with
  | _ n ih =>
    intro k p hr hB hw hs hn
    cases htp : p.toPoll with
    | some y =>
      obtain ⟨t0, d⟩ := y
      obtain ⟨m, h1, h2, h3, ⟨h4, h5⟩ | ⟨h4, q, h5, h6⟩⟩ := hp k p t0 d hr hB hw hs htp
      · exact ⟨m, h1, h5, h4, h2, h3⟩
      · obtain ⟨m', e1, e2, e3, e4, e5⟩ := ih _ (by omega) m q (fun j hj => hr j (by omega)) (by rw [h3]; exact hB)
          (by rw [h4]; exact hw) h5 rfl
        exact ⟨m', by omega, e2, e3, e4.trans h2, e5.trans h3⟩
    | none =>
      obtain ⟨m, hkm, hk, hsm, he, hst⟩ := x.step hr hB (.inl (by rw [hs]; simp))
      have hsm' : (run m).seq = .hostRun p := hk.seq.trans hs
      have hbk := ((x.inv k).run p hs).1
      obtain ⟨h1, h2, h3⟩ := seqStep_hostRun ((x.inv m).choice (env m)) hsm' he hst
      obtain ⟨h3, h4⟩ | ⟨h3, h4, h5, q, h6, h7⟩ := h3
      · exact ⟨m + 1, by omega, h4, h3, h2.trans hk.lastGrant, h1.trans hk.params⟩
      · have := h7.left_lt htp
        obtain ⟨m', e1, e2, e3, e4, e5⟩ := ih _ (by omega) (m + 1) q (fun j hj => hr j (by omega))
          (by rw [h1]; rw [hk.params]; exact hB)
          (by rw [h4]; rw [show (run m).jobWord = _ from hk.jobWord hbk]; exact hw) h6 rfl
        exact ⟨m', by omega, e2, e3, e4.trans (h2.trans hk.lastGrant), e5.trans (h1.trans hk.params)⟩

/-- A poll loop ends: at the latest 65535 ticks after its start a poll times out (R95), and with SEQ stepping often enough
TIME does not wrap before it. -/
theorem Execution.leavesPolls (hx : Execution sched env run) (hi : ∀ k, Inv (run k)) (hf : Fair sched run)
    (hp : Paced sched) {k p t0 d} (hr : ∀ j, k ≤ j → sched j ≠ .reset) (hB : (run k).params.phaseMinUs ≤ 2 ^ 28)
    (hs : (run k).seq = .hostRun p) (htp : p.toPoll = some (t0, d)) :
      LeavesPolls run k p := by
  by_contra hno
  have hbk := ((hi k).run p hs).1
  -- what holds as long as the loop goes on
  let P : Nat → Prop := fun m => (run m).lastGrant = (run k).lastGrant ∧ (run m).params = (run k).params ∧
    (run m).jobWord = (run k).jobWord ∧
      ∃ q d', (run m).seq = .hostRun q ∧ q.toPoll = some (t0, d') ∧ q.left = p.left ∧ d' ≤ 2
  have step : ∀ j, k ≤ j → P j → P (j + 1) ∧
      (run (j + 1)).time = (if sched j = .tb then (run j).time + 1 else (run j).time) ∧
      (sched j = .seq → seqEnabled (run j) = true → ∀ q d', (run j).seq = .hostRun q → q.toPoll = some (t0, d') →
        ∃ q' d'', (run (j + 1)).seq = .hostRun q' ∧ q'.toPoll = some (t0, d'') ∧
          (d' = d'' + 1 ∨ (d' = 0 ∧ d'' ≤ 2 ∧ ((run j).time - t0).toNat < 65535))) := by
    intro j hj ⟨h1, h2, h3, q, d', h4, h5, h6, hd⟩
    by_cases hse : sched j = .seq ∧ seqEnabled (run j) = true
    · obtain ⟨hsj, he⟩ := hse
      obtain ⟨e1, e2, e3⟩ := seqStep_hostRun ((hi j).choice (env j)) (p := q) h4 he (hx.seq hsj)
      obtain ⟨e3, e4⟩ | ⟨e3, e4, e5, q', e6, e7⟩ := e3
      · exact absurd ⟨j + 1, by omega, e2.trans h1, e1.trans h2, .inl ⟨e3, e4⟩⟩ hno
      · obtain e7 | ⟨t1, d1, d2, e7, e8, e9, e10⟩ := e7
        · exact absurd ⟨j + 1, by omega, e2.trans h1, e1.trans h2, .inr ⟨e4.trans h3, q', e6, by omega⟩⟩ hno
        · rw [h5] at e7; cases e7
          refine ⟨⟨e2.trans h1, e1.trans h2, e4.trans h3, q', d2, e6, e8, by omega, by omega⟩, ?_, ?_⟩
          · rw [if_neg (by rw [hsj]; simp)]; exact e5
          · intro _ _ q2 d3 h7 h8
            rw [h4] at h7; cases h7
            rw [h5] at h8; cases h8
            exact ⟨q', d2, e6, e8, e10⟩
    · have hne : sched j = .seq → seqEnabled (run j) = false := by
        intro h; cases he : seqEnabled (run j)
        · rfl
        · exact absurd ⟨h, he⟩ hse
      obtain ⟨e1, e2⟩ := hx.rest (hi j) (hr j hj) hne
      have hbj := ((hi j).run q h4).1
      exact ⟨⟨e1.lastGrant.trans h1, e1.params.trans h2, (e1.jobWord hbj).trans h3, q, d', e1.seq.trans h4, h5, h6, hd⟩,
        e2, fun h1 h2 => absurd ⟨h1, h2⟩ hse⟩
  have hd : d ≤ 2 := by
    cases p <;> simp [Pos.toPoll] at htp <;> rename_i r <;> cases r <;> simp at htp <;> omega
  have hPk : P k := ⟨rfl, rfl, rfl, p, d, hs, htp, rfl, hd⟩
  have hPall : ∀ m, k ≤ m → P m := by
    intro m hm
    induction m, hm using Nat.le_induction with
    | base => exact hPk
    | succ m hm ih => exact (step m hm ih).1
  obtain ⟨m, hkm, -, ht, -⟩ := ticks_pass (P := P) hf (65535 + 2 ^ 32 - ((run k).time - t0).toNat) k hPk
    fun j d hj _ _ hpj => ⟨(step j hj hpj).1, (step j hj hpj).2.1⟩
  have hm := ht.since t0
  have e0 : ((run m).time - t0).toNat = 65535 := by
    have := ((run k).time - t0).isLt
    omega
  -- from a position of the loop the next poll comes within 9 * 2 ^ 28 ticks
  have nextpoll : ∀ d m, k ≤ m → (∃ q, (run m).seq = .hostRun q ∧ q.toPoll = some (t0, d)) →
      ∃ m', m ≤ m' ∧ sched m' = .seq ∧ seqEnabled (run m') = true ∧
        (∃ q, (run m').seq = .hostRun q ∧ q.toPoll = some (t0, 0)) ∧
        ∃ n, n ≤ (d + 1) * (3 * 2 ^ 28) ∧ Ticks n (run m) (run m') := by
    intro d
    induction d with
    | zero =>
      rintro m hm ⟨q, h1, h2⟩
      obtain ⟨m', h3, n, h4, h5⟩ := hx.next_of_paced hi hf hp (k := m) (fun j hj => hr j (by omega))
        (by rw [(hPall m hm).2.1]; exact hB) (.inl (by rw [h1]; simp))
      have hk := (hx.kept hi h3.le (fun j hj => hr j (by omega)) h3.first).1
      exact ⟨m', h3.le, h3.seq, h3.enabled, ⟨q, hk.seq.trans h1, h2⟩, n, by omega, h5⟩
    | succ d ih =>
      rintro m hm ⟨q, h1, h2⟩
      obtain ⟨m', h3, n, h4, h5⟩ := hx.next_of_paced hi hf hp (k := m) (fun j hj => hr j (by omega))
        (by rw [(hPall m hm).2.1]; exact hB) (.inl (by rw [h1]; simp))
      have hk := (hx.kept hi h3.le (fun j hj => hr j (by omega)) h3.first).1
      have hle := h3.le
      obtain ⟨-, e1, e2⟩ := step m' (by omega) (hPall m' (by omega))
      obtain ⟨q', d'', e3, e4, e5⟩ := e2 h3.seq h3.enabled q _ (hk.seq.trans h1) h2
      have hdd : d'' = d := by omega
      subst hdd
      obtain ⟨m'', f1, f2, f3, f4, n', f5, f6⟩ := ih (m' + 1) (by omega) ⟨q', e3, e4⟩
      rw [if_neg (by rw [h3.seq]; simp)] at e1
      have := (Ticks.zero e1).trans f6
      rw [Nat.zero_add] at this
      exact ⟨m'', by omega, f2, f3, f4, n + n', by omega, h5.trans this⟩
  obtain ⟨-, -, -, q, d', h4, h5, h6, hd'⟩ := hPall m hkm
  obtain ⟨m', f1, f2, f3, ⟨q', f4, f5⟩, n, f6, f7⟩ := nextpoll d' m hkm ⟨q, h4, h5⟩
  obtain ⟨q'', d'', g1, g2, g3⟩ := (step m' (by omega) (hPall m' (by omega))).2.2 f2 f3 q' 0 f4 f5
  have hs' := f7.since t0
  have : (d' + 1) * (3 * 2 ^ 28) ≤ 3 * (3 * 2 ^ 28) := Nat.mul_le_mul_right _ (by omega)
  omega

end Sys2Proof.Machine
end

