-- ==== Sys2Proof/Laws/PerInstr.lean ====
section
/-! SUPPORT. The statements made of every command, one lemma per constructor: the word a command is encoded in has its
opcode in the field `OP` (R70, R75), so no two commands of different rows share a word. -/

namespace Sys2Proof.Laws.OpcodeField

/-- The field `OP` of the command's word is its opcode. -/
def Statement (c : Instr) : Prop := fieldOp (encode c) = c.opcode

theorem nop : Statement .nop := fieldOp_cmd32 ..
theorem treset (inst : InstId) (imm : BitVec 16) : Statement (.treset inst imm) := fieldOp_cmd32 ..
theorem twrite (inst : InstId) (count : BitVec 3) : Statement (.twrite inst count) := fieldOp_cmd32 ..
theorem twrzero (inst : InstId) : Statement (.twrzero inst) := fieldOp_cmd32 ..
theorem tread (inst : InstId) (count : BitVec 3) : Statement (.tread inst count) := fieldOp_cmd32 ..
theorem tanalog (inst : InstId) (val : Bool) (imm : BitVec 16) : Statement (.tanalog inst val imm) := fieldOp_cmd32 ..
theorem tanalog8 (inst : InstId) (val : Bool) : Statement (.tanalog8 inst val) := fieldOp_cmd32 ..
theorem mcons (inst : InstId) (count : BitVec 3) : Statement (.mcons inst count) := fieldOp_cmd32 ..
theorem mdestroy (inst : InstId) : Statement (.mdestroy inst) := fieldOp_cmd32 ..
theorem msetcnt (inst : InstId) (count : BitVec 3) : Statement (.msetcnt inst count) := fieldOp_cmd32 ..
theorem mreg (inst : InstId) (imm : BitVec 16) : Statement (.mreg inst imm) := fieldOp_cmd32 ..
theorem mmute (inst : InstId) (val : Bool) : Statement (.mmute inst val) := fieldOp_cmd32 ..
theorem setob (inst : InstId) (board : BitVec 3) (chan : BitVec 4) (val : Bool) : Statement (.setob inst board chan val) := fieldOp_cmd32 ..
theorem setom (inst : InstId) (board : BitVec 3) (set : Byte) (rst : Byte) : Statement (.setom inst board set rst) := fieldOp_cmd32 ..
theorem getob (inst : InstId) (board : BitVec 3) (chan : BitVec 4) : Statement (.getob inst board chan) := fieldOp_cmd32 ..
theorem getom (inst : InstId) (board : BitVec 3) : Statement (.getom inst board) := fieldOp_cmd32 ..
theorem getib (inst : InstId) (board : BitVec 3) (chan : BitVec 4) : Statement (.getib inst board chan) := fieldOp_cmd32 ..
theorem getpib (inst : InstId) (board : BitVec 3) (chan : BitVec 4) : Statement (.getpib inst board chan) := fieldOp_cmd32 ..
theorem getim (inst : InstId) (board : BitVec 3) : Statement (.getim inst board) := fieldOp_cmd32 ..
theorem getpim (inst : InstId) (board : BitVec 3) : Statement (.getpim inst board) := fieldOp_cmd32 ..
theorem refo (inst : InstId) : Statement (.refo inst) := fieldOp_cmd32 ..
theorem refi (inst : InstId) : Statement (.refi inst) := fieldOp_cmd32 ..
theorem ref (inst : InstId) : Statement (.ref inst) := fieldOp_cmd32 ..

end Sys2Proof.Laws.OpcodeField
end

