-- ==== Sys2Proof/Laws/Step.lean ====
section
/-! SUPPORT. What one step of the machine can do, said once (`StepKind`, `step_kind`), and what one step of a line
program can do (`LineStep`). A later proof takes a step apart with `step_kind` and unfolds no dispatch. -/

namespace Sys2Proof.Machine

/-- The state after one step, in every way a step can go; `u` is the state the step starts from, which is
`dropAction s`. -/
inductive StepKind (s u : State) : State → Prop where
  /-- A register read (R53). -/
  | read (a : BitVec 4) : nextAction s = .regRead a → StepKind s u (readPort a u)
  /-- A write to CMD while BUSY = 1 (R190). -/
  | dropped (w : Word) : nextAction s = .regWrite 0 w → s.busy = true →
      StepKind s u { u with overrun := true }
  /-- A reserved opcode (R76, R173). -/
  | reserved (w : Word) (e : DecodeError) : nextAction s = .regWrite 0 w → s.busy = false → decode w = .error e →
      StepKind s u (reject .badOpcode { u with cmdReg := w })
  /-- A class C command (R121). -/
  | cache (w : Word) (c : Instr) : nextAction s = .regWrite 0 w → s.busy = false → decode w = .ok c →
      cmdClass c = .cache → StepKind s u (cacheCommand c (cacheEffectOf c) { u with cmdReg := w })
  /-- The issue of a class R or S command (R172). -/
  | issue (w : Word) (c : Instr) : nextAction s = .regWrite 0 w → s.busy = false → decode w = .ok c →
      cmdClass c ≠ .cache → StepKind s u (issueJob c { u with cmdReg := w })
  /-- A write to DATA (R52). -/
  | data (v : Word) : nextAction s = .regWrite 1 v → StepKind s u { u with data := v }
  /-- A write to STATUS (R54). -/
  | status (v : Word) : nextAction s = .regWrite 2 v → StepKind s u (writeStatus v u)
  /-- A write to a read-only or reserved slot (R54, R55). -/
  | ignored (a : BitVec 4) (v : Word) : nextAction s = .regWrite a v → 3 ≤ a → StepKind s u u
  /-- The grant of a class R command, its whole rule in it (R176). -/
  | grantRegistry (c : Instr) : nextAction s = .seq → s.seq = .idle → s.busy = true → decode s.jobWord = .ok c →
      cmdClass c = .registry →
      StepKind s u (finish .ok none (effectOf c { u with lastGrant := .host }))
  /-- The grant of a class S command (R176). -/
  | grantSequenced (c : Instr) : nextAction s = .seq → s.seq = .idle → s.busy = true → decode s.jobWord = .ok c →
      cmdClass c = .sequenced →
      StepKind s u { u with lastGrant := .host, seq := .hostRun (startOf c) }
  /-- A line step or commit of a host job (R176). -/
  | program (c : Instr) (p q : Pos) (t : State) : nextAction s = .seq → s.seq = .hostRun p → s.busy = true →
      decode s.jobWord = .ok c → cmdClass c = .sequenced → (∀ rc r, p ≠ .finish rc r) →
      (p.isLine = true → phaseMet u = true) → runOf c p u = some (t, q) →
      StepKind s u { t with seq := .hostRun q }
  /-- The finish of a class S command (R177). -/
  | finish (c : Instr) (rc : ResultCode) (r : Option Word) : nextAction s = .seq →
      s.seq = .hostRun (.finish rc r) → s.busy = true → decode s.jobWord = .ok c → cmdClass c = .sequenced →
      StepKind s u (finish rc r (finishOf c u))
  /-- The grant of a round (R176). -/
  | grantRound : nextAction s = .seq → s.seq = .idle → s.roundPending = true → StepKind s u (grantRound u)
  /-- A turn step of a round (R182). -/
  | turn : nextAction s = .seq → s.seq = .round none → StepKind s u (turnStep u)
  /-- A line step of a round (R176). -/
  | refresh (j : InstId) (p q : RefreshPos) (t : State) : nextAction s = .seq → s.seq = .round (some p) →
      s.regOrder[s.roundPos]? = some j → refreshStep j p u = .more t q →
      StepKind s u { t with seq := .round (some q) }
  /-- The commit of a round's turn (R182). -/
  | commit (j : InstId) (p : RefreshPos) (t : State) : nextAction s = .seq → s.seq = .round (some p) →
      s.regOrder[s.roundPos]? = some j → refreshStep j p u = .done t () →
      StepKind s u { t with roundPos := t.roundPos + 1, seq := .round none }
  /-- A SEQ step that is not enabled. -/
  | notEnabled : nextAction s = .seq → StepKind s u u
  /-- A tick of the timebase (R178). -/
  | tb : nextAction s = .tb → StepKind s u (tbStep u)
  /-- Hardware reset (R200). -/
  | reset : nextAction s = .reset → StepKind s u (hardReset u)

/-- What a step of the host job leaves is one of the kinds of step. -/
theorem jobStep_kind {s t : State} (ha : nextAction s = .seq)
    (h : jobStep (dropAction s) = .next t) : StepKind s (dropAction s) t := by
  unfold jobStep at h
  split at h
  · rename_i hb
    rw [dropAction_busy] at hb
    rw [dropAction_jobWord] at h
    split at h
    · rename_i c hw
      split at h
      · cases h; exact .notEnabled ha
      · rename_i hc
        cases hk : cmdClass c with
        | cache => exact absurd hk hc
        | registry =>
          rw [exec_registry c hk] at h
          cases h
          obtain ⟨h1, -⟩ | ⟨-, h2, h3⟩ | ⟨-, -, h3⟩ := registryCommand_cases c (effectOf c) (dropAction s)
          · simp [hb] at h1
          · rw [h3]; exact .grantRegistry c ha (by simpa using h2) hb hw hk
          · rw [h3]; exact .notEnabled ha
        | sequenced =>
          rw [exec_sequenced c hk] at h
          cases h
          obtain ⟨h1, -⟩ | ⟨-, h2, he⟩ | ⟨rc, r, -, h2, he⟩ | ⟨p, t, q, -, h2, h3, h4, hr, he⟩ | he :=
            sequencedCommand_cases c (startOf c) (runOf c) (finishOf c) (dropAction s)
          · simp [hb] at h1
          · rw [he]; exact .grantSequenced c ha (by simpa using h2) hb hw hk
          · rw [he]; exact .finish c rc r ha (by simpa using h2) hb hw hk
          · rw [he]; exact .program c p q t ha (by simpa using h2) hb hw hk h3 h4 hr
          · rw [he]; exact .notEnabled ha
    · cases h; exact .notEnabled ha
  · cases h; exact .notEnabled ha

/-- The arbiter picks a round only when one is pending (R181). -/
theorem roundPending_of_pick {s : State} (h : pick s = some .round) : s.roundPending = true := by
  unfold pick at h
  split at h
  · rename_i hh; simp at hh; exact hh.1
  · split at h <;> cases h

/-- Every step is of one of the kinds. -/
theorem step_kind {s t : State} (h : step s = .next t) : StepKind s (dropAction s) t := by
  unfold step at h
  generalize ha : nextAction s = a at h
  cases a with
  | regRead a => cases h; exact .read a ha
  | tb => cases h; exact .tb ha
  | reset => cases h; exact .reset ha
  | regWrite a v =>
    simp only [act, writePort] at h
    split at h
    · rename_i h0
      obtain rfl : a = 0 := BitVec.eq_of_toNat_eq h0
      unfold writeCmd at h
      split at h
      · rename_i hb; cases h; exact .dropped v ha (by simpa using hb)
      · rename_i hb
        have hb : s.busy = false := by simpa using hb
        split at h
        · rename_i e hd; cases h; exact .reserved v e ha hb hd
        · rename_i c hd
          cases hc : cmdClass c with
          | cache => rw [exec_cache c hc] at h; cases h; exact .cache v c ha hb hd hc
          | registry =>
            rw [exec_registry c hc] at h
            cases h
            rw [registryCommand, if_neg (by simp [hb])]
            exact .issue v c ha hb hd (by simp [hc])
          | sequenced =>
            rw [exec_sequenced c hc] at h
            cases h
            rw [sequencedCommand, if_neg (by simp [hb])]
            exact .issue v c ha hb hd (by simp [hc])
    · rename_i h1
      obtain rfl : a = 1 := BitVec.eq_of_toNat_eq h1
      cases h; exact .data v ha
    · rename_i h2
      obtain rfl : a = 2 := BitVec.eq_of_toNat_eq h2
      cases h; exact .status v ha
    · rename_i h0 h1 h2
      cases h
      refine .ignored a v ha ?_
      have h0' : a.toNat ≠ 0 := h0
      have h1' : a.toNat ≠ 1 := h1
      have h2' : a.toNat ≠ 2 := h2
      have h3 : (3#4).toNat = 3 := rfl
      have : (3#4).toNat ≤ a.toNat := by omega
      exact this
  | seq =>
    simp only [act, seqStep, dropAction_seq] at h
    split at h
    · rename_i hs
      split at h
      · rename_i hp; cases h; exact .grantRound ha hs (by simpa using roundPending_of_pick hp)
      · exact jobStep_kind ha h
      · cases h; exact .notEnabled ha
    · exact jobStep_kind ha h
    · rename_i hs; cases h; exact .turn ha hs
    · rename_i p hs
      cases h
      unfold roundLineStep
      split
      · rename_i j hj
        unfold roundRefreshStep
        split
        · exact .notEnabled ha
        · split
          · rename_i t q hr; exact .refresh j p q t ha hs (by simpa using hj) hr
          · rename_i t hr; exact .commit j p t ha hs (by simpa using hj) hr
      · exact .notEnabled ha

/-- A step of a line program is a drive of one of its lines, a sample, or a poll that has timed out. -/
inductive LineStep (i : InstId) (roles : List Role) (s : State) : State → Prop where
  | drive (r : Role) (v : Bool) : r ∈ roles → LineStep i roles s (drive i r v s)
  | sample : LineStep i roles s (sample i s)
  | timedOut : LineStep i roles s s

theorem poll_lineStep (i : InstId) (roles : List Role) (t0 T : Word) (s : State) :
    LineStep i roles s (poll i t0 T s) := by
  unfold poll
  split
  · exact .timedOut
  · exact .sample

/-- RESET drives TRIGX, TRIGY and CLK (R106). -/
theorem resetStep_lineStep (i : InstId) (T : Word) (p : ResetPos) (s : State) :
    LineStep i [.trigX, .trigY, .clk] s (resetStep i T p s).state := by
  cases p <;> simp only [resetStep, Progress.state]
  case poll t0 => cases pollOutcome t0 T s <;> exact poll_lineStep i _ t0 T s
  all_goals exact .drive _ _ (by decide)

/-- WRITEOUT drives LDOUT, CLK and DOUT (R106). -/
theorem writeStep_lineStep (i : InstId) (bytes : List Byte) (p : WritePos) (s : State) :
    LineStep i [.ldOut, .clk, .dOut] s (writeStep i bytes p s).state := by
  rcases p with _ | ⟨b, k, x, rest⟩ | _ | _ | _
  case bit => cases b <;> exact .drive _ _ (by decide)
  all_goals exact .drive _ _ (by decide)

/-- READIN drives LDIN and CLK (R106). -/
theorem readStep_lineStep (i : InstId) (n : Nat) (p : ReadPos) (s : State) :
    LineStep i [.ldIn, .clk] s (readStep i n p s).state := by
  rcases p with _ | m | m | m | ⟨b, m, bytes, k, acc⟩
  case ldLo => simp only [readStep, afterBytes]; split <;> exact .drive _ _ (by decide)
  case bit =>
    cases b
    case sample => exact .sample
    case clkLo => exact .drive _ _ (by decide)
    case clkHi => simp only [readStep, afterBytes]; split <;> [split; skip] <;> exact .drive _ _ (by decide)
  all_goals exact .drive _ _ (by decide)

/-- ANALOG drives TRIGX and TRIGY (R106). -/
theorem analogStep_lineStep (i : InstId) (a : Bool) (T : Word) (p : AnalogPos) (s : State) :
    LineStep i [.trigX, .trigY] s (analogStep i a T p s).state := by
  cases p <;> simp only [analogStep, Progress.state]
  case poll t0 => cases pollOutcome t0 T s <;> exact poll_lineStep i _ t0 T s
  all_goals exact .drive _ _ (by cases a <;> decide)

/-- What a line step changes of the lines: at most the line it drives, and then its event is the newest. -/
theorem LineStep.lines {i : InstId} {roles : List Role} {s t : State} (h : LineStep i roles s t) (j : InstId) (r : Role)
    (hne : (t.inst j).lines.get r ≠ (s.inst j).lines.get r) :
    j = i ∧ r ∈ roles ∧ t.trace = .drive j r ((t.inst j).lines.get r) s.time :: s.trace := by
  cases h with
  | timedOut => exact absurd rfl hne
  | sample => simp at hne
  | drive r' v hr =>
    by_cases hj : i = j
    · subst hj
      rw [drive_lines] at hne ⊢
      have : r = r' := by
        by_contra hrr
        apply hne
        cases r <;> cases r' <;> first | rfl | exact absurd rfl hrr
      subst this
      refine ⟨rfl, hr, ?_⟩
      cases r <;> rfl
    · simp [drive_inst, hj] at hne

/-- What a step of the line program of a class S command at position `p` does to the state: a line step of the part
`p` lies in (for MCONS, of the state after its init in RESET step 1), or the commit. -/
inductive RunKind (c : Instr) (i : InstId) (p : Pos) (s : State) : State → Prop where
  | reset (r : ResetPos) (t : State) : p = .reset r → LineStep i [.trigX, .trigY, .clk] s t → RunKind c i p s t
  | init (n : BitVec 3) (t : State) : p = .reset .trigX → c = .mcons i n →
      t = drive i .trigX true (constructInit i (boardCount n) s) → RunKind c i p s t
  | write (r : WritePos) (t : State) : (p = .write r ∨ ∃ ok, p = .zero ok r ∨ p = .refresh ok (.out r)) →
      LineStep i [.ldOut, .clk, .dOut] s t → RunKind c i p s t
  | read (r : ReadPos) (t : State) : (p = .read r ∨ ∃ ok, p = .refresh ok (.inp r)) →
      LineStep i [.ldIn, .clk] s t → RunKind c i p s t
  | analog (r : AnalogPos) (t : State) : p = .analog r → LineStep i [.trigX, .trigY] s t → RunKind c i p s t
  | commit (ok : Bool) (bytes : List Byte) : p = .refresh ok (.commit bytes) →
      (c = .refi i ∨ c = .ref i ∨ ∃ n, c = .mcons i n) → RunKind c i p s (commitInputs i bytes s)

/-- The state of a part's step inside a command. -/
theorem state_of_within {π ρ κ : Type} {x : Progress π ρ} {inside : π → κ} {after : ρ → κ} {t : State} {q : κ}
    (h : some (x.within inside after) = some (t, q)) : t = x.state := by
  cases x <;> (simp only [Progress.within, Option.some.injEq, Prod.mk.injEq] at h; exact h.1.symm)

/-- The state after a step of a refresh: a step of WRITEOUT, of READIN, or the commit (R141 to R143). -/
theorem refreshStep_state (i : InstId) (p : RefreshPos) (s : State) :
    (∃ r, p = .out r ∧ LineStep i [.ldOut, .clk, .dOut] s (refreshStep i p s).state) ∨
      (∃ r, p = .inp r ∧ LineStep i [.ldIn, .clk] s (refreshStep i p s).state) ∨
      (∃ bytes, p = .commit bytes ∧ refreshStep i p s = .done (commitInputs i bytes s) ()) := by
  rcases p with r | r | bytes
  · refine .inl ⟨r, rfl, ?_⟩
    have h := writeStep_lineStep i (snapshot i s) r s
    simp only [refreshStep, refreshOutStep]
    revert h
    cases writeStep i (snapshot i s) r s <;> exact id
  · refine .inr (.inl ⟨r, rfl, ?_⟩)
    have h := readStep_lineStep i (s.inst i).bc.toNat r s
    simp only [refreshStep]
    revert h
    cases readStep i (s.inst i).bc.toNat r s <;> exact id
  · exact .inr (.inr ⟨bytes, rfl, rfl⟩)

/-- A step of a refresh inside a command. -/
theorem refresh_runKind {c : Instr} {i : InstId} {ok : Bool} {p : RefreshPos} {s t : State}
    (hc : c = .refi i ∨ c = .ref i ∨ ∃ n, c = .mcons i n) (h : t = (refreshStep i p s).state) :
    RunKind c i (.refresh ok p) s t := by
  obtain ⟨r, rfl, hs⟩ | ⟨r, rfl, hs⟩ | ⟨bytes, rfl, hs⟩ := refreshStep_state i p s
  · exact .write r t (.inr ⟨ok, .inr rfl⟩) (h ▸ hs)
  · exact .read r t (.inr ⟨ok, rfl⟩) (h ▸ hs)
  · rw [hs] at h
    subst h
    exact .commit ok bytes rfl hc

/-- Every step of a class S command's program is of one of the kinds, on the port of the instance it names. -/
theorem run_kind {c : Instr} {p q : Pos} {s t : State} (h : runOf c p s = some (t, q)) :
    ∃ i, instOperand c = some i ∧ RunKind c i p s t := by
  cases c <;> simp only [runOf, reduceCtorEq] at h <;> refine ⟨_, rfl, ?_⟩
  case treset i imm =>
    cases p <;> simp only [tresetRun, reduceCtorEq] at h
    rw [state_of_within h]; exact .reset _ _ rfl (resetStep_lineStep ..)
  case twrite i n =>
    cases p <;> simp only [twriteRun, reduceCtorEq] at h
    rw [state_of_within h]; exact .write _ _ (.inl rfl) (writeStep_lineStep ..)
  case twrzero i =>
    cases p <;> simp only [twrzeroRun, reduceCtorEq] at h
    rw [state_of_within h]; exact .write _ _ (.inr ⟨_, .inl rfl⟩) (writeStep_lineStep ..)
  case tread i n =>
    cases p <;> simp only [treadRun, reduceCtorEq] at h
    rw [state_of_within h]; exact .read _ _ (.inl rfl) (readStep_lineStep ..)
  case tanalog i a imm =>
    cases p <;> simp only [tanalogRun, reduceCtorEq] at h
    rw [state_of_within h]; exact .analog _ _ rfl (analogStep_lineStep ..)
  case tanalog8 i a =>
    cases p <;> simp only [tanalog8Run, reduceCtorEq] at h
    rw [state_of_within h]; exact .analog _ _ rfl (analogStep_lineStep ..)
  case mcons i n =>
    cases p <;> simp only [mconsRun, reduceCtorEq] at h
    case reset r =>
      rw [state_of_within h]
      cases r
      case trigX => exact .init n _ rfl rfl rfl
      all_goals exact .reset _ _ rfl (resetStep_lineStep ..)
    case zero ok r => rw [state_of_within h]; exact .write _ _ (.inr ⟨_, .inl rfl⟩) (writeStep_lineStep ..)
    case refresh ok r => exact refresh_runKind (.inr (.inr ⟨n, rfl⟩)) (state_of_within h)
  case refo i =>
    cases p <;> simp only [refoRun, reduceCtorEq] at h
    rename_i ok r
    cases r <;> simp only [reduceCtorEq] at h
    rw [state_of_within h]; exact .write _ _ (.inr ⟨_, .inr rfl⟩) (writeStep_lineStep ..)
  case refi i =>
    cases p <;> simp only [refiRun, reduceCtorEq] at h
    rename_i ok r
    cases r <;> simp only [reduceCtorEq] at h <;> exact refresh_runKind (.inl rfl) (state_of_within h)
  case ref i =>
    cases p <;> simp only [refRun, reduceCtorEq] at h
    exact refresh_runKind (.inr (.inl rfl)) (state_of_within h)

end Sys2Proof.Machine
end

