-- ==== Sys2Proof/Tests/Slice0.lean ====
section
/-! SUPPORT. Tests: the well-formedness check, words written out from the spec's encoding, one step of each command
against the vectors of spec/95_test_vectors.md, and a witness for the hypotheses of each statement. -/

namespace Sys2Proof.Tests

open Sys2Proof.Machine

/-! ### Well-formedness (R73) -/

theorem test_twrite_zero_refused : Instr.wellFormed (.twrite 0 0) = false := by decide
theorem test_twrite_five_refused : Instr.wellFormed (.twrite 0 5) = false := by decide
theorem test_tread_zero_refused : Instr.wellFormed (.tread 0 0) = false := by decide
theorem test_tread_seven_refused : Instr.wellFormed (.tread 0 7) = false := by decide
theorem test_mcons_five_refused : Instr.wellFormed (.mcons 0 5) = false := by decide
theorem test_msetcnt_six_refused : Instr.wellFormed (.msetcnt 0 6) = false := by decide
theorem test_counts_accepted :
    Instr.wellFormed (.twrite 0 1) = true ∧ Instr.wellFormed (.tread 0 4) = true ∧
      Instr.wellFormed (.mcons 0 0) = true ∧ Instr.wellFormed (.msetcnt 0 4) = true := by decide

/-! ### Decoding: the words of spec/95_test_vectors.md section 4.1 -/

theorem decode_nop : decode 0x00000000 = .ok .nop := rfl
theorem decode_nop_ignored_bits : decode 0xFFFFFFE0 = .ok .nop := rfl
theorem decode_treset : decode 0x13880021 = .ok (.treset 1 5000) := rfl
theorem decode_treset_ignored_bits : decode 0x12340001 = .ok (.treset 0 0x1234) := rfl
theorem decode_twrite : decode 0x00000302 = .ok (.twrite 0 3) := rfl
theorem decode_twrzero : decode 0x00000043 = .ok (.twrzero 2) := rfl
theorem decode_tread : decode 0x00000404 = .ok (.tread 0 4) := rfl
theorem decode_tanalog : decode 0x03E88005 = .ok (.tanalog 0 true 1000) := rfl
theorem decode_tanalog8 : decode 0x00000066 = .ok (.tanalog8 3 false) := rfl
theorem decode_mcons : decode 0x00000208 = .ok (.mcons 0 2) := rfl
theorem decode_mdestroy : decode 0x00000029 = .ok (.mdestroy 1) := rfl
theorem decode_msetcnt : decode 0x0000040A = .ok (.msetcnt 0 4) := rfl
theorem decode_mreg : decode 0x0BB8000B = .ok (.mreg 0 3000) := rfl
theorem decode_mmute : decode 0x0000802C = .ok (.mmute 1 true) := rfl
theorem decode_setob : decode 0x0000A910 = .ok (.setob 0 1 5 true) := rfl
theorem decode_setom : decode 0xF00F0311 = .ok (.setom 0 3 0x0F 0xF0) := rfl
theorem decode_getob : decode 0x00002912 = .ok (.getob 0 1 5) := rfl
theorem decode_getom : decode 0x00000313 = .ok (.getom 0 3) := rfl
theorem decode_getib : decode 0x00003834 = .ok (.getib 1 0 7) := rfl
theorem decode_getpib : decode 0x00003835 = .ok (.getpib 1 0 7) := rfl
theorem decode_getim : decode 0x00000236 = .ok (.getim 1 2) := rfl
theorem decode_getpim : decode 0x00000237 = .ok (.getpim 1 2) := rfl
theorem decode_refo : decode 0x00000018 = .ok (.refo 0) := rfl
theorem decode_refi : decode 0x000000F9 = .ok (.refi 7) := rfl
theorem decode_ref : decode 0x0000003A = .ok (.ref 1) := rfl
theorem decode_reserved : decode 0x00000007 = .error (.reservedOpcode 0x07) := rfl
theorem decode_reserved_last : decode 0x0000001F = .error (.reservedOpcode 0x1F) := rfl
theorem encode_setob : encode (.setob 0 1 5 true) = 0x0000A910 := by decide
theorem encode_setom : encode (.setom 0 3 0x0F 0xF0) = 0xF00F0311 := by decide
theorem encode_tanalog : encode (.tanalog 0 true 1000) = 0x03E88005 := by decide

/-! ### Small states -/

/-- What a step answers, as an option: this model has no other outcome. -/
def nextOf (o : Host.Outcome State Fault Refusal) : Option State :=
  match o with
  | .next t => some t
  | .fault _ => none
  | .refused _ => none

/-- Right after reset, with two instances. -/
def fresh : State := State.resetWith { ninst := 2, phaseMinUs := 0 }

/-- Instance 0 is constructed with two boards and holds the bytes given. -/
def built (out inp prev : Bank) : State :=
  fresh.setInst 0 { Instance.reset with cons := true, bc := 2, out := out, inp := inp, prev := prev }

/-- Instance 0 is constructed with two boards, all caches zero. -/
def plain : State := built Bank.zero Bank.zero Bank.zero

/-- A state in which the command waits to be granted. -/
def waiting (s : State) (c : Instr) : State := { s with busy := true, jobWord := encode c }

/-- A state in which the command stands at a position of its program. -/
def runningAt (s : State) (c : Instr) (p : Pos) : State :=
  { s with busy := true, jobWord := encode c, seq := .hostRun p }

/-- A state whose next step is given. -/
def doing (s : State) (a : Action) : State := { s with script := [a] }

/-- Both instances are constructed and registered, instance 1 first, with the given period (vector V-R1). -/
def registered (period : BitVec 16) : State :=
  { plain.setInst 1 { Instance.reset with cons := true } with
    regOrder := [1, 0], tmrAttached := true, tmrPeriod := period }

/-! ### One step of each command -/

/-- V-M24. -/
theorem test_nop : (nextOf (exec .nop { fresh with rc := .badArg })).map (·.rc) = some .ok := by decide
/-- V-C1 (R122). -/
theorem test_setob : (nextOf (exec (.setob 0 0 3 true) plain)).map (fun t => (t.inst 0).out) =
    some #v[0x08, 0x00, 0, 0] := by decide
/-- V-C10: channel 8 is out of range. -/
theorem test_setob_out_of_range :
    (nextOf (exec (.setob 0 0 8 true) plain)).map (fun t => ((t.inst 0).out, t.rc)) = some (Bank.zero, .ok) := by decide
/-- V-C6. -/
theorem test_setom : (nextOf (exec (.setom 0 1 0x30 0x03) (built #v[0, 0x0F, 0, 0] Bank.zero Bank.zero))).map
    (fun t => (t.inst 0).out) = some #v[0x00, 0x3C, 0, 0] := by decide
/-- V-C11: a bit in both masks ends 0. -/
theorem test_setom_both : (nextOf (exec (.setom 0 0 0xFF 0x0F) plain)).map (fun t => (t.inst 0).out) =
    some #v[0xF0, 0x00, 0, 0] := by decide
/-- V-C2. -/
theorem test_getob : (nextOf (exec (.getob 0 0 3) (built #v[0x08, 0, 0, 0] Bank.zero Bank.zero))).map (·.result) =
    some 1 := by decide
/-- V-C8: board 2 is out of range. -/
theorem test_getom_out_of_range :
    (nextOf (exec (.getom 0 2) { built #v[1, 2, 3, 4] Bank.zero Bank.zero with result := 9 })).map (·.result) =
      some 0 := by decide
/-- V-C7. -/
theorem test_getom : (nextOf (exec (.getom 0 1) (built #v[0, 0x3C, 0, 0] Bank.zero Bank.zero))).map (·.result) =
    some 0x3C := by decide
/-- V-C18: the instance is not constructed. -/
theorem test_getom_unconstructed :
    (nextOf (exec (.getom 1 0) { fresh with result := 7 })).map (fun t => (t.rc, t.result)) = some (.badState, 7) := by
  decide
/-- E8 with the byte 0x81. -/
theorem test_getib : (nextOf (exec (.getib 0 0 7) (built Bank.zero #v[0x81, 0, 0, 0] Bank.zero))).map (·.result) =
    some 1 := by decide
/-- E8: board 4 is out of range. -/
theorem test_getib_out_of_range :
    (nextOf (exec (.getib 0 4 0) { built Bank.zero #v[0x81, 0, 0, 0] Bank.zero with result := 9 })).map (·.result) =
      some 0 := by decide
/-- R127: PREV, not IN. -/
theorem test_getpib : (nextOf (exec (.getpib 0 1 0) (built Bank.zero Bank.zero #v[0, 0x01, 0, 0]))).map (·.result) =
    some 1 := by decide
/-- V-M12. -/
theorem test_getim : (nextOf (exec (.getim 0 1) (built Bank.zero #v[0x55, 0x44, 0, 0] Bank.zero))).map (·.result) =
    some 0x44 := by decide
/-- V-M12. -/
theorem test_getpim : (nextOf (exec (.getpim 0 1) (built Bank.zero Bank.zero #v[0x22, 0x44, 0, 0]))).map (·.result) =
    some 0x44 := by decide
/-- R162. -/
theorem test_mmute : (nextOf (exec (.mmute 0 true) plain)).map (fun t => ((t.inst 0).mute, t.rc)) =
    some (true, .ok) := by decide
/-- V-R1, second row: the order is [1, 0]. -/
theorem test_mreg : (nextOf (exec (.mreg 0 100) (waiting { registered 100 with regOrder := [1] } (.mreg 0 100)))).map
    (fun t => (t.regOrder, timerWord t, t.busy)) = some ([1, 0], 0x64, false) := by decide
/-- V-R3: registered again with a shorter period, the count stays. -/
theorem test_mreg_again :
    (nextOf (exec (.mreg 0 40) (waiting { registered 3000 with tmrCount := 50 } (.mreg 0 40)))).map
      (fun t => (t.regOrder, timerWord t)) = some ([1, 0], 0x00320028) := by decide
/-- V-R1, fourth row: the others keep their order. -/
theorem test_mdestroy : (nextOf (exec (.mdestroy 1) (waiting (registered 200) (.mdestroy 1)))).map
    (fun t => (t.regOrder, instStateWord t)) = some ([0], 0x00000101) := by decide
/-- V-R1, last row: the registry is empty and the timer detached. -/
theorem test_mdestroy_last :
    (nextOf (exec (.mdestroy 0) (waiting { registered 200 with regOrder := [0] } (.mdestroy 0)))).map
      (fun t => (registryWord t, statusWord t, timerWord t)) = some (0, 0, 0xC8) := by decide
/-- V-M5: BC is 1 and the byte of board 1 is kept. -/
theorem test_msetcnt :
    (nextOf (exec (.msetcnt 0 1) (waiting (built #v[0, 0x80, 0, 0] Bank.zero Bank.zero) (.msetcnt 0 1)))).map
      (fun t => ((t.inst 0).bc, (t.inst 0).out)) = some (1, #v[0, 0x80, 0, 0]) := by decide
/-- V-M14. -/
theorem test_msetcnt_refused :
    (nextOf (exec (.msetcnt 0 5) plain)).map (fun t => (t.rc, t.busy)) = some (.badArg, false) := by decide
/-- V-M22: the state check comes before the argument check. -/
theorem test_mcons_refused :
    (nextOf (exec (.mcons 0 5) plain)).map (·.rc) = some .badState ∧
      (nextOf (exec (.mcons 1 5) plain)).map (·.rc) = some .badArg := by decide
/-- R147 step 1: the init is made in the step of the first drive; COUNT = 0 is one board. -/
theorem test_mcons_init :
    (nextOf (exec (.mcons 1 0) (runningAt fresh (.mcons 1 0) (.reset .trigX)))).map
      (fun t => ((t.inst 1).bc, (t.inst 1).cons, t.seq)) = some (1, false, .hostRun (.reset .trigY)) := by decide
/-- V-T4: the poll at `el = T` times out and does not sample. -/
theorem test_treset_timeout :
    (nextOf (exec (.treset 0 3)
        (runningAt { fresh with time := 3, draws := [true] } (.treset 0 3) (.reset (.poll 0))))).map
      (fun t => (t.seq, t.draws)) = some (.hostRun (.finish .timeout (some 0)), [true]) := by decide
/-- V-T1: the line reads 1 at the first poll. -/
theorem test_treset_settled :
    (nextOf (exec (.treset 0 0) (runningAt { fresh with draws := [true] } (.treset 0 0) (.reset (.poll 0))))).map
      (fun t => (t.seq, t.trace)) = some (.hostRun (.finish .ok (some 1)), [.sample 0 true 0]) := by decide
/-- V-T8 and V-T9. -/
theorem test_twrite_refused :
    (nextOf (exec (.twrite 0 0) fresh)).map (·.rc) = some .badArg ∧
      (nextOf (exec (.twrite 0 5) fresh)).map (·.rc) = some .badArg := by decide
/-- R98, R101: the farthest board's byte, lane `n - 1`, is shifted first. -/
theorem test_twrite_first_byte :
    (nextOf (exec (.twrite 0 2) (runningAt { fresh with jobData := 0xDDCCBBAA } (.twrite 0 2) (.write .ldLo)))).map
      (fun t => t.seq) = some (.hostRun (.write (.bit .clkLo 7 0xBB [0xAA]))) := by decide
/-- E2: four zero bytes. -/
theorem test_twrzero :
    (nextOf (exec (.twrzero 0) (runningAt fresh (.twrzero 0) (.zero true .ldLo)))).map (fun t => t.seq) =
      some (.hostRun (.zero true (.bit .clkLo 7 0 [0, 0, 0]))) := by decide
/-- V-T13. -/
theorem test_tread_refused : (nextOf (exec (.tread 0 7) fresh)).map (·.rc) = some .badArg := by decide
/-- V-T11: the last bit of board 1 done, the byte of board 0 is in lane 0. -/
theorem test_tread_lanes :
    (nextOf (exec (.tread 0 2) (runningAt fresh (.tread 0 2) (.read (.bit .clkHi 2 [0x01] 0 0x80))))).map
      (fun t => t.seq) = some (.hostRun (.finish .ok (some 0x00008001))) := by decide
/-- V-T17: settling exactly at `T` is a timeout. -/
theorem test_tanalog_timeout :
    (nextOf (exec (.tanalog 0 false 0)
        (runningAt { fresh with time := 3000, draws := [true] } (.tanalog 0 false 0) (.analog (.poll 0))))).map
      (fun t => t.seq) = some (.hostRun (.finish .timeout (some 3000))) := by decide
/-- V-T14. -/
theorem test_tanalog_settled :
    (nextOf (exec (.tanalog 0 false 0)
        (runningAt { fresh with time := 1234, draws := [true] } (.tanalog 0 false 0) (.analog (.poll 0))))).map
      (fun t => t.seq) = some (.hostRun (.finish .ok (some 1234))) := by decide
/-- V-T22. -/
theorem test_tanalog8_settled :
    (nextOf (exec (.tanalog8 0 false)
        (runningAt { fresh with time := 2549, draws := [true] } (.tanalog8 0 false) (.analog (.poll 0))))).map
      (fun t => t.seq) = some (.hostRun (.finish .ok (some 254))) := by decide
/-- V-T23. -/
theorem test_tanalog8_timeout :
    (nextOf (exec (.tanalog8 0 false)
        (runningAt { fresh with time := 2550, draws := [true] } (.tanalog8 0 false) (.analog (.poll 0))))).map
      (fun t => t.seq) = some (.hostRun (.finish .timeout (some 255))) := by decide
/-- V-M13: the first byte shifted is 0x80. -/
theorem test_refo :
    (nextOf (exec (.refo 0)
        (runningAt (built #v[0x00, 0x80, 0, 0] Bank.zero Bank.zero) (.refo 0) (.refresh true (.out .ldLo))))).map
      (fun t => t.seq) = some (.hostRun (.refresh true (.out (.bit .clkLo 7 0x80 [0x00])))) := by decide
/-- V-M17. -/
theorem test_refo_refused : (nextOf (exec (.refo 1) plain)).map (·.rc) = some .badState := by decide
/-- V-M2: the commit. -/
theorem test_refi_commit :
    (nextOf (exec (.refi 0)
        (runningAt (built Bank.zero #v[0x11, 0x33, 0, 0] Bank.zero) (.refi 0)
          (.refresh true (.commit [0x22, 0x44]))))).map
      (fun t => ((t.inst 0).inp, (t.inst 0).prev)) = some (#v[0x22, 0x44, 0, 0], #v[0x11, 0x33, 0, 0]) := by decide
/-- R146: the outputs first, then the inputs. -/
theorem test_ref : (nextOf (exec (.ref 0) (runningAt plain (.ref 0) (.refresh true (.out .latchLo))))).map
    (fun t => t.seq) = some (.hostRun (.refresh true (.inp .ldHi))) := by decide

/-! ### Register port, timer, arbiter -/

/-- V-P1 to V-P4. -/
theorem test_reads_after_reset :
    regValue 0x2 fresh = 0 ∧ regValue 0x7 fresh = 0x00000BB8 ∧ regValue 0x8 fresh = 0x00000011 ∧
      regValue (slotOf 0x24) fresh = 0 ∧ regValue (slotOf 0x3C) fresh = 0 := by decide
/-- V-P9. -/
theorem test_write_reserved_opcode :
    (nextOf (step (doing fresh (.regWrite 0 7)))).map (fun t => (t.cmdReg, t.rc)) = some (7, .badOpcode) := by decide
/-- V-P10. -/
theorem test_status_write :
    (nextOf (step (doing { fresh with overrun := true, tickLost := true } (.regWrite 2 0x00010000)))).map statusWord =
      some 0x00020000 := by decide
/-- V-P7: a read-only register ignores the write. -/
theorem test_write_read_only :
    (nextOf (step (doing fresh (.regWrite 3 5)))).map (fun t => regValue 3 t) = some 0 := by decide
/-- V-R4: the hundredth tick. -/
theorem test_tick :
    (nextOf (step (doing { registered 100 with tmrCount := 99 } .tb))).map
      (fun t => (t.tmrCount, t.roundPending)) = some (0, true) := by decide
/-- V-R4: the ninety-ninth does not. -/
theorem test_no_tick :
    (nextOf (step (doing { registered 100 with tmrCount := 98 } .tb))).map
      (fun t => (t.tmrCount, statusWord t)) = some (99, 0x10) := by decide
/-- V-R5, second row. -/
theorem test_grant_round :
    (nextOf (step (doing { registered 100 with roundPending := true } .seq))).map
      (fun t => (statusWord t, t.lastGrant)) = some (0x00000016, .round) := by decide
/-- A command reaches the machine from reset by the host's write (R172). -/
theorem test_withFetchWord : (nextOf (step (State.reset.withFetchWord 32 0x00000302))).map
    (fun t => (t.cmdReg, t.jobWord, t.busy)) = some (0x302, 0x302, true) := by decide

/-! ### Witnesses: for each statement with hypotheses, values that meet them, one for each clause -/

theorem witness_EncodeDecode : decode 0x0000A910 = .ok (.setob 0 1 5 true) := rfl

theorem witness_OpcodeMap :
    (0x1F : Word).extractLsb' 0 5 ∈ [0x07#5, 0x0D, 0x0E, 0x0F, 0x1B, 0x1C, 0x1D, 0x1E, 0x1F] ∧
      (0x1A : Word).extractLsb' 0 5 ∉ [0x07#5, 0x0D, 0x0E, 0x0F, 0x1B, 0x1C, 0x1D, 0x1E, 0x1F] := by decide

theorem witness_StepRunsCommand :
    (doing fresh (.regWrite 0 0x302)).script = [.regWrite 0 0x302] ∧ (doing fresh (.regWrite 0 0x302)).busy = false ∧
      decode 0x302 = .ok (.twrite 0 3) :=
  ⟨rfl, rfl, rfl⟩

theorem witness_StepRunsCommand_fetch :
    fresh.busy = false ∧ 0xFFFFFFE0 < 2 ^ 32 ∧ decodeTableWord 32 0xFFFFFFE0 = some .nop := ⟨rfl, by decide, rfl⟩

/-- A REFO of instance 0 in its first step, while two instances are registered. -/
def midJob : State := doing (runningAt (registered 100) (.refo 0) (.refresh true (.out .ldLo))) .seq

theorem witness_StepRunsJob :
    midJob.script = [.seq] ∧ midJob.busy = true ∧ midJob.seq = .hostRun (.refresh true (.out .ldLo)) ∧
      decode midJob.jobWord = .ok (.refo 0) ∧ cmdClass (.refo 0) ≠ .cache :=
  ⟨rfl, rfl, rfl, rfl, by decide⟩

theorem witness_ReservedRejected :
    (doing fresh (.regWrite 0 0x1F)).script = [.regWrite 0 0x1F] ∧ (doing fresh (.regWrite 0 0x1F)).busy = false ∧
      (0x1F : Word).extractLsb' 0 5 ∈ [0x07#5, 0x0D, 0x0E, 0x0F, 0x1B, 0x1C, 0x1D, 0x1E, 0x1F] := by decide

theorem witness_DroppedWhileBusy :
    (doing (waiting fresh (.twrzero 0)) (.regWrite 0 7)).script = [.regWrite 0 7] ∧
      (doing (waiting fresh (.twrzero 0)) (.regWrite 0 7)).busy = true := by decide

theorem witness_DroppedWhileBusy_cleared :
    ∃ t, step (doing { fresh with overrun := true } (.regWrite 2 0x10000)) = .next t ∧ t.overrun = false :=
  ⟨_, rfl, rfl⟩

theorem witness_JobCaptured :
    (doing (waiting fresh (.twrite 0 1)) (.regWrite 1 5)).busy = true ∧
      nextAction (doing (waiting fresh (.twrite 0 1)) (.regWrite 1 5)) ≠ .reset ∧
      ∃ t, step (doing (waiting fresh (.twrite 0 1)) (.regWrite 1 5)) = .next t ∧ t.data = 5 :=
  ⟨rfl, by decide, _, rfl, rfl⟩

/-- The words whose opcode the first part of each command's statement speaks of. -/
theorem witness_opcodes :
    (0xFFFFFFE0 : Word).extractLsb' 0 5 = 0x00 ∧ (0x13880021 : Word).extractLsb' 0 5 = 0x01 ∧
    (0x00000302 : Word).extractLsb' 0 5 = 0x02 ∧ (0x00000043 : Word).extractLsb' 0 5 = 0x03 ∧
    (0x00000404 : Word).extractLsb' 0 5 = 0x04 ∧ (0x03E88005 : Word).extractLsb' 0 5 = 0x05 ∧
    (0x00000066 : Word).extractLsb' 0 5 = 0x06 ∧ (0x00000208 : Word).extractLsb' 0 5 = 0x08 ∧
    (0x00000029 : Word).extractLsb' 0 5 = 0x09 ∧ (0x0000040A : Word).extractLsb' 0 5 = 0x0A ∧
    (0x0BB8000B : Word).extractLsb' 0 5 = 0x0B ∧ (0x0000802C : Word).extractLsb' 0 5 = 0x0C ∧
    (0x0000A910 : Word).extractLsb' 0 5 = 0x10 ∧ (0xF00F0311 : Word).extractLsb' 0 5 = 0x11 ∧
    (0x00002912 : Word).extractLsb' 0 5 = 0x12 ∧ (0x00000313 : Word).extractLsb' 0 5 = 0x13 ∧
    (0x00003834 : Word).extractLsb' 0 5 = 0x14 ∧ (0x00003835 : Word).extractLsb' 0 5 = 0x15 ∧
    (0x00000236 : Word).extractLsb' 0 5 = 0x16 ∧ (0x00000237 : Word).extractLsb' 0 5 = 0x17 ∧
    (0x00000018 : Word).extractLsb' 0 5 = 0x18 ∧ (0x000000F9 : Word).extractLsb' 0 5 = 0x19 ∧
    (0x0000003A : Word).extractLsb' 0 5 = 0x1A := by decide

/-- SetobRule, SetomRule, GetBitRules, GetMaskRules, MmuteRule: an absent and an unconstructed instance; the last board
and channel in range; the first board and the first channel out of range. -/
theorem witness_cacheRules :
    plain.params.ninst ≤ (2 : InstId).toNat ∧
    ((1 : InstId).toNat < plain.params.ninst ∧ (plain.inst 1).cons = false) ∧
    ((0 : InstId).toNat < plain.params.ninst ∧ (plain.inst 0).cons = true) ∧
    ((1 : BitVec 3) < (plain.inst 0).bc ∧ (7 : BitVec 4).toNat < 8) ∧
    ¬ ((2 : BitVec 3) < (plain.inst 0).bc ∧ (7 : BitVec 4).toNat < 8) ∧
    ¬ ((1 : BitVec 3) < (plain.inst 0).bc ∧ (8 : BitVec 4).toNat < 8) := by decide

theorem witness_LaneRule :
    Constructed 0 plain ∧ (plain.inst 0).bc.toNat ≤ 4 ∧ (1 : BitVec 3) < (plain.inst 0).bc ∧
      (∃ t, exec (.setom 0 1 0x81 0x01) plain = .next t) ∧ (∃ t, exec (.setob 0 1 7 true) plain = .next t) :=
  ⟨⟨by decide, by decide⟩, by decide, by decide, ⟨_, rfl⟩, ⟨_, rfl⟩⟩

/-- The clauses of `Issues`: the instance is absent; it has not the CONS the command needs (MREG, and MCONS, which
needs 0); the count is illegal; every check passes, at the ends of the range of the count. -/
theorem witness_issues :
    plain.busy = false ∧ plain.params.ninst ≤ (2 : InstId).toNat ∧
    ((1 : InstId).toNat < plain.params.ninst ∧ ∃ b, some true = some b ∧ (plain.inst 1).cons ≠ b) ∧
    ((0 : InstId).toNat < plain.params.ninst ∧ ∃ b, some false = some b ∧ (plain.inst 0).cons ≠ b) ∧
    ((∀ b, some true = some b → (plain.inst 0).cons = b) ∧ (∀ b, some false = some b → (plain.inst 1).cons = b) ∧
      ∀ b, none = some b → (plain.inst 1).cons = b) ∧
    ¬ (5 : BitVec 3).toNat ≤ 4 ∧ (4 : BitVec 3).toNat ≤ 4 ∧ (0 : BitVec 3).toNat ≤ 4 ∧
    ¬ (1 ≤ (0 : BitVec 3).toNat ∧ (0 : BitVec 3).toNat ≤ 4) ∧ (1 ≤ (1 : BitVec 3).toNat ∧ (1 : BitVec 3).toNat ≤ 4) := by
  decide

/-- A waiting command whose grant is enabled (MregRule, MdestroyRule, MsetcntRule, `GrantedAt`). -/
theorem witness_grant (c : Instr) : (waiting (registered 100) c).busy = true ∧ (waiting (registered 100) c).seq = .idle :=
  ⟨rfl, rfl⟩

/-- MdestroyRule: the last member is destroyed; another one is; one that is not registered is. -/
theorem witness_MdestroyRule :
    ((0 : InstId) ∈ [(0 : InstId)] ∧ [(0 : InstId)].erase 0 = []) ∧
    ¬ ((0 : InstId) ∈ (registered 100).regOrder ∧ (registered 100).regOrder.erase 0 = []) ∧
    ¬ ((0 : InstId) ∈ plain.regOrder ∧ plain.regOrder.erase 0 = []) := by decide

theorem witness_RegistryDiscipline :
    cmdClass (.mreg 0 0) = .registry ∧
      ({ waiting (registered 100) (.mreg 0 0) with seq := .round none } : State).busy = true ∧
      ({ waiting (registered 100) (.mreg 0 0) with seq := .round none } : State).seq ≠ .idle := by decide

theorem witness_RegistryDiscipline_change :
    ∃ t, step (doing (waiting plain (.mreg 0 100)) .seq) = .next t ∧
      t.regOrder ≠ (doing (waiting plain (.mreg 0 100)) .seq).regOrder :=
  ⟨_, rfl, by decide⟩

/-- E7: two registrations and the two destructions, in another order. -/
theorem witness_RegistryDrains :
    plain.seq = .idle ∧ plain.regOrder = [] ∧ plain.tmrAttached = false ∧
    (∀ c ∈ [Instr.mreg 1 100, .mreg 0 100, .mdestroy 1, .mdestroy 0],
      (∃ i p, c = .mreg i p) ∨ (∃ i, c = .mdestroy i)) ∧
    (∀ i p before after,
      [Instr.mreg 1 100, .mreg 0 100, .mdestroy 1, .mdestroy 0] = before ++ .mreg i p :: after →
        .mdestroy i ∈ after) := by
  refine ⟨rfl, rfl, rfl, by simp, fun i p before after h => ?_⟩
  rcases before with _ | ⟨_, _ | ⟨_, _ | ⟨_, _ | ⟨_, rest⟩⟩⟩⟩ <;> simp_all
  · obtain ⟨⟨rfl, -⟩, rfl⟩ := h; simp
  · obtain ⟨-, ⟨rfl, -⟩, rfl⟩ := h; simp

theorem witness_LinePrimitives :
    ({ fresh with draws := [false] } : State).draws = [false] ∧ fresh.draws = [] := by decide

/-- A round of `registered 100` inside the turn of instance 1, at a position of its refresh. -/
def inTurn (p : RefreshPos) : State :=
  doing { registered 100 with roundActive := true, seq := .round (some p) } .seq

/-- With a phase hold of one tick, which is not met right after reset. -/
def held (s : State) : State := { s with params := { ninst := 2, phaseMinUs := 1 } }

/-- PhaseHold, a host job: the hold is not met; a line step, a finish, a commit, a grant of each class. -/
theorem witness_PhaseHold :
    ((held midJob).time - (held midJob).seqLastT).toNat < (held midJob).params.phaseMinUs ∧
    (cmdClass (.refo 0) = .sequenced ∧ (held midJob).busy = true ∧
      (held midJob).seq = .hostRun (.refresh true (.out .ldLo)) ∧ (Pos.refresh true (.out .ldLo)).isLine = true) ∧
    (held (runningAt plain (.refo 0) (.finish .ok none))).seq = .hostRun (.finish .ok none) ∧
    (held (runningAt plain (.refi 0) (.refresh true (.commit [1, 2])))).seq = .hostRun (.refresh true (.commit [1, 2])) ∧
    ((held (waiting plain (.refo 0))).busy = true ∧ (held (waiting plain (.refo 0))).seq = .idle ∧
      cmdClass (.msetcnt 0 1) = .registry) := by decide

/-- PhaseHold, a round: a line step, a commit, a grant, a turn. -/
theorem witness_PhaseHold_round :
    ((held (inTurn (.inp .ldHi))).script = [.seq] ∧ (held (inTurn (.inp .ldHi))).seq = .round (some (.inp .ldHi)) ∧
      ∀ bytes, RefreshPos.inp .ldHi ≠ .commit bytes) ∧
    ((held (inTurn (.commit [1]))).seq = .round (some (.commit [1])) ∧
      (held (inTurn (.commit [1]))).regOrder[(held (inTurn (.commit [1]))).roundPos]? = some 1) ∧
    ((held { registered 100 with roundPending := true }).seq = .idle ∧
      (held { registered 100 with roundPending := true }).busy = false) ∧
    (held { inTurn (.commit []) with seq := .round none }).seq = .round none :=
  ⟨⟨rfl, rfl, fun _ h => nomatch h⟩, ⟨rfl, rfl⟩, ⟨rfl, rfl⟩, rfl⟩

/-- V-M2 at a commit, and R177 at a finish, while the phase hold is not met. -/
theorem test_not_held :
    (nextOf (exec (.refi 0) (held (runningAt plain (.refi 0) (.refresh true (.commit [1, 2])))))).map
      (fun t => (t.inst 0).inp) = some #v[1, 2, 0, 0] ∧
    (nextOf (step (held (inTurn (.commit [7]))))).map (fun t => ((t.inst 1).inp, t.roundPos)) =
      some (#v[7, 0, 0, 0], 1) ∧
    (nextOf (exec (.twrite 0 1) (held (runningAt plain (.twrite 0 1) (.finish .ok none))))).map (·.busy) =
      some false := by decide

/-- `AtPos`, which every step of a line program asks for, at every position. -/
theorem witness_atPos (c : Instr) (p : Pos) : AtPos (runningAt fresh c p) p := ⟨rfl, rfl, Nat.zero_le _⟩

/-- The clauses of `RunsReset`, `RunsWriteOut`, `RunsReadIn` and `RunsAnalog`: a poll at the timeout, below it with the
line at 1 and at 0; the bytes to shift; bits above 0; the board counts. -/
theorem witness_lineSteps :
    ((5000 : Word) ≤ ({ fresh with time := 5000 } : State).time - 0 ∧
      ({ fresh with time := 4999, draws := [true] } : State).time - 0 < (5000 : Word)) ∧
    (nextBit { fresh with draws := [true] } = true ∧ nextBit { fresh with draws := [false] } = false) ∧
    (boardsFarthestFirst 2 (fun b => (0xBBAA : Word).extractLsb' (8 * b) 8) = [0xBB, 0xAA] ∧
      outputsOf 0 plain = [0, 0]) ∧
    ((7 : Fin 8) ≠ 0 ∧ (1 : Fin 8) ≠ 0) ∧
    (1 ≤ 4 ∧ ([1, 2] : List Byte).length + 1 < 4 ∧ ([1, 2, 3] : List Byte).length + 1 = 4) := by decide

/-- The positions `RunsCommit` and `FinishesWith` ask for. -/
theorem witness_commit_finish (c : Instr) (bytes : List Byte) (rc : ResultCode) (r : Option Word) :
    ((runningAt plain c (.refresh true (.commit bytes))).busy = true ∧
      (runningAt plain c (.refresh true (.commit bytes))).seq = .hostRun (.refresh true (.commit bytes))) ∧
    ((runningAt plain c (.finish rc r)).busy = true ∧ (runningAt plain c (.finish rc r)).seq = .hostRun (.finish rc r)) :=
  ⟨⟨rfl, rfl⟩, rfl, rfl⟩

theorem witness_CommitRule :
    ([1, 2, 3, 4] : List Byte).length ≤ 4 ∧ 3 < ([1, 2, 3, 4] : List Byte).length ∧
      ([1, 2] : List Byte).length ≤ 2 := by decide

/-- ResultBounds: the last polls of TRESET, TANALOG and TANALOG8. -/
theorem witness_ResultBounds :
    (∃ t, exec (.treset 0 3) (runningAt { fresh with time := 3 } (.treset 0 3) (.reset (.poll 0))) = .next t ∧
      t.seq = .hostRun (.finish .timeout (some 0))) ∧
    (∃ t, exec (.tanalog 0 true 0)
        (runningAt { fresh with time := 2999, draws := [true] } (.tanalog 0 true 0) (.analog (.poll 0))) = .next t ∧
      t.seq = .hostRun (.finish .ok (some 2999))) ∧
    (∃ t, exec (.tanalog8 0 true) (runningAt { fresh with time := 2550 } (.tanalog8 0 true) (.analog (.poll 0))) =
        .next t ∧ t.seq = .hostRun (.finish .timeout (some 255))) :=
  ⟨⟨_, rfl, rfl⟩, ⟨_, rfl, rfl⟩, ⟨_, rfl, rfl⟩⟩

/-- A waiting command on `plain`, whose environment answers as listed. -/
def waitingWith (c : Instr) (ds : List Bool) : State := { waiting plain c with draws := ds }

/-- TwriteRun and TwrzeroRun. -/
theorem witness_TwriteRun :
    1 ≤ (4 : BitVec 3).toNat ∧ (4 : BitVec 3).toNat ≤ 4 ∧ (waiting fresh (.twrite 1 4)).busy = true ∧
      (waiting fresh (.twrite 1 4)).seq = .idle ∧ (waiting fresh (.twrite 1 4)).params.phaseMinUs = 0 ∧
      ((waiting fresh (.twrite 1 4)).inst 1).lines = Lines.idle := by decide

/-- TreadRun: the answers of vector V-T11. -/
theorem witness_TreadRun :
    ([0x01, 0x80] : List Byte).length = (2 : BitVec 3).toNat ∧
      (waitingWith (.tread 1 2) [true, true, true, true, true, true, true, false,
        false, true, true, true, true, true, true, true]).draws = answersFor [0x01, 0x80] ++ [] := by decide

/-- RefreshRuns. -/
theorem witness_RefreshRuns :
    ([0x01, 0x80] : List Byte).length = ((waitingWith (.ref 0) (answersFor [0x01, 0x80])).inst 0).bc.toNat ∧
      (waitingWith (.ref 0) (answersFor [0x01, 0x80])).draws = answersFor [0x01, 0x80] ++ [] ∧
      (waitingWith (.ref 0) (answersFor [0x01, 0x80])).busy = true ∧
      (waitingWith (.ref 0) (answersFor [0x01, 0x80])).seq = .idle ∧
      ((waitingWith (.ref 0) (answersFor [0x01, 0x80])).inst 0).lines = Lines.idle := by decide

/-- TresetRun and AnalogRuns: two polls at 0, then 1. -/
theorem witness_TresetRun :
    (waitingWith (.treset 0 0) [false, false, true]).draws = List.replicate 2 false ++ true :: [] ∧
      (waitingWith (.treset 0 0) [false, false, true]).busy = true ∧
      (waitingWith (.treset 0 0) [false, false, true]).params.phaseMinUs = 0 := by decide

/-- MconsRun: the bytes of vector V-M1, of an instance that is not constructed. -/
theorem witness_MconsRun :
    ([0x11, 0x33] : List Byte).length = (2 : BitVec 3).toNat ∧
      (waitingWith (.mcons 1 2) (true :: answersFor [0x11, 0x33])).draws = true :: (answersFor [0x11, 0x33] ++ []) ∧
      ((waitingWith (.mcons 1 2) (true :: answersFor [0x11, 0x33])).inst 1).lines = Lines.idle := by decide

/-- TransportFrame: a line step; the rejection that writes RC; the finish that writes RC and RESULT. -/
theorem witness_TransportFrame :
    (∃ t, exec (.twrite 0 1) (runningAt plain (.twrite 0 1) (.write .latchHi)) = .next t ∧ t ≠ plain) ∧
    (∃ t, exec (.twrite 0 0) plain = .next t ∧ t.rc ≠ plain.rc) ∧
    (∃ t, exec (.treset 0 0) (runningAt plain (.treset 0 0) (.finish .timeout (some 1))) = .next t ∧
      t.rc ≠ plain.rc ∧ t.result ≠ plain.result) :=
  ⟨⟨_, rfl, by decide⟩, ⟨_, rfl, by decide⟩, ⟨_, rfl, by decide, by decide⟩⟩

/-- TransportFrame, the second part: another state with the same lines, unlike in the caches. -/
theorem witness_TransportFrame_reads :
    (∀ j : InstId, ((built #v[1, 2, 3, 4] Bank.zero Bank.zero).insts[j.toNat]'j.isLt).lines = (plain.inst j).lines) ∧
      built #v[1, 2, 3, 4] Bank.zero Bank.zero ≠ plain := by decide

/-- OnlyDrivesChangeLines: LDOUT is raised. -/
theorem witness_OnlyDrivesChangeLines :
    ∃ t, step (doing (runningAt plain (.twrite 0 1) (.write .latchHi)) .seq) = .next t ∧
      nextAction (doing (runningAt plain (.twrite 0 1) (.write .latchHi)) .seq) ≠ .reset ∧
      (t.inst 0).lines.get .ldOut ≠ ((doing (runningAt plain (.twrite 0 1) (.write .latchHi)) .seq).inst 0).lines.get .ldOut :=
  ⟨_, rfl, by decide, by decide⟩

theorem witness_LineOwners :
    ∃ t, exec (.twrite 0 1) (runningAt plain (.twrite 0 1) (.write .latchHi)) = .next t ∧
      (t.inst 0).lines.get .ldOut ≠ ((runningAt plain (.twrite 0 1) (.write .latchHi)).inst 0).lines.get .ldOut :=
  ⟨_, rfl, by decide⟩

/-- OutputCacheOwners: OUT by a SETOB, MUTE by an MMUTE. -/
theorem witness_OutputCacheOwners :
    (∃ t, step (doing plain (.regWrite 0 0x00009810)) = .next t ∧ (t.inst 0).out ≠ (plain.inst 0).out) ∧
      (∃ t, step (doing plain (.regWrite 0 0x0000800C)) = .next t ∧ (t.inst 0).mute ≠ (plain.inst 0).mute) :=
  ⟨⟨_, rfl, by decide⟩, ⟨_, rfl, by decide⟩⟩

/-- InputCacheOwners: the commit of a REFI, and of a round. -/
theorem witness_InputCacheOwners :
    (∃ t, step (doing (runningAt plain (.refi 0) (.refresh true (.commit [1, 2]))) .seq) = .next t ∧
      (t.inst 0).inp ≠ (plain.inst 0).inp) ∧
    (∃ t, step (inTurn (.commit [1])) = .next t ∧ (t.inst 1).inp ≠ ((inTurn (.commit [1])).inst 1).inp) :=
  ⟨⟨_, rfl, by decide⟩, ⟨_, rfl, by decide⟩⟩

/-- ConstructionOwners: BC by an MSETCNT, CONS by an MDESTROY. -/
theorem witness_ConstructionOwners :
    (∃ t, step (doing (waiting plain (.msetcnt 0 4)) .seq) = .next t ∧ (t.inst 0).bc ≠ (plain.inst 0).bc) ∧
      (∃ t, step (doing (waiting plain (.mdestroy 0)) .seq) = .next t ∧ (t.inst 0).cons ≠ (plain.inst 0).cons) :=
  ⟨⟨_, rfl, by decide⟩, ⟨_, rfl, by decide⟩⟩

/-- TbRule: detached; the last count below the period; the tick, with and without a pending round. -/
theorem witness_TbRule :
    (doing plain .tb).script = [.tb] ∧ plain.tmrAttached = false ∧ (registered 100).tmrAttached = true ∧
    ({ registered 100 with tmrCount := 98 } : State).tmrCount.toNat + 1 < (registered 100).tmrPeriod.toNat ∧
    (registered 100).tmrPeriod.toNat ≤ ({ registered 100 with tmrCount := 99 } : State).tmrCount.toNat + 1 ∧
    (registered 100).roundPending = false ∧ ({ registered 100 with roundPending := true } : State).roundPending = true := by
  decide

/-- ArbiterRule: the round first, the host job first, and nothing that waits. -/
theorem witness_ArbiterRule :
    (({ registered 100 with roundPending := true } : State).roundPending = true ∧ (registered 100).seq = .idle ∧
      (registered 100).lastGrant = .host) ∧
    ((waiting (registered 100) (.mreg 0 0)).busy = true ∧ (waiting (registered 100) (.mreg 0 0)).roundPending = false ∧
      cmdClass (.mreg 0 0) ≠ .cache) ∧
    (plain.roundPending = false ∧ plain.busy = false) := by decide

/-- ArbiterRule: a round is pending and a host job waits; the host job goes first, or the round, by LAST_GRANT (R181). -/
theorem witness_ArbiterRule_both :
    (∀ g, ({ waiting (registered 100) (.mreg 0 0) with roundPending := true, lastGrant := g } : State).busy = true ∧
      ({ waiting (registered 100) (.mreg 0 0) with roundPending := true, lastGrant := g } : State).roundPending = true ∧
      ({ waiting (registered 100) (.mreg 0 0) with roundPending := true, lastGrant := g } : State).lastGrant = g) ∧
    (nextOf (step (doing { waiting (registered 100) (.mreg 0 0) with roundPending := true, lastGrant := .host } .seq))).map
      (fun t => (t.seq, t.busy)) = some (.round none, true) ∧
    (nextOf (step (doing { waiting (registered 100) (.mreg 0 0) with roundPending := true, lastGrant := .round } .seq))).map
      (fun t => (t.seq, t.busy)) = some (.idle, false) :=
  ⟨fun _ => ⟨rfl, rfl, rfl⟩, by decide, by decide⟩

theorem witness_ArbiterRule_job : decode (waiting (registered 100) (.mreg 0 0)).jobWord = .ok (.mreg 0 0) := rfl

/-- TurnRule: the end of the round, a member that is muted and one that is not. -/
theorem witness_TurnRule :
    (registered 100).regOrder.length ≤ ({ registered 100 with roundPos := 2 } : State).roundPos ∧
      (registered 100).regOrder[1]? = some 0 ∧ ((registered 100).inst 0).mute = false ∧
      (((registered 100).setInst 0 { Instance.reset with mute := true }).inst 0).mute = true := by decide

theorem witness_RoundRefreshes :
    (inTurn (.out .latchLo)).script = [.seq] ∧ (inTurn (.out .latchLo)).seq = .round (some (.out .latchLo)) ∧
      (inTurn (.out .latchLo)).regOrder[(inTurn (.out .latchLo)).roundPos]? = some 1 ∧
      (inTurn (.out .latchLo)).params.phaseMinUs ≤
        ((inTurn (.out .latchLo)).time - (inTurn (.out .latchLo)).seqLastT).toNat := by decide

theorem witness_RoundRefreshes_step :
    ∃ t : State, exec (.ref 1)
        { inTurn (.out .latchLo) with script := [], busy := true, seq := .hostRun (.refresh true (.out .latchLo)) } =
      .next { t with seq := .hostRun (.refresh true (.inp .ldHi)) } :=
  ⟨_, rfl⟩

/-- RoundRefreshes, its second part: a commit, whether the phase hold is met or not. -/
theorem witness_RoundRefreshes_commit :
    (inTurn (.commit [1])).script = [.seq] ∧ (inTurn (.commit [1])).seq = .round (some (.commit [1])) ∧
      (inTurn (.commit [1])).regOrder[(inTurn (.commit [1])).roundPos]? = some 1 ∧
      ((held (inTurn (.commit [1]))).time - (held (inTurn (.commit [1]))).seqLastT).toNat <
        (held (inTurn (.commit [1]))).params.phaseMinUs := by decide

/-- RoundFrame and NoPreemption: a step of a round, in which instance 0 has no part. -/
theorem witness_RoundFrame :
    nextAction (inTurn (.commit [1])) = .seq ∧ (inTurn (.commit [1])).seq = .round (some (.commit [1])) ∧
      (inTurn (.commit [1])).regOrder[(inTurn (.commit [1])).roundPos]? ≠ some 0 ∧
      (nextOf (step (inTurn (.commit [1])))).isSome = true := by decide

theorem witness_NoPreemption :
    (∃ t, step midJob = .next t) ∧ nextAction midJob ≠ .reset ∧ midJob.seq = .hostRun (.refresh true (.out .ldLo)) :=
  ⟨⟨_, rfl⟩, by decide, rfl⟩

/-- ReadRule and WriteRule, at the first reserved slot. -/
theorem witness_ReadRule :
    (doing fresh (.regRead 9)).script = [.regRead 9] ∧ (0x9 : BitVec 4) ≤ 9 ∧ (0x3 : BitVec 4) ≤ 9 ∧
      (doing fresh (.regWrite 9 1)).script = [.regWrite 9 1] := by decide

theorem witness_RegisterLayouts : (registered 100).regOrder.length ≤ 8 := by decide

theorem witness_HardReset : (doing midJob .reset).script = [.reset] := rfl

theorem witness_InvReset :
    Params.legal { ninst := 1, phaseMinUs := 0 } = true ∧ Params.legal { ninst := 8, phaseMinUs := 7 } = true := by
  decide

/-- InvStep: a REFO that runs while two instances are registered. -/
theorem witness_InvStep : Inv midJob ∧ ∃ t, step midJob = .next t where
  left := {
    params := by decide
    absent := by decide
    boardCount := by decide
    period := by decide
    detached := by decide
    distinct := by decide
    constructed := by decide
    attached := by decide
    pending := by decide
    active := ⟨(fun h => nomatch h), fun ⟨_, h⟩ => nomatch h⟩
    position := by decide
    turn := fun _ h => nomatch h
    job := fun _ => ⟨.refo 0, rfl, by decide, by decide⟩
    run := fun p h => by
      cases h
      exact ⟨rfl, .refo 0, 0, rfl, rfl, ⟨rfl, .ldLo, rfl⟩⟩
    idle := by decide }
  right := ⟨_, rfl⟩

/-! ### A fair execution -/

/-- A round has had all its turns, another is pending, and an MDESTROY of the one member of the registry waits. -/
def lastRound : State :=
  { waiting plain (.mdestroy 0) with
    regOrder := [0], tmrAttached := true, roundPending := true, roundActive := true, roundPos := 1
    lastGrant := .round, seq := .round none, draws := [false] }

/-- `lastRound` after the end of the round. -/
def roundEnded : State := { lastRound with roundActive := false, seq := .idle }

/-- `roundEnded` after a tick. -/
def ticked : State := { roundEnded with time := 1, tmrCount := 1 }

/-- After the MDESTROY, at `x` microseconds: nothing is registered and nothing waits. -/
def drained (x : Word) : State :=
  { ticked.setInst 0 Instance.reset with
    regOrder := [], tmrAttached := false, tmrCount := 0, roundPending := false
    lastGrant := .host, rc := .ok, busy := false, time := x }

/-- SEQ and TB take turns. -/
def inTurns (k : Nat) : Action := if k % 2 = 0 then .seq else .tb

/-- The execution from `lastRound` on in which SEQ and TB take turns. -/
def fairRun : Nat → State
  | 0 => lastRound
  | 1 => roundEnded
  | 2 => ticked
  | k + 3 => drained (BitVec.ofNat 32 ((k + 3) / 2))

theorem fairRun_execution : Execution inTurns (fun _ => false) fairRun
  | 0 => rfl
  | 1 => rfl
  | 2 => rfl
  | k + 3 => by
    obtain h | h : (k + 3) % 2 = 0 ∨ (k + 3) % 2 = 1 := by omega
    · have e : (k + 3 + 1) / 2 = (k + 3) / 2 := by omega
      show step ((drained _).offered (inTurns (k + 3)) false) = .next (drained (BitVec.ofNat 32 ((k + 3 + 1) / 2)))
      rw [e, inTurns, if_pos h]
      rfl
    · have e : BitVec.ofNat 32 ((k + 3 + 1) / 2) = BitVec.ofNat 32 ((k + 3) / 2) + 1 := by
        rw [show (k + 3 + 1) / 2 = (k + 3) / 2 + 1 by omega, BitVec.ofNat_add]
        rfl
      show step ((drained _).offered (inTurns (k + 3)) false) = .next (drained (BitVec.ofNat 32 ((k + 3 + 1) / 2)))
      rw [e, inTurns, if_neg (by omega)]
      rfl

theorem fairRun_fair : Fair inTurns fairRun where
  tb k := ⟨2 * k + 1, by omega, by rw [inTurns, if_neg (by omega)]⟩
  seq k _ := ⟨2 * k, by omega, by rw [inTurns, if_pos (by omega)]⟩

theorem inTurns_paced : Paced inTurns := fun k => by
  obtain h | h : k % 2 = 0 ∨ k % 2 = 1 := by omega
  · exact ⟨k, by omega, by omega, by rw [inTurns, if_pos h]⟩
  · exact ⟨k + 1, by omega, by omega, by rw [inTurns, if_pos (by omega)]⟩

/-- The invariant of a state in which SEQ is IDLE or between turns, and MDESTROY of instance 0 is the job, if one is. -/
theorem inv_between {s : State} (hq : s.seq = .idle ∨ s.seq = .round none) (hw : s.jobWord = encode (.mdestroy 0))
    (h : s.params.legal = true ∧ (∀ i : InstId, s.params.ninst ≤ i.toNat → s.inst i = Instance.reset) ∧
      (∀ i : InstId, 1 ≤ (s.inst i).bc.toNat ∧ (s.inst i).bc.toNat ≤ 4) ∧ 1 ≤ s.tmrPeriod.toNat ∧
      (s.tmrAttached = false → s.tmrCount = 0) ∧ s.regOrder.Nodup ∧ (∀ i ∈ s.regOrder, (s.inst i).cons = true) ∧
      (s.tmrAttached = true ↔ s.regOrder ≠ []) ∧
      (s.roundPending = true ∨ s.roundActive = true → s.tmrAttached = true) ∧
      s.roundActive = decide (s.seq ≠ .idle) ∧ (s.roundActive = true → s.roundPos ≤ s.regOrder.length) ∧
      (s.busy = true → validate (.mdestroy 0) s = none) ∧ ∀ i : InstId, (s.inst i).lines = Lines.idle) : Inv s := by
  obtain ⟨h1, h2, h3, h4, h5, h6, h7, h8, h9, h10, h11, h12, h13⟩ := h
  refine ⟨h1, h2, h3, h4, h5, h6, h7, h8, h9, ?_, h11, ?_, fun hb => ⟨_, by rw [hw]; rfl, by decide, h12 hb⟩, ?_,
    fun i _ => h13 i⟩ <;> obtain hq | hq := hq <;> simp [hq, h10]

/-- NeverStops, its third part: a fair execution with its schedule paced and the invariant in all its states, at whose
start a job is outstanding that makes no poll, a round is pending and a round is active. -/
theorem witness_NeverStops :
    Execution inTurns (fun _ => false) fairRun ∧ Fair inTurns fairRun ∧ Paced inTurns ∧ (∀ k, Inv (fairRun k)) ∧
      ((fairRun 0).params.phaseMinUs = 0 ∧ (fairRun 0).busy = true ∧ (fairRun 0).roundPending = true ∧
        (fairRun 0).roundActive = true ∧ ∀ c, decode (fairRun 0).jobWord = .ok c → polls c = false) := by
  refine ⟨fairRun_execution, fairRun_fair, inTurns_paced, ?_, rfl, rfl, rfl, rfl, fun c h => ?_⟩
  · have hd : Inv (drained 0) := inv_between (.inl rfl) rfl (by decide)
    intro k
    match k with
    | 0 => exact inv_between (.inr rfl) rfl (by decide)
    | 1 => exact inv_between (.inl rfl) rfl (by decide)
    | 2 => exact inv_between (.inl rfl) rfl (by decide)
    | k + 3 => exact hd.congr ⟨rfl, rfl, rfl, rfl, rfl, rfl, rfl, rfl, rfl, rfl, rfl, rfl⟩
  · rw [show (fairRun 0).jobWord = encode (.mdestroy 0) from rfl,
      show decode (encode (.mdestroy 0)) = .ok (.mdestroy 0) from rfl] at h
    cases h
    rfl

/-- NeverStops, its second part: nothing waits. -/
theorem witness_NeverStops_notEnabled : Inv (drained 0) ∧ seqEnabled (drained 0) = false :=
  ⟨inv_between (.inl rfl) rfl (by decide), rfl⟩

/-- R176: what is enabled with the phase hold not met. -/
theorem test_seqEnabled :
    seqEnabled (held midJob) = false ∧ seqEnabled midJob = true ∧ seqEnabled (held (inTurn (.commit [1]))) = true ∧
      seqEnabled (held (inTurn (.inp .ldHi))) = false ∧ seqEnabled (held (waiting plain (.refo 0))) = true := by decide

end Sys2Proof.Tests
end

section
/-! The invariant `Inv` along every step (R34, R39, R41, R42, R91, R164, R172). The host job's steps are in
Laws/Invariant.lean; here stand reset, the timebase, and the steps of a refresh round. -/

namespace Sys2Proof.Machine

/-! ### Reset -/

/-- Every instance right after reset is as R49 says. -/
@[simp] theorem resetWith_inst (p : Params) (i : InstId) : (State.resetWith p).inst i = Instance.reset := by
  have h : (State.resetWith p).insts = Vector.replicate 8 Instance.reset := rfl
  simp [State.inst, h]

/-- The reset state satisfies the invariant (R49, R202). -/
theorem inv_resetWith {p : Params} (hp : p.legal = true) : Inv (State.resetWith p) where
  params := hp
  absent i _ := resetWith_inst p i
  boardCount i := by rw [resetWith_inst]; decide
  period := by simp [State.resetWith]
  detached _ := rfl
  distinct := List.nodup_nil
  constructed i hi := by cases hi
  attached := by simp [State.resetWith]
  pending h := by cases h <;> contradiction
  active := by simp [State.resetWith]
  position h := by cases h
  turn q h := by cases h
  job h := by cases h
  run q h := by cases h
  idle i _ := by rw [resetWith_inst]; rfl

/-- Hardware reset restores the invariant whatever the block was doing (R200). -/
theorem inv_hardReset {s : State} (h : Inv s) : Inv (hardReset s) :=
  (inv_resetWith h.params).congr (by simp [SameInv, hardReset])

/-! ### The timebase -/

/-- TMR_COUNT may take any value while the timer is attached, and a round may become pending. -/
theorem Inv.withTimer {s : State} (h : Inv s) (hatt : s.tmrAttached = true) (count : BitVec 16) (pending : Bool) :
    Inv { s with tmrCount := count, roundPending := pending } :=
  { h with
    detached := fun hd => by simp [hatt] at hd
    pending := fun _ => hatt }

/-- A tick keeps the invariant (R178, R180). -/
theorem inv_tbStep {s : State} (h : Inv s) : Inv (tbStep s) := by
  unfold tbStep periodicTick
  split
  · rename_i hatt
    split
    · split
      · exact (h.withTimer hatt 0 s.roundPending).congr (by simp [SameInv])
      · exact (h.withTimer hatt 0 true).congr (by simp [SameInv])
    · exact (h.withTimer hatt (s.tmrCount + 1) s.roundPending).congr (by simp [SameInv])
  · exact h.congr (by simp [SameInv])

/-! ### Refresh rounds -/

/-- A registered instance exists: it is constructed, and an absent one is not (R5, R164). -/
theorem Inv.registered_exists {s : State} (h : Inv s) {j : InstId} (hj : j ∈ s.regOrder) : j.toNat < s.params.ninst := by
  by_contra hn
  have hc := h.constructed j hj
  rw [h.absent j (Nat.le_of_not_lt hn)] at hc
  cases hc

/-- A round is active while SEQ is in one, and the timer is then attached (R42, R164). -/
theorem Inv.round_active {s : State} (h : Inv s) {p : Option RefreshPos} (hs : s.seq = .round p) :
    s.roundActive = true ∧ s.tmrAttached = true := by
  have ha := h.active.mpr ⟨p, hs⟩
  exact ⟨ha, h.pending (.inr ha)⟩

/-- With every line idle, SEQ may be IDLE or between two turns, the round state being of that kind (R42). -/
theorem Inv.withRound {s : State} (h : Inv s) (hl : ∀ i, (s.inst i).lines = Lines.idle) (pending active : Bool)
    (pos : Nat) (g : Grant) (q : Seq) (hq : q = .idle ∧ active = false ∨ q = .round none ∧ active = true)
    (hatt : pending = true ∨ active = true → s.tmrAttached = true) (hpos : active = true → pos ≤ s.regOrder.length) :
    Inv { s with roundPending := pending, roundActive := active, roundPos := pos, lastGrant := g, seq := q } :=
  { h with
    pending := hatt
    active := by obtain ⟨rfl, rfl⟩ | ⟨rfl, rfl⟩ := hq <;> simp
    position := hpos
    turn := fun p hp => by obtain ⟨rfl, -⟩ | ⟨rfl, -⟩ := hq <;> cases hp
    run := fun p hp => by obtain ⟨rfl, -⟩ | ⟨rfl, -⟩ := hq <;> cases hp
    idle := fun i _ => hl i }

/-- The grant of a round keeps the invariant (R176). -/
theorem inv_grantRound {s : State} (h : Inv s) (hs : s.seq = .idle) (hp : s.roundPending = true) :
    Inv (grantRound s) :=
  h.withRound (fun i => h.idle i (by simp [runningPort, hs])) false true 0 .round (.round none) (.inr ⟨rfl, rfl⟩)
    (fun _ => h.pending (.inl hp)) (fun _ => Nat.zero_le _)

/-- A turn step keeps the invariant: the end of the round, a skip, or the start of a refresh (R182, R185). -/
theorem inv_turnStep {s : State} (h : Inv s) (hs : s.seq = .round none) : Inv (turnStep s) := by
  have hl : ∀ i, (s.inst i).lines = Lines.idle := fun i => h.idle i (by simp [runningPort, hs])
  obtain ⟨hact, hatt⟩ := h.round_active hs
  unfold turnStep
  split
  · exact h.withRound hl s.roundPending false s.roundPos s.lastGrant .idle (.inl ⟨rfl, rfl⟩) (fun _ => hatt) nofun
  · rename_i j hj
    split
    · have hskip := h.withRound hl s.roundPending true (s.roundPos + 1) s.lastGrant (.round none) (.inr ⟨rfl, rfl⟩)
        (fun _ => hatt) (fun _ => (List.getElem?_eq_some_iff.mp hj).1)
      exact hskip.congr (by simp [SameInv, hs, hact])
    · refine inv_of_runFrame h j (h.registered_exists (List.mem_of_getElem? hj)) (LineFrame.refl j s).refresh.run _
        (by simp [hact]) ?_ nofun (fun i _ => hl i)
      rintro p ⟨⟩
      exact ⟨j, hj, hl j⟩

/-- Inside a turn only the port of the instance being refreshed may have a line that is not idle (R91). -/
theorem Inv.turn_idle {s : State} (h : Inv s) {p : RefreshPos} {i j : InstId} (hs : s.seq = .round (some p))
    (hj : s.regOrder[s.roundPos]? = some j) (hne : j ≠ i) : (s.inst i).lines = Lines.idle :=
  h.idle i (by simpa [runningPort, hs, hj] using hne)

/-- Inside a turn the refresh of the instance at ROUND_POS is as the refresh programs leave it (R140). -/
theorem Inv.turn_ok {s : State} (h : Inv s) {p : RefreshPos} {j : InstId} (hs : s.seq = .round (some p))
    (hj : s.regOrder[s.roundPos]? = some j) : p.ok (s.inst j) := by
  obtain ⟨j', hj', hok⟩ := h.turn p hs
  rw [hj] at hj'
  cases hj'
  exact hok

/-- A line step of a round keeps the invariant (R176). -/
theorem inv_round_refresh {s t : State} (h : Inv s) {p q : RefreshPos} {j : InstId} (hs : s.seq = .round (some p))
    (hj : s.regOrder[s.roundPos]? = some j) (hr : refreshStep j p s = .more t q) :
    Inv { t with seq := .round (some q) } := by
  obtain ⟨hq, f⟩ := (refreshStep_run (h.turn_ok hs hj)).1 t q hr
  obtain ⟨-, -, -, -, -, -, hpos, hreg⟩ := shared_inv f.shared
  refine inv_of_runFrame h j (h.registered_exists (List.mem_of_getElem? hj)) f _ (by simp [(h.round_active hs).1]) ?_
    nofun ?_
  · rintro p' ⟨⟩
    exact ⟨j, hj, hq⟩
  · intro i hi
    have hne : j ≠ i := by simpa [runningPort, hreg, hpos, hj] using hi
    rw [f.others i hne]
    exact h.turn_idle hs hj hne

/-- The commit of a turn, which also ends it, keeps the invariant (R182). -/
theorem inv_round_commit {s t : State} (h : Inv s) {p : RefreshPos} {j : InstId} (hs : s.seq = .round (some p))
    (hj : s.regOrder[s.roundPos]? = some j) (hr : refreshStep j p s = .done t ()) :
    Inv { t with roundPos := t.roundPos + 1, seq := .round none } := by
  obtain ⟨hidle, f⟩ := (refreshStep_run (h.turn_ok hs hj)).2 t () hr
  obtain ⟨-, hatt, -, -, -, hact, hpos, hreg⟩ := shared_inv f.shared
  obtain ⟨hact', hatt'⟩ := h.round_active hs
  have hl : ∀ i, (t.inst i).lines = Lines.idle := by
    intro i
    by_cases hne : j = i
    · exact hne ▸ hidle
    · rw [f.others i hne]
      exact h.turn_idle hs hj hne
  have hbetween : Inv { t with seq := .round none } :=
    inv_of_runFrame h j (h.registered_exists (List.mem_of_getElem? hj)) f _ (by simp [hact']) nofun nofun
      (fun i _ => hl i)
  have hnext := hbetween.withRound hl t.roundPending true (t.roundPos + 1) t.lastGrant (.round none)
    (.inr ⟨rfl, rfl⟩) (fun _ => hatt.trans hatt')
    (fun _ => by rw [hpos, hreg]; exact (List.getElem?_eq_some_iff.mp hj).1)
  exact hnext.congr (by simp [SameInv, hact, hact'])

/-! ### Every step -/

/-- Every kind of step keeps the invariant. -/
theorem inv_stepKind {s t : State} (h : Inv s) (hk : StepKind s (dropAction s) t) : Inv t := by
  have hu : Inv (dropAction s) := inv_dropAction h
  have hcmd : ∀ w, Inv { dropAction s with cmdReg := w } := fun w => hu.congr (by simp [SameInv])
  cases hk with
  | read a _ => exact hu.congr (by simp [SameInv, readPort])
  | dropped w _ _ => exact hu.congr (by simp [SameInv])
  | reserved w e _ _ _ => exact hu.congr (by simp [SameInv, reject])
  | cache w c _ _ _ hc => exact inv_cacheCommand (hcmd w) c hc
  | issue w c _ hb hw hc => exact inv_issueJob (hcmd w) c hc (by simpa using hb) hw
  | data v _ => exact hu.congr (by simp [SameInv])
  | status v _ => exact hu.congr (by simp [SameInv, writeStatus])
  | ignored a v _ _ => exact hu
  | grantRegistry c _ hs hb hw hc =>
    exact inv_registry_grant hu c hc (by simpa using hb) (by simpa using hs) (by simpa using hw)
  | grantSequenced c _ hs hb hw hc =>
    have hb' : (dropAction s).busy = true := by simpa using hb
    exact inv_jobExec hu c (by simp [hc]) hb' (by simpa using hw) _ (grantedAt_of hc _ hb' (by simpa using hs))
  | program c p q t _ hs hb hw _ _ _ hr =>
    exact inv_programStep hu c (by simpa using hb) (by simpa using hw) p (by simpa using hs) t q hr
  | finish c rc r _ hs hb hw _ =>
    exact inv_finish hu c (by simpa using hb) (by simpa using hw) rc r (by simpa using hs)
  | grantRound _ hs hp => exact inv_grantRound hu (by simpa using hs) (by simpa using hp)
  | turn _ hs => exact inv_turnStep hu (by simpa using hs)
  | refresh j p q t _ hs hj hr => exact inv_round_refresh hu (by simpa using hs) (by simpa using hj) hr
  | commit j p t _ hs hj hr => exact inv_round_commit hu (by simpa using hs) (by simpa using hj) hr
  | notEnabled _ => exact hu
  | tb _ => exact inv_tbStep hu
  | reset _ => exact inv_hardReset hu

/-- Settles O59: every kind of step of `step_kind` keeps the invariant. -/
theorem invStep : Obligations.InvStep := by
  unfold Obligations.InvStep
  exact fun _ _ h hst => inv_stepKind h (step_kind hst)

/-- Settles O58. -/
theorem invReset : Obligations.InvReset := by
  unfold Obligations.InvReset
  exact fun _ hp => inv_resetWith hp

end Sys2Proof.Machine
end

section
/-! Who writes what of an instance (R33 to R38): what one step can do to one instance is said once (`InstChange`,
`step_instChange`), and the ownership statements read their owner off it. -/

namespace Sys2Proof.Machine

/-! ### Which updates leave the instances alone -/

@[simp] theorem tbStep_inst (s : State) (j : InstId) : (tbStep s).inst j = s.inst j := by
  unfold tbStep periodicTick
  split
  · split
    · split <;> rfl
    · rfl
  · rfl

@[simp] theorem turnStep_inst (s : State) (j : InstId) : (turnStep s).inst j = s.inst j := by
  unfold turnStep
  split
  · rfl
  · split <;> rfl

@[simp] theorem deregister_inst (i : InstId) (s : State) (j : InstId) : (deregister i s).inst j = s.inst j := by
  rw [deregister_eq]
  split <;> rfl

@[simp] theorem issueJob_inst (c : Instr) (s : State) (j : InstId) : (issueJob c s).inst j = s.inst j := by
  obtain ⟨rc, -, he⟩ | ⟨-, he⟩ := issueJob_cases c s <;> rw [he] <;> rfl

/-- A step of a line program is within the frame of one. -/
theorem LineStep.frame {i : InstId} {roles : List Role} {s t : State} (h : LineStep i roles s t) : LineFrame i s t := by
  cases h with
  | drive r v _ => exact drive_lineFrame i r v s
  | sample => exact sample_lineFrame i s
  | timedOut => exact .refl i s

/-- A step of a line program changes at most the lines of an instance. -/
theorem LineStep.sameButLines {i : InstId} {roles : List Role} {s t : State} (h : LineStep i roles s t) (j : InstId) :
    SameButLines (s.inst j) (t.inst j) := by
  by_cases hj : i = j
  · exact hj ▸ h.frame.same
  · rw [h.frame.others j hj]
    exact ⟨rfl, rfl, rfl, rfl, rfl, rfl⟩

/-! ### What one step does to one instance -/

/-- What a step from `s`, other than a reset, can make of instance `i`. -/
inductive InstChange (s : State) (i : InstId) : Instance → Prop where
  /-- Nothing but lines of its port. -/
  | lines (y : Instance) : SameButLines (s.inst i) y → InstChange s i y
  /-- A SETOB or SETOM of it is issued (R122, R123). -/
  | outputs (w : Word) (out : Bank) : nextAction s = .regWrite 0 w → s.busy = false →
      ((∃ b c v, decode w = .ok (.setob i b c v)) ∨ (∃ b S R, decode w = .ok (.setom i b S R))) →
      InstChange s i { s.inst i with out := out }
  /-- An MMUTE of it is issued (R162). -/
  | mute (w : Word) (v : Bool) : nextAction s = .regWrite 0 w → s.busy = false → decode w = .ok (.mmute i v) →
      InstChange s i { s.inst i with mute := v }
  /-- Its MDESTROY is granted (R148). -/
  | destroy (y : Instance) : nextAction s = .seq → s.busy = true → decode s.jobWord = .ok (.mdestroy i) →
      InstChange s i y
  /-- Its MSETCNT is granted (R149). -/
  | boardCount (n : BitVec 3) : nextAction s = .seq → s.busy = true → decode s.jobWord = .ok (.msetcnt i n) →
      InstChange s i { s.inst i with bc := boardCount n }
  /-- Its MCONS takes a step (R147). -/
  | construct (n : BitVec 3) (y : Instance) : nextAction s = .seq → s.busy = true →
      decode s.jobWord = .ok (.mcons i n) → y.mute = (s.inst i).mute → InstChange s i y
  /-- The commit of its REFI or REF (R145, R146). -/
  | commitJob (ok : Bool) (bytes : List Byte) : nextAction s = .seq → s.busy = true →
      s.seq = .hostRun (.refresh ok (.commit bytes)) →
      (decode s.jobWord = .ok (.refi i) ∨ decode s.jobWord = .ok (.ref i)) →
      InstChange s i (withCommit (s.inst i) bytes)
  /-- The commit of its turn in a round (R182). -/
  | commitRound (bytes : List Byte) : nextAction s = .seq → s.seq = .round (some (.commit bytes)) →
      s.regOrder[s.roundPos]? = some i → InstChange s i (withCommit (s.inst i) bytes)

/-- Nothing has changed. -/
theorem InstChange.same {s : State} {i : InstId} {y : Instance} (h : y = s.inst i) : InstChange s i y :=
  .lines y (by simp [h, SameButLines])

/-- A class C command (R121): SETOB and SETOM write OUT, MMUTE writes MUTE, of the instance they name. -/
theorem cache_instChange {s : State} {w : Word} {c : Instr} (ha : nextAction s = .regWrite 0 w) (hb : s.busy = false)
    (hw : decode w = .ok c) (hc : cmdClass c = .cache) (i : InstId) :
    InstChange s i ((cacheCommand c (cacheEffectOf c) { dropAction s with cmdReg := w }).inst i) := by
  have hu : ∀ j, ({ dropAction s with cmdReg := w } : State).inst j = s.inst j := dropAction_inst s
  generalize ({ dropAction s with cmdReg := w } : State) = u at hu
  obtain ⟨rc, -, he⟩ | ⟨-, he⟩ := cacheCommand_cases c (cacheEffectOf c) u
  · rw [he]
    exact .same (hu i)
  rw [he]
  change InstChange s i ((cacheEffectOf c u).inst i)
  cases c <;> simp only [cmdClass, reduceCtorEq] at hc <;> simp only [cacheEffectOf, inst_setInst]
  case mmute j v =>
    split
    · rename_i hj
      subst hj
      rw [hu]
      exact .mute w v ha hb hw
    · exact .same (hu i)
  case setob j b ch v =>
    split
    · rename_i hj
      subst hj
      rw [hu]
      unfold withOutBit
      split
      · exact .outputs w _ ha hb (.inl ⟨b, ch, v, hw⟩)
      · exact .same rfl
    · exact .same (hu i)
  case setom j b S R =>
    split
    · rename_i hj
      subst hj
      rw [hu]
      unfold withOutMask
      split
      · exact .outputs w _ ha hb (.inr ⟨b, S, R, hw⟩)
      · exact .same rfl
    · exact .same (hu i)
  all_goals exact .same (hu i)

/-- A class R command: MDESTROY and MSETCNT write the instance they name, MREG none (R148, R149, R161). -/
theorem registry_instChange {s u : State} {c : Instr} (ha : nextAction s = .seq) (hb : s.busy = true)
    (hw : decode s.jobWord = .ok c) (hc : cmdClass c = .registry) (hu : ∀ j, u.inst j = s.inst j) (i : InstId) :
    InstChange s i ((effectOf c u).inst i) := by
  cases c <;> simp only [cmdClass, reduceCtorEq] at hc
  case mdestroy j =>
    by_cases hj : j = i
    · subst hj
      exact .destroy _ ha hb hw
    · exact .same (by simp [effectOf, destroyInst, clearInst, inst_setInst_ne _ _ hj, hu])
  case msetcnt j n =>
    by_cases hj : j = i
    · subst hj
      simp only [effectOf, inst_setInst_self, hu]
      exact .boardCount n ha hb hw
    · exact .same (by simp [effectOf, inst_setInst_ne _ _ hj, hu])
  case mreg j imm => exact .same (hu i)

/-- A line step or commit of a host job. -/
theorem program_instChange {s u t : State} {c : Instr} {p q : Pos} (ha : nextAction s = .seq) (hb : s.busy = true)
    (hw : decode s.jobWord = .ok c) (hs : s.seq = .hostRun p) (hr : runOf c p u = some (t, q))
    (hu : ∀ j, u.inst j = s.inst j) (i : InstId) : InstChange s i (t.inst i) := by
  have line : ∀ {j roles}, LineStep j roles u t → InstChange s i (t.inst i) :=
    fun h => .lines _ (by rw [← hu]; exact h.sameButLines i)
  obtain ⟨j, -, hk⟩ := run_kind hr
  cases hk with
  | reset r _ _ h => exact line h
  | write r _ _ h => exact line h
  | read r _ _ h => exact line h
  | analog r _ _ h => exact line h
  | init n _ _ hc ht =>
    subst hc ht
    by_cases hj : j = i
    · subst hj
      exact .construct n _ ha hb hw (by simp [drive_inst, constructInit, hu])
    · exact .same (by simp [drive_inst, constructInit, inst_setInst_ne _ _ hj, hj, hu])
  | commit ok bytes hp hc =>
    subst hp
    by_cases hj : j = i
    · subst hj
      rw [commitInputs, inst_setInst_self, hu]
      obtain rfl | rfl | ⟨n, rfl⟩ := hc
      · exact .commitJob ok bytes ha hb hs (.inl hw)
      · exact .commitJob ok bytes ha hb hs (.inr hw)
      · exact .construct n _ ha hb hw rfl
    · exact .same (by rw [commitInputs_inst_ne j bytes u hj, hu])

/-- The finish of a class S command: only MCONS writes its instance (R147, R177). -/
theorem finish_instChange {s u : State} {c : Instr} (ha : nextAction s = .seq) (hb : s.busy = true)
    (hw : decode s.jobWord = .ok c) (hu : ∀ j, u.inst j = s.inst j) (i : InstId) :
    InstChange s i ((finishOf c u).inst i) := by
  obtain he | ⟨j, n, rfl, he⟩ := finishOf_inst c u
  · rw [he]
    exact .same (hu i)
  · rw [he, markConstructed]
    by_cases hj : j = i
    · subst hj
      exact .construct n _ ha hb hw (by simp [hu])
    · exact .same (by rw [inst_setInst_ne _ _ hj, hu])

/-- A step of the refresh in a round: a line step, or the commit (R182). -/
theorem round_instChange {s u : State} {j : InstId} {p : RefreshPos} (ha : nextAction s = .seq)
    (hs : s.seq = .round (some p)) (hj : s.regOrder[s.roundPos]? = some j) (hu : ∀ j, u.inst j = s.inst j)
    (i : InstId) : InstChange s i ((refreshStep j p u).state.inst i) := by
  obtain ⟨r, -, h⟩ | ⟨r, -, h⟩ | ⟨bytes, rfl, h⟩ := refreshStep_state j p u
  · exact .lines _ (by rw [← hu]; exact h.sameButLines i)
  · exact .lines _ (by rw [← hu]; exact h.sameButLines i)
  · rw [h, Progress.state, commitInputs]
    by_cases hji : j = i
    · subst hji
      rw [inst_setInst_self, hu]
      exact .commitRound bytes ha hs hj
    · exact .same (by rw [inst_setInst_ne _ _ hji, hu])

/-- What any step other than a reset makes of an instance. -/
theorem step_instChange {s t : State} (h : step s = .next t) (hr : nextAction s ≠ .reset) (i : InstId) :
    InstChange s i (t.inst i) := by
  have hu : ∀ j, (dropAction s).inst j = s.inst j := dropAction_inst s
  cases step_kind h with
  | cache w c ha hb hw hc => exact cache_instChange ha hb hw hc i
  | issue w c _ _ _ _ => exact .same (by rw [issueJob_inst]; exact hu i)
  | grantRegistry c ha _ hb hw hc =>
    exact registry_instChange (u := { dropAction s with lastGrant := .host }) ha hb hw hc hu i
  | program c p q v ha hs hb hw _ _ _ hv => exact program_instChange ha hb hw hs hv hu i
  | finish c rc r ha _ hb hw _ => exact finish_instChange ha hb hw hu i
  | refresh j p q v ha hs hj hv =>
    have := round_instChange ha hs hj hu i
    rwa [hv] at this
  | commit j p v ha hs hj hv =>
    have := round_instChange ha hs hj hu i
    rwa [hv] at this
  | turn _ _ => exact .same (by rw [turnStep_inst, hu])
  | tb _ => exact .same (by rw [tbStep_inst, hu])
  | reset ha => exact absurd ha hr
  | _ => exact .same (hu i)

/-! ### The owners -/

/-- Settles O43: OUT and MUTE are written by SETOB, SETOM, MMUTE, MCONS and MDESTROY of the instance alone. -/
theorem outputCacheOwners : Obligations.OutputCacheOwners := by
  unfold Obligations.OutputCacheOwners
  intro s t i h hr
  have hk := step_instChange h hr i
  generalize t.inst i = y at hk
  cases hk with
  | lines _ hl =>
    obtain ⟨-, -, hout, -, -, hmute⟩ := hl
    exact ⟨fun hne => absurd hout hne, fun hne => absurd hmute hne⟩
  | outputs w out ha hb hw => exact ⟨fun _ => .inl ⟨w, ha, hb, hw⟩, fun hne => absurd rfl hne⟩
  | mute w v ha hb hw => exact ⟨fun hne => absurd rfl hne, fun _ => .inl ⟨w, v, ha, hb, hw⟩⟩
  | destroy _ ha hb hw => exact ⟨fun _ => .inr ⟨ha, hb, .inr hw⟩, fun _ => .inr ⟨ha, hb, hw⟩⟩
  | construct n _ ha hb hw hm => exact ⟨fun _ => .inr ⟨ha, hb, .inl ⟨n, hw⟩⟩, fun hne => absurd hm hne⟩
  | _ => exact ⟨fun hne => absurd rfl hne, fun hne => absurd rfl hne⟩

/-- Settles O44: IN and PREV are written by commits, MCONS and MDESTROY of the instance alone. -/
theorem inputCacheOwners : Obligations.InputCacheOwners := by
  unfold Obligations.InputCacheOwners
  intro s t i h hr hne
  have hk := step_instChange h hr i
  generalize t.inst i = y at hk hne
  cases hk with
  | lines _ hl =>
    obtain ⟨-, -, -, hinp, hprev, -⟩ := hl
    exact absurd hne (by simp [hinp, hprev])
  | destroy _ ha hb hw => exact ⟨ha, .inl ⟨hb, .inr hw⟩⟩
  | construct n _ ha hb hw _ => exact ⟨ha, .inl ⟨hb, .inl ⟨n, hw⟩⟩⟩
  | commitJob ok bytes ha hb hs hw => exact ⟨ha, .inr (.inl ⟨hb, ⟨ok, bytes, hs⟩, hw⟩)⟩
  | commitRound bytes ha hs hj => exact ⟨ha, .inr (.inr ⟨⟨bytes, hs⟩, hj⟩)⟩
  | _ => exact absurd hne (by simp)

/-- Settles O45: BC and CONS are written by MCONS, MSETCNT (BC only) and MDESTROY of the instance alone. -/
theorem constructionOwners : Obligations.ConstructionOwners := by
  unfold Obligations.ConstructionOwners
  intro s t i h hr
  have hk := step_instChange h hr i
  generalize t.inst i = y at hk
  cases hk with
  | lines _ hl =>
    obtain ⟨hcons, hbc, -⟩ := hl
    exact ⟨fun hne => absurd hbc hne, fun hne => absurd hcons hne⟩
  | destroy _ ha hb hw => exact ⟨fun _ => ⟨ha, hb, .inr (.inr hw)⟩, fun _ => ⟨ha, hb, .inr hw⟩⟩
  | boardCount n ha hb hw => exact ⟨fun _ => ⟨ha, hb, .inr (.inl ⟨n, hw⟩)⟩, fun hne => absurd rfl hne⟩
  | construct n _ ha hb hw _ => exact ⟨fun _ => ⟨ha, hb, .inl ⟨n, hw⟩⟩, fun _ => ⟨ha, hb, .inl ⟨n, hw⟩⟩⟩
  | _ => exact ⟨fun hne => absurd rfl hne, fun hne => absurd rfl hne⟩

end Sys2Proof.Machine
end

section
/-! The layouts of the registers (R44 to R48) and the reset values (R49). A register is an append of its fields: a field
is read by dropping those below it, and a row of eight equal fields (`octet`) is read at its index. -/

namespace Sys2Proof.Machine

/-! ### Fields of an append -/

/-- A bit above the lower part is a bit of the upper part. -/
theorem getLsbD_append_high {m n k : Nat} {x : BitVec m} {y : BitVec n} (h : n ≤ k) :
    (x ++ y).getLsbD k = x.getLsbD (k - n) := by
  rw [BitVec.getLsbD_append, if_neg (Nat.not_lt.mpr h)]

/-- A bit inside the lower part is a bit of it. -/
theorem getLsbD_append_low {m n k : Nat} {x : BitVec m} {y : BitVec n} (h : k < n) :
    (x ++ y).getLsbD k = y.getLsbD k := by
  rw [BitVec.getLsbD_append, if_pos h]

/-- The lowest field, where it is a flag. -/
theorem getLsbD_append_flag {m : Nat} {x : BitVec m} (v : Bool) : (x ++ BitVec.ofBool v).getLsbD 0 = v := by
  rw [getLsbD_append_low Nat.one_pos]
  cases v <;> rfl

/-- Eight fields of one width, number 0 lowest: how REGISTRY, INSTSTATE and BCOUNT hold one value per index. -/
def octet {n : Nat} (g : Nat → BitVec n) : BitVec (n + n + n + n + n + n + n + n) :=
  g 7 ++ g 6 ++ g 5 ++ g 4 ++ g 3 ++ g 2 ++ g 1 ++ g 0

/-- Bit `b` of field `k`. -/
theorem octet_getLsbD {n : Nat} (g : Nat → BitVec n) {k b : Nat} (hk : k < 8) (hb : b < n) :
    (octet g).getLsbD (n * k + b) = (g k).getLsbD b := by
  unfold octet
  obtain hk | rfl : k < 7 ∨ k = 7 := by omega
  · interval_cases k
    all_goals
      repeat rw [getLsbD_append_high (by omega)]
      rw [getLsbD_append_low (by omega)]
      exact congrArg _ (by omega)
  · repeat rw [getLsbD_append_high (by omega)]
    exact congrArg _ (by omega)

/-- The low `m` bits of field `k`. -/
theorem octet_extractLsb' {n m : Nat} (g : Nat → BitVec n) {k : Nat} (hk : k < 8) (hm : m ≤ n) :
    (octet g).extractLsb' (n * k) m = (g k).extractLsb' 0 m := by
  refine BitVec.eq_of_getLsbD_eq fun b hb => ?_
  simp only [BitVec.getLsbD_extractLsb', octet_getLsbD g hk (Nat.lt_of_lt_of_le hb hm), Nat.zero_add]

/-! ### REGISTRY, INSTSTATE, TIMER, BCOUNT -/

theorem registryWord_eq (s : State) :
    registryWord s = octet (fun k => s.regOrder.getD k 0) ++ 0#4 ++ BitVec.ofNat 4 s.regOrder.length := rfl

/-- Bit `i` of a row of flags is the flag of instance `i`, 0 where it does not exist (R46). -/
theorem perInstance_getLsbD (s : State) (f : InstId → Bool) (i : InstId) :
    (perInstance s f).getLsbD i.toNat = (decide (i.toNat < s.params.ninst) && f i) := by
  have h := octet_getLsbD (fun k => BitVec.ofBool (s.exists' (BitVec.ofNat 3 k) && f (BitVec.ofNat 3 k))) i.isLt
    Nat.one_pos
  rw [Nat.one_mul] at h
  refine h.trans ?_
  simp [State.exists']

/-- The nibble of an instance in BCOUNT (R48). -/
def bcountNibble (s : State) (i : InstId) : BitVec 4 := if s.exists' i then 0#1 ++ (s.inst i).bc else 0

theorem bcountWord_eq (s : State) : bcountWord s = octet (fun k => bcountNibble s (BitVec.ofNat 3 k)) := rfl

/-- Below its top bit, which is 0, a nibble holds BC, or 0 where the instance does not exist (R48). -/
theorem bcountNibble_fields (s : State) (i : InstId) :
    (bcountNibble s i).extractLsb' 0 3 = (if i.toNat < s.params.ninst then (s.inst i).bc else 0) ∧
      (bcountNibble s i).getLsbD 3 = false := by
  unfold bcountNibble
  by_cases h : i.toNat < s.params.ninst
  · rw [if_pos (by simpa [State.exists'] using h), if_pos h]
    exact ⟨BitVec.extractLsb'_append_eq_right, getLsbD_append_high (by decide)⟩
  · rw [if_neg (by simpa [State.exists'] using h), if_neg h]
    exact ⟨rfl, rfl⟩

/-- The fields of REGISTRY (R45). -/
theorem registryWord_fields (s : State) (h : s.regOrder.length ≤ 8) :
    ((registryWord s).extractLsb' 0 4).toNat = s.regOrder.length ∧ (registryWord s).extractLsb' 4 4 = 0 ∧
      ∀ k : Nat, k < 8 → (registryWord s).extractLsb' (3 * k + 8) 3 = s.regOrder.getD k 0 := by
  rw [registryWord_eq]
  refine ⟨?_, ?_, fun k hk => ?_⟩
  · rw [BitVec.extractLsb'_append_eq_right, BitVec.toNat_ofNat, Nat.mod_eq_of_lt (by omega)]
  · rw [BitVec.extractLsb'_append_eq_of_le (by decide), BitVec.extractLsb'_append_eq_right]
    rfl
  · rw [BitVec.extractLsb'_append_eq_of_le (by omega), BitVec.extractLsb'_append_eq_of_le (by omega),
      show 3 * k + 8 - 4 - 4 = 3 * k by omega, octet_extractLsb' _ hk (by decide), BitVec.extractLsb'_eq_self]

/-- The three flags of an instance in INSTSTATE (R46). -/
theorem instStateWord_flags (s : State) (i : InstId) :
    (instStateWord s).getLsbD i.toNat = (decide (i.toNat < s.params.ninst) && (s.inst i).cons) ∧
      (instStateWord s).getLsbD (8 + i.toNat) =
        (decide (i.toNat < s.params.ninst) && decide (i ∈ s.regOrder)) ∧
      (instStateWord s).getLsbD (16 + i.toNat) = (decide (i.toNat < s.params.ninst) && (s.inst i).mute) := by
  have hi : i.toNat < 8 := i.isLt
  unfold instStateWord
  refine ⟨?_, ?_, ?_⟩
  · rw [getLsbD_append_low hi, perInstance_getLsbD]
  · rw [getLsbD_append_high (by omega), getLsbD_append_low (by omega), Nat.add_sub_cancel_left, perInstance_getLsbD]
  · rw [getLsbD_append_high (by omega), getLsbD_append_high (by omega), getLsbD_append_low (by omega),
      show 16 + i.toNat - 8 - 8 = i.toNat by omega, perInstance_getLsbD]

/-- The fields of an instance in BCOUNT (R48). -/
theorem bcountWord_fields (s : State) (i : InstId) :
    (bcountWord s).extractLsb' (4 * i.toNat) 3 = (if i.toNat < s.params.ninst then (s.inst i).bc else 0) ∧
      (bcountWord s).getLsbD (4 * i.toNat + 3) = false := by
  obtain ⟨hlow, htop⟩ := bcountNibble_fields s i
  rw [bcountWord_eq]
  refine ⟨(octet_extractLsb' _ i.isLt (by decide)).trans ?_, (octet_getLsbD _ i.isLt (by decide)).trans ?_⟩
  · rw [BitVec.ofNat_toNat, BitVec.setWidth_eq, hlow]
  · rw [BitVec.ofNat_toNat, BitVec.setWidth_eq, htop]

/-- Settles O55: each register is read field by field. -/
theorem registerLayouts : Obligations.RegisterLayouts := by
  unfold Obligations.RegisterLayouts
  intro s h
  refine ⟨registryWord_fields s h, instStateWord_flags s, ?_, ⟨?_, ?_⟩, bcountWord_fields s⟩
  · unfold instStateWord
    rw [BitVec.extractLsb'_append_eq_of_le (by decide), BitVec.extractLsb'_append_eq_of_le (by decide),
      BitVec.extractLsb'_append_eq_left]
    rfl
  · exact BitVec.extractLsb'_append_eq_right
  · exact BitVec.extractLsb'_append_eq_left

/-! ### STATUS -/

/-- `SEQ_ACT` says that SEQ is not IDLE (R44). -/
theorem seqAct_eq (s : State) : seqAct s = decide (s.seq ≠ .idle) := by
  unfold seqAct
  cases s.seq <;> rfl

/-- Settles O54: each bit or field of STATUS is reached by dropping the fields below it. -/
theorem statusLayout : Obligations.StatusLayout := by
  unfold Obligations.StatusLayout
  intro s
  unfold statusWord
  refine ⟨?busy, ?seqAct, ?roundActive, ?roundPending, ?tmrAttached, ?zero5, ?rc, ?zero12, ?overrun, ?tickLost,
    ?zero18⟩
  case busy => exact getLsbD_append_flag _
  case seqAct =>
    rw [getLsbD_append_high (by decide), ← seqAct_eq]
    exact getLsbD_append_flag _
  case roundActive | roundPending | tmrAttached | overrun | tickLost =>
    repeat rw [getLsbD_append_high (by decide)]
    exact getLsbD_append_flag _
  case rc =>
    repeat rw [BitVec.extractLsb'_append_eq_of_le (by decide)]
    rw [BitVec.extractLsb'_append_eq_right]
    cases s.rc <;> rfl
  case zero5 | zero12 =>
    repeat rw [BitVec.extractLsb'_append_eq_of_le (by decide)]
    exact BitVec.extractLsb'_append_eq_right
  case zero18 =>
    repeat rw [BitVec.extractLsb'_append_eq_of_le (by decide)]
    rfl

/-! ### Reset values -/

/-- Every byte of a cache of zeros is 0, the boards beyond it included. -/
@[simp] theorem bankGet_zero (b : Nat) : bankGet Bank.zero b = 0 := by
  have h : Bank.zero = Vector.replicate 4 0 := rfl
  simp [bankGet, h]

/-- Settles O56: every instance is `Instance.reset`, and the rest is read off `State.resetWith`. -/
theorem resetValues : Obligations.ResetValues := by
  unfold Obligations.ResetValues
  intro p
  refine ⟨rfl, rfl, rfl, rfl, rfl, rfl, rfl, rfl, rfl, fun i => ?_, rfl, rfl, rfl, rfl, rfl, rfl, rfl, rfl, rfl⟩
  rw [resetWith_inst]
  exact ⟨rfl, rfl, rfl, rfl, rfl, rfl, rfl, rfl, rfl, fun b => ⟨bankGet_zero b, bankGet_zero b, bankGet_zero b⟩⟩

end Sys2Proof.Machine
end

section
/-! The register port and JOB (spec/20_memory.md): what a read returns (R52, R53, R55, R58), what a write other than to
CMD does (R52, R54, R55), and that nothing but a reset or an acceptance writes JOB (R67). -/

namespace Sys2Proof.Machine

/-! ### The listed step -/

/-- A step listed by the schedule is the next one (R10). -/
theorem step_of_script {s : State} {a : Action} {rest : List Action} (h : s.script = a :: rest) :
    step s = act a { s with script := rest } := by
  simp only [step, nextAction, dropAction, h]

/-! ### Reads -/

/-- The two bits below a word index are ignored (R58). -/
theorem slotOf_append (a : BitVec 4) (k : BitVec 2) : slotOf (a ++ k) = a :=
  BitVec.extractLsb'_append_eq_left

/-- No register shows the schedule. -/
theorem regValue_withScript (a : BitVec 4) (s : State) (rest : List Action) :
    regValue a { s with script := rest } = regValue a s := rfl

/-- A reserved slot reads 0 (R55). -/
theorem regValue_reserved {a : BitVec 4} (h : 0x9 ≤ a) (s : State) : regValue a s = 0 := by
  have h9 : 9 ≤ a.toNat := h
  unfold regValue
  split
  case h_10 => rfl
  all_goals omega

/-- Settles O52: the value read is `regValue`, which is each slot's register. -/
theorem readRule : Obligations.ReadRule := by
  unfold Obligations.ReadRule
  refine ⟨slotOf_append, fun s rest a h => ⟨regValue a s, ?_, ?_⟩⟩
  · rw [step_of_script h, ← regValue_withScript a s rest]
    rfl
  · refine ⟨?_, ?_, ?_, ?_, ?_, ?_, ?_, ?_, ?_, fun ha => regValue_reserved ha s⟩
    all_goals
      rintro rfl
      rfl

/-! ### Writes -/

/-- A write to STATUS clears the sticky flags whose bit is 1 (R54). -/
theorem writeStatus_eq (v : Word) (s : State) :
    writeStatus v s =
      { s with
        overrun := if v.getLsbD 16 then false else s.overrun
        tickLost := if v.getLsbD 17 then false else s.tickLost } := by
  unfold writeStatus
  cases v.getLsbD 16 <;> cases v.getLsbD 17 <;> simp

/-- A read-only or reserved slot ignores a write (R54, R55). -/
theorem writePort_ignored {a : BitVec 4} (h : 0x3 ≤ a) (v : Word) (s : State) : writePort a v s = .next s := by
  have h3 : 3 ≤ a.toNat := h
  unfold writePort
  split
  case h_4 => rfl
  all_goals omega

/-- Settles O53: the write at each slot but that of CMD. -/
theorem writeRule : Obligations.WriteRule := by
  unfold Obligations.WriteRule
  intro s rest a v h
  rw [step_of_script h]
  refine ⟨?data, ?status, fun ha => writePort_ignored ha v _⟩
  case data =>
    rintro rfl
    rfl
  case status =>
    rintro rfl
    exact congrArg Host.Outcome.next (writeStatus_eq v _)

/-! ### JOB -/

/-- JOB holds the same command word and the same DATA value. -/
def SameJob (s t : State) : Prop := t.jobWord = s.jobWord ∧ t.jobData = s.jobData

/-- A tick does not write JOB (R178). -/
theorem tbStep_sameJob (s : State) : SameJob s (tbStep s) := by
  unfold tbStep periodicTick
  split
  · split
    · split <;> exact ⟨rfl, rfl⟩
    · exact ⟨rfl, rfl⟩
  · exact ⟨rfl, rfl⟩

/-- A turn step of a round does not write JOB (R182). -/
theorem turnStep_sameJob (s : State) : SameJob s (turnStep s) := by
  unfold turnStep
  split
  · exact ⟨rfl, rfl⟩
  · split <;> exact ⟨rfl, rfl⟩

/-- The effect of a class R command does not write JOB (R148, R149, R161). -/
theorem effectOf_sameJob (c : Instr) (s : State) : SameJob s (effectOf c s) := by
  cases c
  case mdestroy i =>
    simp only [effectOf, destroyInst, clearInst, deregister_eq]
    split <;> exact ⟨rfl, rfl⟩
  all_goals exact ⟨rfl, rfl⟩

/-- What a class S command writes at its finish is not JOB (R177). -/
theorem finishOf_sameJob (c : Instr) (s : State) : SameJob s (finishOf c s) := by
  cases c <;> exact ⟨rfl, rfl⟩

/-- A step of a line program does not write JOB. -/
theorem LineStep.sameJob {i : InstId} {roles : List Role} {s t : State} (h : LineStep i roles s t) : SameJob s t :=
  ⟨h.frame.jobWord, h.frame.jobData⟩

/-- A line step or commit of a host job does not write JOB (R176). -/
theorem runOf_sameJob {c : Instr} {p q : Pos} {s t : State} (h : runOf c p s = some (t, q)) : SameJob s t := by
  obtain ⟨i, -, hk⟩ := run_kind h
  cases hk with
  | reset _ _ _ hl => exact hl.sameJob
  | write _ _ _ hl => exact hl.sameJob
  | read _ _ _ hl => exact hl.sameJob
  | analog _ _ _ hl => exact hl.sameJob
  | init n _ _ _ ht =>
    subst ht
    exact ⟨rfl, rfl⟩
  | commit _ bytes _ _ => exact ⟨rfl, rfl⟩

/-- A step of the refresh in a round does not write JOB (R182). -/
theorem refreshStep_sameJob (j : InstId) (p : RefreshPos) (s : State) : SameJob s (refreshStep j p s).state :=
  ⟨(refreshStep_frame j p s).jobWord, (refreshStep_frame j p s).jobData⟩

/-- While BUSY = 1 no kind of step but a reset writes JOB: a command is accepted only while BUSY = 0 (R67, R172). -/
theorem StepKind.sameJob {s u t : State} (hk : StepKind s u t) (hb : s.busy = true) (hr : nextAction s ≠ .reset) :
    SameJob u t := by
  cases hk with
  | reset ha => exact absurd ha hr
  | reserved _ _ _ hidle | cache _ _ _ hidle | issue _ _ _ hidle => simp [hb] at hidle
  | grantRegistry c => exact effectOf_sameJob c { u with lastGrant := .host }
  | program _ _ _ _ _ _ _ _ _ _ _ hrun =>
    have h := runOf_sameJob hrun
    exact h
  | finish c => exact finishOf_sameJob c u
  | turn => exact turnStep_sameJob u
  | refresh j p _ _ _ _ _ hstep =>
    have h := refreshStep_sameJob j p u
    rwa [hstep] at h
  | commit j p _ _ _ _ hstep =>
    have h := refreshStep_sameJob j p u
    rwa [hstep] at h
  | tb => exact tbStep_sameJob u
  | _ => exact ⟨rfl, rfl⟩

/-- Settles O9: no kind of step but a reset writes JOB while BUSY = 1. -/
theorem jobCaptured : Obligations.JobCaptured := by
  unfold Obligations.JobCaptured
  intro s t h hb hr
  obtain ⟨hw, hd⟩ := (step_kind h).sameJob hb hr
  exact ⟨hw.trans (dropAction_jobWord s), hd.trans (dropAction_jobData s)⟩

end Sys2Proof.Machine
end

section
/-! The decoder and the encoder (spec/30_encoding.md): the commands a word decodes to, said once as the opcode and the
operand fields of the word (`decode_eq_ok_iff`); each is the other's inverse on the bits a row uses (R70, R71, R77);
which opcodes are no command (R75, R76), and what the machine does with one (R173). -/

namespace Sys2Proof

/-! ### The command in a word -/

/-- The command of the row of `c`, with its operands read from the fields of `w` (R70). -/
def Instr.reread (w : Word) : Instr → Instr
  | .nop => .nop
  | .treset _ _ => .treset (fieldInst w) (fieldImm w)
  | .twrite _ _ => .twrite (fieldInst w) (fieldBoard w)
  | .twrzero _ => .twrzero (fieldInst w)
  | .tread _ _ => .tread (fieldInst w) (fieldBoard w)
  | .tanalog _ _ _ => .tanalog (fieldInst w) (fieldVal w) (fieldImm w)
  | .tanalog8 _ _ => .tanalog8 (fieldInst w) (fieldVal w)
  | .mcons _ _ => .mcons (fieldInst w) (fieldBoard w)
  | .mdestroy _ => .mdestroy (fieldInst w)
  | .msetcnt _ _ => .msetcnt (fieldInst w) (fieldBoard w)
  | .mreg _ _ => .mreg (fieldInst w) (fieldImm w)
  | .mmute _ _ => .mmute (fieldInst w) (fieldVal w)
  | .setob _ _ _ _ => .setob (fieldInst w) (fieldBoard w) (fieldChan w) (fieldVal w)
  | .setom _ _ _ _ => .setom (fieldInst w) (fieldBoard w) (fieldSet w) (fieldRst w)
  | .getob _ _ _ => .getob (fieldInst w) (fieldBoard w) (fieldChan w)
  | .getom _ _ => .getom (fieldInst w) (fieldBoard w)
  | .getib _ _ _ => .getib (fieldInst w) (fieldBoard w) (fieldChan w)
  | .getpib _ _ _ => .getpib (fieldInst w) (fieldBoard w) (fieldChan w)
  | .getim _ _ => .getim (fieldInst w) (fieldBoard w)
  | .getpim _ _ => .getpim (fieldInst w) (fieldBoard w)
  | .refo _ => .refo (fieldInst w)
  | .refi _ => .refi (fieldInst w)
  | .ref _ => .ref (fieldInst w)

/-- `OP` alone picks the row (R75). -/
theorem decode_of_opcode {w : Word} {c : Instr} (h : fieldOp w = c.opcode) : decode w = .ok (c.reread w) := by
  unfold decode
  rw [h]
  cases c <;> rfl

/-- A word decodes to the command whose opcode is in `OP` and whose operands are in its fields (R70, R75). -/
theorem decode_eq_ok_iff {w : Word} {c : Instr} : decode w = .ok c ↔ fieldOp w = c.opcode ∧ c.reread w = c := by
  refine ⟨fun h => ?_, fun ⟨hop, hc⟩ => hc ▸ decode_of_opcode hop⟩
  unfold decode at h
  split at h
  case h_24 => cases h
  all_goals
    cases h
    exact ⟨BitVec.eq_of_toNat_eq ‹_›, rfl⟩

/-! ### Decoding an encoded command -/

/-- The word of a command has its opcode in `OP` (R70). -/
theorem fieldOp_encode (c : Instr) : fieldOp (encode c) = c.opcode := by
  cases c <;> exact fieldOp_cmd32 ..

/-- The word of a command has each operand in its field, `SET` and `RST` sharing the place of `IMM16` (R70, R71). -/
theorem reread_encode (c : Instr) : c.reread (encode c) = c := by
  cases c
  case setom i b st rs =>
    simp only [Instr.reread, encode, fieldInst_cmd32, fieldBoard_cmd32, fieldSet_eq, fieldRst_eq, fieldImm_cmd32,
      BitVec.extractLsb'_append_eq_right, BitVec.extractLsb'_append_eq_left]
  all_goals
    simp only [Instr.reread, encode, fieldInst_cmd32, fieldBoard_cmd32, fieldChan_cmd32, fieldVal_cmd32, fieldImm_cmd32]

/-- Settles O1: the encoder puts the opcode and every operand where the decoder reads them. -/
theorem decodeEncode : Obligations.DecodeEncode := by
  unfold Obligations.DecodeEncode
  exact fun c => decode_eq_ok_iff.mpr ⟨fieldOp_encode c, reread_encode c⟩

/-! ### Encoding a decoded word -/

/-- `RST` and `SET` are the two bytes of `IMM16`. -/
theorem fieldRst_append_fieldSet (w : Word) : fieldRst w ++ fieldSet w = fieldImm w :=
  BitVec.extractLsb'_append_extractLsb'_eq_extractLsb' rfl

/-- The word with ones in `OP` and in the chosen fields, and 0 in the others (R70). -/
def fieldMask (imm val chan board inst : Bool) : Word :=
  cmd32 (bif imm then .allOnes 16 else 0) val (bif chan then .allOnes 4 else 0) (bif board then .allOnes 3 else 0)
    (bif inst then .allOnes 3 else 0) (.allOnes 5)

/-- An operand kept or dropped as a whole. -/
theorem and_fill {n : Nat} (x : BitVec n) (keep : Bool) :
    x &&& (bif keep then .allOnes n else 0) = bif keep then x else 0 := by
  cases keep
  · exact BitVec.and_zero
  · exact BitVec.and_allOnes

/-- Masking a word is masking each of its fields. -/
theorem and_cmd32 (w : Word) (imm : BitVec 16) (v : Bool) (ch : BitVec 4) (b i : BitVec 3) (op : BitVec 5) :
    w &&& cmd32 imm v ch b i op =
      cmd32 (fieldImm w &&& imm) (v && fieldVal w) (fieldChan w &&& ch) (fieldBoard w &&& b) (fieldInst w &&& i)
        (fieldOp w &&& op) := by
  refine BitVec.eq_of_getLsbD_eq fun k _ => ?_
  conv_lhs => rw [← cmd32_fields w]
  simp only [BitVec.getLsbD_and, cmd32_getLsbD, Bool.and_comm v]
  split_ifs <;> rfl

/-- A word masked by fields is assembled from `OP` and the chosen fields. -/
theorem and_fieldMask (w : Word) (imm val chan board inst : Bool) :
    w &&& fieldMask imm val chan board inst =
      cmd32 (bif imm then fieldImm w else 0) (val && fieldVal w) (bif chan then fieldChan w else 0)
        (bif board then fieldBoard w else 0) (bif inst then fieldInst w else 0) (fieldOp w) := by
  simp only [fieldMask, and_cmd32, and_fill, BitVec.and_allOnes]

/-- The command read from a word is encoded in the bits of the word that its row uses (R70, R77): the rows, by the
operand fields they have. -/
theorem encode_reread {w : Word} {c : Instr} (h : fieldOp w = c.opcode) :
    encode (c.reread w) = w &&& usedMask c := by
  have hmask := and_fieldMask w
  rw [h] at hmask
  cases c with
  | nop => exact (hmask false false false false false).symm
  | twrzero | mdestroy | refo | refi | ref => exact (hmask false false false false true).symm
  | twrite | tread | mcons | msetcnt | getom | getim | getpim => exact (hmask false false false true true).symm
  | getob | getib | getpib => exact (hmask false false true true true).symm
  | setob => exact (hmask false true true true true).symm
  | tanalog8 | mmute => exact (hmask false true false false true).symm
  | tanalog => exact (hmask true true false false true).symm
  | treset | mreg => exact (hmask true false false false true).symm
  | setom =>
    simp only [Instr.reread, encode, fieldRst_append_fieldSet]
    exact (hmask true false false true true).symm

/-- Settles O2: the command of a word is its row's command with the operands read from the word. -/
theorem encodeDecode : Obligations.EncodeDecode := by
  unfold Obligations.EncodeDecode
  intro w c h
  obtain ⟨hop, hc⟩ := decode_eq_ok_iff.mp h
  calc encode c = encode (c.reread w) := congrArg encode hc.symm
    _ = w &&& usedMask c := encode_reread hop

/-! ### Reserved opcodes -/

/-- The opcodes that stand for no command (R76). -/
def reservedOpcodes : List (BitVec 5) := [0x07, 0x0D, 0x0E, 0x0F, 0x1B, 0x1C, 0x1D, 0x1E, 0x1F]

/-- No command has a reserved opcode (R75, R76). -/
theorem opcode_not_reserved (c : Instr) : c.opcode ∉ reservedOpcodes := by
  unfold reservedOpcodes
  cases c <;> simp [Instr.opcode]

/-- The decoder refuses a word for its opcode alone, and only a reserved one (R75, R76). -/
theorem decode_error {w : Word} {e : DecodeError} (h : decode w = .error e) :
    e = .reservedOpcode (fieldOp w) ∧ fieldOp w ∈ reservedOpcodes := by
  unfold decode at h
  split at h
  case h_24 =>
    -- `OP` is none of the opcodes of the rows, which the earlier alternatives took
    refine ⟨(Except.error.inj h).symm, ?_⟩
    have hlt : (fieldOp w).toNat < 32 := (fieldOp w).isLt
    simp only [imp_false] at *
    simp only [reservedOpcodes, List.mem_cons, List.not_mem_nil, or_false, ← BitVec.toNat_inj, BitVec.reduceToNat]
    omega
  all_goals cases h

/-- A reserved opcode is no command (R76). -/
theorem decode_reserved {w : Word} (h : fieldOp w ∈ reservedOpcodes) :
    decode w = .error (.reservedOpcode (fieldOp w)) := by
  match hd : decode w with
  | .ok c => exact absurd ((decode_eq_ok_iff.mp hd).1 ▸ h) (opcode_not_reserved c)
  | .error e => rw [(decode_error hd).1]

/-- Settles O4: no command has a reserved opcode, and the decoder refuses no other. -/
theorem opcodeMap : Obligations.OpcodeMap := by
  unfold Obligations.OpcodeMap
  refine fun w => ⟨decode_reserved, fun h => ?_⟩
  match hd : decode w with
  | .ok c => exact ⟨c, rfl, (decode_eq_ok_iff.mp hd).1.symm⟩
  | .error e => exact absurd (decode_error hd).2 h

end Sys2Proof

namespace Sys2Proof.Machine

/-- Settles O7: no command is decoded, so the write of CMD ends in the rejection. -/
theorem reservedRejected : Obligations.ReservedRejected := by
  unfold Obligations.ReservedRejected
  intro s w rest hscript hbusy hop
  rw [step_of_script hscript]
  simp only [act, writePort, writeCmd, hbusy, decode_reserved hop]
  rfl

end Sys2Proof.Machine
end

section
/-! The transport commands step by step (spec/40_transport.md): the line primitives (R92, R94), the phase hold (R93,
R176), and the rule of each command (R96 to R105). What a command shares with others comes from `issues_of`,
`grantedAt_of`, `finishesWith_of` and the `runs…_of` lemmas; here stand its own timeout, bytes and result. -/

namespace Sys2Proof.Machine

/-! ### Line primitives -/

/-- The levels of a port after one line is set (R31). -/
theorem lines_get_set (l : Lines) (r r' : Role) (v : Bool) : (l.set r v).get r' = if r' = r then v else l.get r' := by
  cases r <;> cases r' <;> rfl

/-- A sample uses up the first listed answer (R94). -/
theorem sample_of_draws {s : State} {d : Bool} {ds : List Bool} (h : s.draws = d :: ds) (i : InstId) :
    nextBit s = d ∧ sample i s = { s with draws := ds, trace := .sample i d s.time :: s.trace } := by
  simp [nextBit, sample, record, dropBit, h]

/-- A sample with no answer listed takes a free value (R94). -/
theorem sample_of_noDraws {s : State} (h : s.draws = []) (i : InstId) :
    sample i s = { s with freeIdx := s.freeIdx + 1, trace := .sample i (nextBit s) s.time :: s.trace } := by
  simp [sample, record, dropBit, h]

/-- Settles O22: a drive replaces the lines of its port by `Lines.set`, a sample uses up one answer. -/
theorem linePrimitives : Obligations.LinePrimitives := by
  unfold Obligations.LinePrimitives
  refine ⟨fun i r v s => ⟨?_, fun r' => ?_⟩,
    fun i s => ⟨fun d ds h => sample_of_draws h i, fun h => sample_of_noDraws h i⟩⟩
  · rw [drive_lines]
    rfl
  · rw [drive_lines, lines_get_set]

/-! ### The phase hold -/

/-- The positions to which the phase hold does not apply (R176). -/
theorem Pos.isLine_eq_false_iff (p : Pos) :
    p.isLine = false ↔ (∃ rc r, p = .finish rc r) ∨ (∃ ok bytes, p = .refresh ok (.commit bytes)) := by
  cases p
  case refresh ok q => cases q <;> simp [Pos.isLine, RefreshPos.isLine]
  all_goals simp [Pos.isLine]

/-- The phase hold is not met before PHASE_MIN_US ticks have passed (R93). -/
theorem phaseMet_of_lt {s : State} (h : (s.time - s.seqLastT).toNat < s.params.phaseMinUs) : phaseMet s = false :=
  decide_eq_false (by omega)

/-- A line step of a host job is not taken before the phase hold is met (R93). -/
theorem exec_held {c : Instr} (hc : cmdClass c = .sequenced) {s : State} {p : Pos} (hb : s.busy = true)
    (hs : s.seq = .hostRun p) (hp : p.isLine = true) (hm : phaseMet s = false) : exec c s = .next s := by
  have hne : ∀ rc r, p ≠ .finish rc r := by
    rintro rc r rfl
    cases hp
  rw [exec_sequenced c hc, sequencedCommand_run _ _ _ _ hb hs hne, programStep, if_pos (by simp [hp, hm])]

/-- The commit of the commands that have one (R145 to R147): it leads to their finish. -/
theorem exec_commit {c : Instr} {i : InstId} (hc : c = .refi i ∨ c = .ref i ∨ ∃ n, c = .mcons i n) {s : State}
    {ok : Bool} {bytes : List Byte} (hb : s.busy = true) (hs : s.seq = .hostRun (.refresh ok (.commit bytes))) :
    ∃ rc r, exec c s = .next { s.setInst i (withCommit (s.inst i) bytes) with seq := .hostRun (.finish rc r) } := by
  obtain rfl | rfl | ⟨n, rfl⟩ := hc
  all_goals exact ⟨_, _, runsCommit_of rfl (fun _ _ => rfl) s bytes hb hs⟩

/-- The grant of a class R command finishes it (R176). -/
theorem exec_grantRegistry {c : Instr} (hc : cmdClass c = .registry) {s : State} (hb : s.busy = true)
    (hs : s.seq = .idle) : exec c s = .next (finish .ok none (effectOf c { s with lastGrant := .host })) := by
  simp [exec_registry c hc, registryCommand, hb, hs]

/-- A line step of a round is not taken before the phase hold is met (R93, R176). -/
theorem seqStep_round_held {s : State} {p : RefreshPos} (hs : s.seq = .round (some p)) (hp : p.isLine = true)
    (hm : phaseMet s = false) : seqStep s = .next s := by
  have hstep : roundLineStep p s = s := by
    unfold roundLineStep
    split
    · rw [roundRefreshStep, if_pos (by simp [hp, hm])]
    · rfl
  simp [seqStep, hs, hstep]

/-- The commit of a round's turn (R182) asks for no phase hold. -/
theorem seqStep_round_commit {s : State} {j : InstId} {bytes : List Byte} (hs : s.seq = .round (some (.commit bytes)))
    (hj : s.regOrder[s.roundPos]? = some j) :
    seqStep s = .next { s.setInst j (withCommit (s.inst j) bytes) with
      roundPos := s.roundPos + 1, seq := .round none } := by
  simp [seqStep, hs, roundLineStep, hj, roundRefreshStep, RefreshPos.isLine, refreshStep, commitInputs]

/-- The arbiter grants a waiting round unless a host job waits and a round went last (R181). -/
theorem seqStep_grantRound {s : State} (hs : s.seq = .idle) (hp : s.roundPending = true)
    (ha : s.busy = false ∨ s.lastGrant = .host) : seqStep s = .next (grantRound s) := by
  have hpick : pick s = some .round := by
    rw [pick, if_pos]
    obtain hb | hg := ha
    · simp [hp, hb]
    · simp [hp, hg]
  simp [seqStep, hs, hpick]

/-- A turn step ends the round, skips a muted instance or begins its refresh (R182). -/
theorem turnStep_cases (s : State) :
    (turnStep s).seq = .idle ∨ (turnStep s).roundPos = s.roundPos + 1 ∨
      (turnStep s).seq = .round (some (.out .ldLo)) := by
  unfold turnStep
  split
  · exact .inl rfl
  · split
    · exact .inr (.inl rfl)
    · exact .inr (.inr rfl)

/-- Settles O23: `programStep` and `roundRefreshStep` test the hold, at line steps alone. -/
theorem phaseHold : Obligations.PhaseHold := by
  unfold Obligations.PhaseHold
  refine ⟨Pos.isLine_eq_false_iff, fun s hlt => ?_⟩
  have hm := phaseMet_of_lt hlt
  refine ⟨fun hb c hc => ⟨?held, ?finish, ?commit, ?grant⟩, ?registry,
    fun rest hscript => ⟨?roundHeld, ?roundCommit, ?grantRound, ?turn⟩⟩
  case held => exact fun p hs hp => exec_held hc hb hs hp hm
  case finish => exact fun rc r hs => ⟨_, finishesWith_of hc s rc r hb hs, rfl, rfl, rfl, rfl⟩
  case commit => exact fun i ok bytes hs hi => exec_commit hi hb hs
  case grant => exact fun hs => ⟨_, grantedAt_of hc s hb hs⟩
  case registry => exact fun hb c hc hs => ⟨_, exec_grantRegistry hc hb hs, rfl, rfl, rfl⟩
  all_goals rw [step_of_script hscript, act]
  case roundHeld =>
    intro p hs hp
    have hline : p.isLine = true := by
      cases p with
      | commit bytes => exact absurd rfl (hp bytes)
      | _ => rfl
    exact seqStep_round_held hs hline hm
  case roundCommit => exact fun j bytes hs hj => seqStep_round_commit hs hj
  case grantRound => exact fun hs hp ha => ⟨_, seqStep_grantRound hs hp ha, rfl, rfl⟩
  case turn =>
    intro hs
    exact ⟨turnStep { s with script := rest }, by simp [seqStep, hs], turnStep_cases { s with script := rest }⟩

/-! ### The rules of the commands -/

/-- IMM16 as a timeout: 0 stands for the default (R72). -/
theorem immOr_setWidth (d imm : BitVec 16) :
    (immOr d imm).setWidth 32 = if imm = 0 then d.setWidth 32 else imm.setWidth 32 := by
  unfold immOr
  split <;> rfl

/-- The timeout of TRESET (R97). -/
theorem resetTimeout_eq (imm : BitVec 16) : resetTimeout imm = if imm = 0 then 5000 else imm.setWidth 32 :=
  immOr_setWidth _ imm

/-- The timeout of TANALOG (R104). -/
theorem analogTimeout_eq (imm : BitVec 16) : analogTimeout imm = if imm = 0 then 3000 else imm.setWidth 32 :=
  immOr_setWidth _ imm

/-- The finish that a poll's outcome leads to (R97, R147). -/
theorem finish_of_poll (ok : Bool) :
    Pos.finish (pollCode ok) (some (bitWord ok)) =
      .finish (if ok then .ok else .timeout) (some (if ok then 1 else 0)) := by
  cases ok <;> rfl

/-- A legal COUNT of TWRITE and TREAD (R73). -/
theorem transferCountLegal_iff (n : BitVec 3) : transferCountLegal n = true ↔ 1 ≤ n.toNat ∧ n.toNat ≤ 4 := by
  rw [transferCountLegal, Bool.and_eq_true, decide_eq_true_iff, decide_eq_true_iff, maxBoards]

/-- The RESET of TRESET (R96, R97). -/
theorem treset_runsReset (i : InstId) (imm : BitVec 16) :
    RunsReset (.treset i imm) i (resetTimeout imm) id (fun ok => .finish (pollCode ok) (some (bitWord ok))) :=
  runsReset_of rfl (fun _ _ _ => rfl) (fun _ => rfl)

/-- The ANALOG of TANALOG (R100, R104). -/
theorem tanalog_runsAnalog (i : InstId) (a : Bool) (imm : BitVec 16) :
    RunsAnalog (.tanalog i a imm) i (if a then .trigY else .trigX) (analogTimeout imm)
      (fun d rc => .finish rc (some d)) :=
  runsAnalog_of rfl (fun _ _ => rfl)

/-- The ANALOG of TANALOG8 (R100, R105). -/
theorem tanalog8_runsAnalog (i : InstId) (a : Bool) :
    RunsAnalog (.tanalog8 i a) i (if a then .trigY else .trigX) analog8Timeout
      (fun d rc => .finish rc (some (d / 10))) :=
  runsAnalog_of rfl (fun _ _ => rfl)

/-- The WRITEOUT of TWRITE (R98, R101). -/
theorem twrite_runsWriteOut (i : InstId) (n : BitVec 3) :
    RunsWriteOut (.twrite i n) i (fun s => boardsFarthestFirst n.toNat (fun b => s.jobData.extractLsb' (8 * b) 8))
      .write (.finish .ok none) :=
  runsWriteOut_of rfl (fun _ _ _ => by simp) (fun _ _ => rfl)

/-- The WRITEOUT of TWRZERO (R98, R102). -/
theorem twrzero_runsWriteOut (i : InstId) :
    RunsWriteOut (.twrzero i) i (fun _ => [0, 0, 0, 0]) (.zero true) (.finish .ok none) :=
  runsWriteOut_of rfl (fun _ _ _ => by simp) (fun _ _ => rfl)

/-- The READIN of TREAD (R99, R103). -/
theorem tread_runsReadIn (i : InstId) (n : BitVec 3) :
    RunsReadIn (.tread i n) i (fun _ => n.toNat) .read (fun bytes => .finish .ok (some (packLanes bytes))) :=
  runsReadIn_of rfl (fun _ _ _ => by simp) (fun _ _ => rfl)

/-- Settles O24: RESET with the timeout of IMM16, then the finish with the outcome of its poll. -/
theorem tresetRule : Obligations.TresetRule := by
  unfold Obligations.TresetRule
  refine ⟨fun w h => decode_of_opcode (c := .treset 0 0) h, fun i imm =>
    ⟨issues_of rfl (by simp [cmdClass]) (by simp [argsLegal]), grantedAt_of rfl, ?_, finishesWith_of rfl⟩⟩
  have h := treset_runsReset i imm
  simp only [resetTimeout_eq, finish_of_poll] at h
  exact h

/-- Settles O25: ANALOG with the timeout of IMM16 or 2550, then the finish with its duration or a tenth of it. -/
theorem analogRules : Obligations.AnalogRules := by
  unfold Obligations.AnalogRules
  refine ⟨fun w => ⟨fun h => decode_of_opcode (c := .tanalog 0 false 0) h,
      fun h => decode_of_opcode (c := .tanalog8 0 false) h⟩,
    fun i a imm => ⟨⟨?_, grantedAt_of rfl, ?_, finishesWith_of rfl⟩,
      ?_, grantedAt_of rfl, tanalog8_runsAnalog i a, finishesWith_of rfl⟩⟩
  · exact issues_of rfl (by simp [cmdClass]) (by simp [argsLegal])
  · rw [← analogTimeout_eq]
    exact tanalog_runsAnalog i a imm
  · exact issues_of rfl (by simp [cmdClass]) (by simp [argsLegal])

/-- Settles O26: WRITEOUT with the lanes of the captured DATA, then the finish. -/
theorem twriteRule : Obligations.TwriteRule := by
  unfold Obligations.TwriteRule
  exact ⟨fun w h => decode_of_opcode (c := .twrite 0 0) h, fun i n =>
    ⟨issues_of rfl (by simp [cmdClass]) (transferCountLegal_iff n), grantedAt_of rfl, twrite_runsWriteOut i n,
      finishesWith_of rfl⟩⟩

/-- Settles O27: WRITEOUT with four zero bytes, then the finish. -/
theorem twrzeroRule : Obligations.TwrzeroRule := by
  unfold Obligations.TwrzeroRule
  exact ⟨fun w h => decode_of_opcode (c := .twrzero 0) h, fun i =>
    ⟨issues_of rfl (by simp [cmdClass]) (by simp [argsLegal]), grantedAt_of rfl, twrzero_runsWriteOut i,
      finishesWith_of rfl⟩⟩

/-- Settles O28: READIN of COUNT bytes, then the finish with them in their lanes. -/
theorem treadRule : Obligations.TreadRule := by
  unfold Obligations.TreadRule
  exact ⟨fun w h => decode_of_opcode (c := .tread 0 0) h, fun i n =>
    ⟨issues_of rfl (by simp [cmdClass]) (transferCountLegal_iff n), grantedAt_of rfl, tread_runsReadIn i n,
      finishesWith_of rfl⟩⟩

/-! ### Bounds of the results -/

/-- A step of a class S command that leads to a finish is one of its line program. -/
theorem runOf_of_leads_to_finish {c : Instr} (hc : cmdClass c = .sequenced) {s t : State} {p : Pos} {rc : ResultCode}
    {r : Option Word} (hb : s.busy = true) (hs : s.seq = .hostRun p) (hp : ∀ rc r, p ≠ .finish rc r)
    (ht : t.seq = .hostRun (.finish rc r)) (h : exec c s = .next t) : ∃ u, runOf c p s = some (u, .finish rc r) := by
  rw [exec_sequenced c hc, sequencedCommand_run _ _ _ _ hb hs hp] at h
  cases h
  obtain ⟨u, q, -, hr, he⟩ | he := programStep_cases (runOf c) p s
  · rw [he] at ht
    cases ht
    exact ⟨u, hr⟩
  · rw [he, hs] at ht
    exact absurd (Seq.hostRun.inj ht) (hp rc r)

/-- What ANALOG returns (R100): a duration below its timeout, or the timeout. -/
theorem analogStep_done {i : InstId} {a : Bool} {T d : Word} {p : AnalogPos} {s t : State} {rc : ResultCode}
    (h : analogStep i a T p s = .done t (d, rc)) : (d < T ∧ rc = .ok) ∨ (d = T ∧ rc = .timeout) := by
  cases p <;> simp only [analogStep, reduceCtorEq] at h
  case poll t0 =>
    unfold pollOutcome at h
    by_cases hT : T ≤ elapsed t0 s
    · simp only [hT, if_true] at h
      cases h
      exact .inr ⟨rfl, rfl⟩
    · cases hb : nextBit s <;> simp only [hT, hb, if_false, if_true, Bool.false_eq_true, reduceCtorEq] at h
      cases h
      exact .inl ⟨BitVec.not_le.mp hT, rfl⟩

/-- The bounds of TRESET's result (R107). -/
theorem tresetRun_finish {i : InstId} {T d : Word} {p : Pos} {s u : State} {rc : ResultCode}
    (h : tresetRun i T p s = some (u, .finish rc (some d))) : (d = 0 ∧ rc = .timeout) ∨ (d = 1 ∧ rc = .ok) := by
  cases p <;> simp only [tresetRun, reduceCtorEq] at h
  obtain ⟨_, -, e⟩ | ⟨ok, -, e⟩ := some_within h
  · cases e
  · cases ok <;> cases e
    · exact .inl ⟨rfl, rfl⟩
    · exact .inr ⟨rfl, rfl⟩

/-- The bounds of TANALOG's result (R107). -/
theorem tanalogRun_finish {i : InstId} {a : Bool} {T d : Word} {p : Pos} {s u : State} {rc : ResultCode}
    (h : tanalogRun i a T p s = some (u, .finish rc (some d))) : (d < T ∧ rc = .ok) ∨ (d = T ∧ rc = .timeout) := by
  cases p <;> simp only [tanalogRun, reduceCtorEq] at h
  obtain ⟨_, -, e⟩ | ⟨⟨d', rc'⟩, hd, e⟩ := some_within h
  · cases e
  · cases e
    exact analogStep_done hd

/-- A tenth of a duration below TANALOG8's timeout is below 255 (R105). -/
theorem tenth_lt {d : Word} (h : d < analog8Timeout) : d / 10 < 255 := by
  have hd : d.toNat < 2550 := h
  have hdiv : (d / 10).toNat = d.toNat / 10 := BitVec.toNat_udiv
  have hlt : (d / 10).toNat < 255 := by omega
  exact hlt

/-- The bounds of TANALOG8's result (R107). -/
theorem tanalog8Run_finish {i : InstId} {a : Bool} {d : Word} {p : Pos} {s u : State} {rc : ResultCode}
    (h : tanalog8Run i a p s = some (u, .finish rc (some d))) : (d < 255 ∧ rc = .ok) ∨ (d = 255 ∧ rc = .timeout) := by
  cases p <;> simp only [tanalog8Run, reduceCtorEq] at h
  obtain ⟨_, -, e⟩ | ⟨⟨d', rc'⟩, hd, e⟩ := some_within h
  · cases e
  · cases e
    obtain ⟨hlt, hrc⟩ | ⟨rfl, hrc⟩ := analogStep_done hd
    · exact .inl ⟨tenth_lt hlt, hrc⟩
    · have hmax : analog8Timeout / 10 = 255 := by decide
      exact .inr ⟨hmax, hrc⟩

/-- Settles O32: the step to the finish is the end of RESET or ANALOG, which fixes the value and the code. -/
theorem resultBounds : Obligations.ResultBounds := by
  unfold Obligations.ResultBounds
  intro i a imm s t p rc d hb hs hp ht
  refine ⟨fun h => ?_, fun h => ?_, fun h => ?_⟩
  · obtain ⟨u, hr⟩ := runOf_of_leads_to_finish rfl hb hs hp ht h
    exact tresetRun_finish hr
  · obtain ⟨u, hr⟩ := runOf_of_leads_to_finish rfl hb hs hp ht h
    rw [← analogTimeout_eq]
    exact tanalogRun_finish hr
  · obtain ⟨u, hr⟩ := runOf_of_leads_to_finish rfl hb hs hp ht h
    exact tanalog8Run_finish hr

end Sys2Proof.Machine
end

section
/-! Whole runs of the transport commands (spec/40_transport.md R96 to R105, 70_reset_and_hazards.md R215), from the
grant to the finish with no step of another agent between. WRITEOUT and READIN are run in Laws/Runs.lean; here stand
the poll loops of RESET and ANALOG, and the grant and the finish around a line program. -/

namespace Sys2Proof.Machine

/-! ### The grant and the finish around a line program -/

/-- The last step of a run: the finish, on idle lines. -/
theorem run_finish {c : Instr} (hc : cmdClass c = .sequenced) (hf : finishOf c = id) {i : InstId} {last : Word}
    {tr : List Event} {ds : List Bool} {rc : ResultCode} {r : Option Word} {s : State} (hb : s.busy = true)
    (hl : (s.inst i).lines = Lines.idle) :
    runCommand c 1 (atLine i Lines.idle last tr ds (.hostRun (.finish rc r)) s) = .next { s with
      rc := rc, result := r.getD s.result, busy := false, seq := .idle, seqLastT := last, draws := ds
      trace := tr } := by
  have hfinish := finishesWith_of hc (atLine i Lines.idle last tr ds (.hostRun (.finish rc r)) s) rc r hb rfl
  have hinsts : s.insts.set i.toNat (s.inst i) i.isLt = s.insts := by simp [State.inst]
  rw [runCommand_one hfinish, hf, ← hl]
  simp only [atLine, hinsts, id]

/-- A run of a whole command that writes nothing of its own at its finish: the grant, `m` steps of its line program from
idle lines to idle lines, and the finish (R176, R177). -/
theorem run_whole {c : Instr} (hc : cmdClass c = .sequenced) (hf : finishOf c = id) (i : InstId) {s : State} {m : Nat}
    {last : Word} {tr : List Event} {ds : List Bool} {rc : ResultCode} {r : Option Word} (hb : s.busy = true)
    (hs : s.seq = .idle) (hl : (s.inst i).lines = Lines.idle)
    (hrun : runCommand c m (atLine i Lines.idle s.seqLastT s.trace s.draws (.hostRun (startOf c))
      { s with lastGrant := .host }) =
        .next (atLine i Lines.idle last tr ds (.hostRun (.finish rc r)) { s with lastGrant := .host })) :
    runCommand c (m + 2) s = .next { s with
      lastGrant := .host, rc := rc, result := r.getD s.result, busy := false, seqLastT := last, draws := ds
      trace := tr } := by
  calc runCommand c (m + 2) s
      = runCommand c (1 + (m + 1)) s := by rw [Nat.add_comm 1]
    _ = runCommand c (m + 1) _ := runCommand_add (m := 1) (m + 1) (run_start hc i hb hs hl)
    _ = runCommand c 1 _ := runCommand_add 1 hrun
    _ = _ := run_finish hc hf hb hl
    _ = _ := by rw [hs]

/-! ### The poll loops -/

/-- A timeout taken from IMM16 is not 0 (R72). -/
theorem immOr_pos {d : BitVec 16} (hd : d ≠ 0) (imm : BitVec 16) : (0 : Word) < (immOr d imm).setWidth 32 := by
  have hne : immOr d imm ≠ 0 := by
    unfold immOr
    split
    · exact hd
    · assumption
  have hpos : (immOr d imm).toNat ≠ 0 := fun h => hne (BitVec.eq_of_toNat_eq h)
  have hlt : 0 < ((immOr d imm).setWidth 32).toNat := by
    rw [BitVec.toNat_setWidth_of_le (by decide)]
    omega
  exact hlt

/-- No time has passed in the tick a poll counts from (R95). -/
theorem sub_self_lt {T : Word} (hT : 0 < T) (t : Word) : t - t < T := by
  rw [BitVec.sub_self]
  exact hT

/-- One poll in a run, in the tick it counts from. -/
theorem run_poll {c : Instr} {i : InstId} {p p' : Pos} {d : Bool} {last : Word} {tr : List Event} {ds : List Bool}
    {s : State} (hb : s.busy = true) (h0 : s.params.phaseMinUs = 0)
    (h : ∀ u : State, u.time = s.time → nextBit u = d → Goes c u p (sample i u) p') :
    runCommand c 1 (atLine i Lines.idle last tr (d :: ds) (.hostRun p) s) =
      .next (atLine i Lines.idle last (.sample i d s.time :: tr) ds (.hostRun p') s) := by
  have hgoes := h (atLine i Lines.idle last tr (d :: ds) (.hostRun p) s) rfl (nextBit_atLine ..)
  rw [runCommand_one (hgoes (atPos_atLine hb h0)), sample_atLine]
  rfl

/-- One drive in a run that notes the time of the tick it is made in. -/
theorem run_driveNow {c : Instr} {i : InstId} {r : Role} {v : Bool} {p p' : Pos} {l : Lines} {last : Word}
    {tr : List Event} {ds : List Bool} {s : State} (hb : s.busy = true) (h0 : s.params.phaseMinUs = 0)
    (h : ∀ u : State, u.time = s.time → Goes c u p (drive i r v u) p') :
    runCommand c 1 (atLine i l last tr ds (.hostRun p) s) =
      .next (atLine i (l.set r v) s.time (.drive i r v s.time :: tr) ds (.hostRun p') s) := by
  have hgoes := h (atLine i l last tr ds (.hostRun p) s) rfl
  rw [runCommand_one (hgoes (atPos_atLine hb h0)), drive_atLine]
  rfl

/-! ### RESET -/

/-- The events of the polls of RESET that read 0, each followed by its clock pulse (R96). -/
def clockedPolls (i : InstId) (t : Word) (k : Nat) : List Event :=
  (List.replicate k [Event.sample i false t, .drive i .clk false t, .drive i .clk true t]).flatten

/-- RESET's poll loop where the line reads 0 at `k` polls and then 1, with no tick between (R96). -/
theorem run_resetPolls {c : Instr} {i : InstId} {T : Word} {entry : State → State} {after : Bool → Pos}
    (h : RunsReset c i T entry after) (hT : 0 < T) {ds : List Bool} {s : State} (hb : s.busy = true)
    (h0 : s.params.phaseMinUs = 0) (k : Nat) : ∀ tr : List Event,
      runCommand c (3 * k + 1) (atLine i Lines.idle s.time tr (List.replicate k false ++ true :: ds)
          (.hostRun (.reset (.poll s.time))) s) =
        .next (atLine i Lines.idle s.time (.sample i true s.time :: ((clockedPolls i s.time k).reverse ++ tr)) ds
          (.hostRun (after true)) s) := by
  have hlt := sub_self_lt hT s.time
  induction k with
  | zero =>
    intro tr
    refine run_poll hb h0 fun u hu hd => ?_
    obtain ⟨-, -, -, hsettled, -⟩ := h u s.time
    exact hsettled (hu ▸ hlt) hd
  | succ k ih =>
    intro tr
    have hpoll : ∀ u : State, u.time = s.time → nextBit u = false →
        Goes c u (.reset (.poll s.time)) (sample i u) (.reset (.clkLo s.time)) := fun u hu hd => by
      obtain ⟨-, -, -, -, hgoOn, -⟩ := h u s.time
      exact hgoOn (hu ▸ hlt) hd
    rw [show 3 * (k + 1) + 1 = 1 + (1 + (1 + (3 * k + 1))) by omega]
    refine (runCommand_add (m := 1) _ (run_poll hb h0 hpoll)).trans <|
      (runCommand_add (m := 1) _ (run_drive hb h0 fun u => (h u s.time).2.2.2.2.2.1)).trans <|
      (runCommand_add (m := 1) _ (run_drive hb h0 fun u => (h u s.time).2.2.2.2.2.2)).trans <| (ih _).trans ?_
    simp [clockedPolls, List.replicate_succ]

/-- RESET from its step 1 on idle lines to its end, where the line reads 0 at `k` polls and then 1, with no tick
between: `3 k + 3` steps (R96). -/
theorem run_reset {c : Instr} {i : InstId} {T : Word} {after : Bool → Pos} (h : RunsReset c i T id after) (hT : 0 < T)
    {last : Word} {tr : List Event} {ds : List Bool} {s : State} (hb : s.busy = true) (h0 : s.params.phaseMinUs = 0)
    (k : Nat) :
    runCommand c (3 * k + 3) (atLine i Lines.idle last tr (List.replicate k false ++ true :: ds)
        (.hostRun (.reset .trigX)) s) =
      .next (atLine i Lines.idle s.time
        (([Event.drive i .trigX true s.time, .drive i .trigY true s.time] ++ clockedPolls i s.time k ++
          [Event.sample i true s.time]).reverse ++ tr) ds (.hostRun (after true)) s) := by
  have htrigY : ∀ u : State, u.time = s.time →
      Goes c u (.reset .trigY) (drive i .trigY true u) (.reset (.poll s.time)) := fun u hu => hu ▸ (h u 0).2.1
  rw [show 3 * k + 3 = 1 + (1 + (3 * k + 1)) by omega]
  refine (runCommand_add (m := 1) _ (run_drive hb h0 fun u => (h u 0).1)).trans <|
    (runCommand_add (m := 1) _ (run_driveNow hb h0 htrigY)).trans <| (run_resetPolls h hT hb h0 k _).trans ?_
  simp

/-! ### ANALOG -/

/-- ANALOG's poll loop where the line reads 0 at `k` polls and then 1, with no tick between (R100). -/
theorem run_analogPolls {c : Instr} {i : InstId} {r : Role} {T : Word} {after : Word → ResultCode → Pos}
    (h : RunsAnalog c i r T after) (hT : 0 < T) {ds : List Bool} {s : State} (hb : s.busy = true)
    (h0 : s.params.phaseMinUs = 0) (k : Nat) : ∀ tr : List Event,
      runCommand c (k + 1) (atLine i Lines.idle s.time tr (List.replicate k false ++ true :: ds)
          (.hostRun (.analog (.poll s.time))) s) =
        .next (atLine i Lines.idle s.time
          (.sample i true s.time :: (List.replicate k (Event.sample i false s.time) ++ tr)) ds
          (.hostRun (after 0 .ok)) s) := by
  have hlt := sub_self_lt hT s.time
  induction k with
  | zero =>
    intro tr
    refine run_poll hb h0 fun u hu hd => ?_
    obtain ⟨-, -, -, hsettled, -⟩ := h u s.time
    have hgoes := hsettled (hu ▸ hlt) hd
    rwa [hu, BitVec.sub_self] at hgoes
  | succ k ih =>
    intro tr
    have hpoll : ∀ u : State, u.time = s.time → nextBit u = false →
        Goes c u (.analog (.poll s.time)) (sample i u) (.analog (.poll s.time)) := fun u hu hd => by
      obtain ⟨-, -, -, -, hgoOn⟩ := h u s.time
      exact hgoOn (hu ▸ hlt) hd
    rw [Nat.add_comm (k + 1) 1]
    refine (runCommand_add (m := 1) _ (run_poll hb h0 hpoll)).trans <| (ih _).trans ?_
    rw [List.replicate_succ', List.append_assoc]
    rfl

/-- Setting a trigger line low and high again leaves the idle lines (R100). -/
theorem idle_pulse (a : Bool) :
    (Lines.idle.set (if a then .trigY else .trigX) false).set (if a then .trigY else .trigX) true = Lines.idle := by
  cases a <;> rfl

/-- ANALOG from its step 1 on idle lines to its end, where the line reads 0 at `k` polls and then 1, with no tick
between: `k + 3` steps (R100). -/
theorem run_analog {c : Instr} {i : InstId} {a : Bool} {T : Word} {after : Word → ResultCode → Pos}
    (h : RunsAnalog c i (if a then .trigY else .trigX) T after) (hT : 0 < T) {last : Word} {tr : List Event}
    {ds : List Bool} {s : State} (hb : s.busy = true) (h0 : s.params.phaseMinUs = 0) (k : Nat) :
    runCommand c (k + 3) (atLine i Lines.idle last tr (List.replicate k false ++ true :: ds)
        (.hostRun (.analog .trigLo)) s) =
      .next (atLine i Lines.idle s.time
        (([Event.drive i (if a then .trigY else .trigX) false s.time,
          .drive i (if a then .trigY else .trigX) true s.time] ++
          List.replicate k (Event.sample i false s.time) ++ [Event.sample i true s.time]).reverse ++ tr) ds
        (.hostRun (after 0 .ok)) s) := by
  have htrigHi : ∀ u : State, u.time = s.time →
      Goes c u (.analog .trigHi) (drive i (if a then .trigY else .trigX) true u) (.analog (.poll s.time)) :=
    fun u hu => hu ▸ (h u 0).2.1
  rw [show k + 3 = 1 + (1 + (k + 1)) by omega]
  refine (runCommand_add (m := 1) _ (run_drive hb h0 fun u => (h u 0).1)).trans <|
    (runCommand_add (m := 1) _ (run_driveNow hb h0 htrigHi)).trans ?_
  rw [idle_pulse, run_analogPolls h hT hb h0 k]
  simp

end Sys2Proof.Machine

namespace Sys2Proof

open Machine

/-! ### The commands, whole -/

/-- Settles O33: the grant, WRITEOUT of the lanes of the captured DATA, the finish. -/
theorem twriteRun : Obligations.TwriteRun := by
  unfold Obligations.TwriteRun
  intro i n s h1 _ hb hs h0 hl
  obtain ⟨xs, hxs, hlen⟩ : ∃ xs : List Byte,
      xs = boardsFarthestFirst n.toNat (fun b => s.jobData.extractLsb' (8 * b) 8) ∧ xs.length = n.toNat :=
    ⟨_, rfl, by simp [boardsFarthestFirst]⟩
  have hne : xs ≠ [] := List.ne_nil_of_length_pos (by omega)
  rw [← hxs, ← hlen]
  exact run_whole rfl rfl i hb hs hl <|
    run_writeOut (twrite_runsWriteOut i n) (s := { s with lastGrant := .host }) hb h0 xs hne hxs.symm

/-- Settles O34: the grant, WRITEOUT of four zero bytes, the finish. -/
theorem twrzeroRun : Obligations.TwrzeroRun := by
  unfold Obligations.TwrzeroRun
  intro i s hb hs h0 hl
  exact run_whole rfl rfl i hb hs hl <|
    run_writeOut (twrzero_runsWriteOut i) (s := { s with lastGrant := .host }) hb h0 [0, 0, 0, 0] (by simp) rfl

/-- Settles O35: the grant, READIN of the bytes the line answers with, the finish. -/
theorem treadRun : Obligations.TreadRun := by
  unfold Obligations.TreadRun
  intro i n bytes rest s h1 _ hlen hd hb hs h0 hl
  obtain ⟨x, xs, rfl⟩ := List.exists_cons_of_length_pos (l := bytes) (by omega)
  have hrun := run_readIn (tread_runsReadIn i n) (last := s.seqLastT) (tr := s.trace) (ds := rest)
    (s := { s with lastGrant := .host }) hb h0 x xs hlen.symm
  rw [← hd, show xs.length + 1 = n.toNat from hlen] at hrun
  exact run_whole rfl rfl i hb hs hl hrun

/-- Settles O37: the grant, RESET with its poll loop, the finish. -/
theorem tresetRun : Obligations.TresetRun := by
  unfold Obligations.TresetRun
  intro i imm k rest s hd hb hs h0 hl
  have hT : 0 < resetTimeout imm := immOr_pos (by decide) imm
  have hrun := run_reset (treset_runsReset i imm) hT (last := s.seqLastT) (tr := s.trace) (ds := rest)
    (s := { s with lastGrant := .host }) hb h0 k
  rw [← hd] at hrun
  exact run_whole rfl rfl i hb hs hl hrun

/-- Settles O38: the grant, ANALOG with its poll loop, the finish. -/
theorem analogRuns : Obligations.AnalogRuns := by
  unfold Obligations.AnalogRuns
  intro i a imm k rest s hd hb hs h0 hl
  have hT : 0 < analogTimeout imm := immOr_pos (by decide) imm
  have hrun := run_analog (tanalog_runsAnalog i a imm) hT (last := s.seqLastT) (tr := s.trace) (ds := rest)
    (s := { s with lastGrant := .host }) hb h0 k
  have hrun8 := run_analog (tanalog8_runsAnalog i a) (by decide) (last := s.seqLastT) (tr := s.trace) (ds := rest)
    (s := { s with lastGrant := .host }) hb h0 k
  rw [← hd] at hrun hrun8
  exact ⟨run_whole rfl rfl i hb hs hl hrun, run_whole rfl rfl i hb hs hl hrun8⟩

end Sys2Proof
end

section
/-! Frames of the transport commands and of the lines (spec/40_transport.md R90, R92, R106): which step changes a line,
said once (`exec_lines`, `StepKind.lines`); what a transport command writes; and that it reads no cache, no count and no
registry, which says that exchanging them (`swapRest`) commutes with its steps. -/

namespace Sys2Proof.Machine

/-! ### Updates that change no line -/

/-- Replacing an instance by one with the same lines changes no line. -/
theorem setInst_lines {s : State} {i : InstId} {x : Instance} (hx : x.lines = (s.inst i).lines) (j : InstId) :
    ((s.setInst i x).inst j).lines = (s.inst j).lines := by
  rw [inst_setInst]
  split
  case isTrue hj => rw [hx, hj]
  case isFalse => rfl

/-- A class C command changes no line (R74). -/
theorem cacheCommand_lines (c : Instr) (s : State) (j : InstId) :
    ((cacheCommand c (cacheEffectOf c) s).inst j).lines = (s.inst j).lines := by
  obtain ⟨rc, -, he⟩ | ⟨-, he⟩ := cacheCommand_cases c (cacheEffectOf c) s <;> rw [he]
  · rfl
  change ((cacheEffectOf c s).inst j).lines = (s.inst j).lines
  cases c
  case mmute i v => exact setInst_lines (by rfl) j
  case setob i b ch v => exact setInst_lines (by unfold withOutBit; split <;> rfl) j
  case setom i b S R => exact setInst_lines (by unfold withOutMask; split <;> rfl) j
  all_goals rfl

/-- The effect of a class R command changes no line (R148, R149, R161). -/
theorem effectOf_lines (c : Instr) (s : State) (j : InstId) :
    ((effectOf c s).inst j).lines = (s.inst j).lines := by
  cases c
  case mdestroy i => exact (setInst_lines (by rfl) j).trans (by rw [deregister_inst])
  case msetcnt i n => exact setInst_lines (by rfl) j
  all_goals rfl

/-- What a class S command writes at its finish is no line (R177). -/
theorem finishOf_lines (c : Instr) (s : State) (j : InstId) :
    ((finishOf c s).inst j).lines = (s.inst j).lines := by
  cases c
  case mcons i n => exact setInst_lines (by rfl) j
  all_goals rfl

/-! ### Which line step changes which line -/

/-- The lines that the line program of a position drives (R106). -/
def Pos.roles : Pos → List Role
  | .reset _ => [.trigX, .trigY, .clk]
  | .zero _ _ => [.ldOut, .clk, .dOut]
  | .write _ => [.ldOut, .clk, .dOut]
  | .read _ => [.ldIn, .clk]
  | .analog _ => [.trigX, .trigY]
  | .refresh _ (.out _) => [.ldOut, .clk, .dOut]
  | .refresh _ (.inp _) => [.ldIn, .clk]
  | .refresh _ (.commit _) => []
  | .finish _ _ => []

/-- A program step that changes a line is a drive of it, and the line is one of its program's. -/
theorem RunKind.lines {c : Instr} {i : InstId} {p : Pos} {s t : State} (h : RunKind c i p s t) (j : InstId) (r : Role)
    (hne : (t.inst j).lines.get r ≠ (s.inst j).lines.get r) :
    r ∈ p.roles ∧ t.trace = .drive j r ((t.inst j).lines.get r) s.time :: s.trace := by
  cases h with
  | reset q _ hp hl =>
    subst hp
    exact (hl.lines j r hne).2
  | write q _ hp hl =>
    obtain rfl | ⟨ok, rfl | rfl⟩ := hp <;> exact (hl.lines j r hne).2
  | read q _ hp hl =>
    obtain rfl | ⟨ok, rfl⟩ := hp <;> exact (hl.lines j r hne).2
  | analog q _ hp hl =>
    subst hp
    exact (hl.lines j r hne).2
  | init n _ hp _ ht =>
    subst hp ht
    have hinit : ((constructInit i (boardCount n) s).inst j).lines = (s.inst j).lines := setInst_lines (by rfl) j
    have hl : LineStep i [.trigX, .trigY, .clk] (constructInit i (boardCount n) s) _ := .drive .trigX true (by decide)
    exact (hl.lines j r (hinit ▸ hne)).2
  | commit ok bytes _ _ =>
    have hcommit : ((commitInputs i bytes s).inst j).lines = (s.inst j).lines := setInst_lines (by rfl) j
    exact absurd (by rw [hcommit]) hne

/-- A step of a refresh that changes a line is a drive of it (R141 to R143). -/
theorem refreshStep_changes (i : InstId) (p : RefreshPos) (s : State) (j : InstId) (r : Role)
    (hne : ((refreshStep i p s).state.inst j).lines.get r ≠ (s.inst j).lines.get r) :
    (refreshStep i p s).state.trace =
      .drive j r (((refreshStep i p s).state.inst j).lines.get r) s.time :: s.trace :=
  ((refresh_runKind (c := .ref i) (ok := true) (.inr (.inl rfl)) rfl).lines j r hne).2

/-- A step of a command that changes a line is a drive of it by a host job, on one of the lines of the program it
stands in (R92, R106). -/
theorem exec_lines {c : Instr} {s t : State} (h : exec c s = .next t) (j : InstId) (r : Role)
    (hne : (t.inst j).lines.get r ≠ (s.inst j).lines.get r) : ∃ p, s.seq = .hostRun p ∧ r ∈ p.roles := by
  have same (hl : (t.inst j).lines = (s.inst j).lines) : ∃ p, s.seq = .hostRun p ∧ r ∈ p.roles :=
    absurd (by rw [hl]) hne
  cases hc : cmdClass c with
  | cache =>
    rw [exec_cache c hc] at h
    cases h
    exact same (cacheCommand_lines c s j)
  | registry =>
    rw [exec_registry c hc] at h
    cases h
    obtain ⟨-, he⟩ | ⟨-, -, he⟩ | ⟨-, -, he⟩ := registryCommand_cases c (effectOf c) s
    · exact same (by rw [he, issueJob_inst])
    · exact same (by rw [he, finish_inst, effectOf_lines]; rfl)
    · exact same (by rw [he])
  | sequenced =>
    rw [exec_sequenced c hc] at h
    cases h
    obtain ⟨-, he⟩ | ⟨-, -, he⟩ | ⟨rc, res, -, -, he⟩ | ⟨p, u, q, -, hs, -, -, hr, he⟩ | he :=
      sequencedCommand_cases c (startOf c) (runOf c) (finishOf c) s
    · exact same (by rw [he, issueJob_inst])
    · exact same (by rw [he]; rfl)
    · exact same (by rw [he, finish_inst, finishOf_lines])
    · obtain ⟨i, -, hk⟩ := run_kind hr
      rw [he] at hne
      exact ⟨p, hs, (hk.lines j r hne).1⟩
    · exact same (by rw [he])

/-- Settles O42: the step stands in a line program, and the line is one of that program's. -/
theorem lineOwners : Obligations.LineOwners := by
  unfold Obligations.LineOwners
  intro c s t i r h hne
  obtain ⟨p, hs, hr⟩ := exec_lines h i r hne
  refine ⟨p, hs, ?_⟩
  cases p with
  | reset q => exact .inl ⟨⟨q, rfl⟩, hr⟩
  | zero ok q => exact .inr (.inl ⟨.inl ⟨ok, q, rfl⟩, hr⟩)
  | write q => exact .inr (.inl ⟨.inr (.inl ⟨q, rfl⟩), hr⟩)
  | read q => exact .inr (.inr (.inl ⟨.inl ⟨q, rfl⟩, hr⟩))
  | analog q => exact .inr (.inr (.inr ⟨⟨q, rfl⟩, hr⟩))
  | refresh ok q =>
    cases q with
    | out q => exact .inr (.inl ⟨.inr (.inr ⟨ok, q, rfl⟩), hr⟩)
    | inp q => exact .inr (.inr (.inl ⟨.inr ⟨ok, q, rfl⟩, hr⟩))
    | commit bytes => cases hr
  | finish rc res => cases hr

/-- A step other than a reset that changes a line is a drive of it, and its event is the newest one (R92). -/
theorem StepKind.lines {s u t : State} (hk : StepKind s u t) (hr : nextAction s ≠ .reset) (i : InstId) (r : Role)
    (hne : (t.inst i).lines.get r ≠ (u.inst i).lines.get r) :
    t.trace = .drive i r ((t.inst i).lines.get r) u.time :: u.trace := by
  have same (hl : (t.inst i).lines = (u.inst i).lines) :
      t.trace = .drive i r ((t.inst i).lines.get r) u.time :: u.trace := absurd (by rw [hl]) hne
  cases hk with
  | reset ha => exact absurd ha hr
  | cache w c => exact same (cacheCommand_lines c { u with cmdReg := w } i)
  | issue w c => exact same (by rw [issueJob_inst]; rfl)
  | grantRegistry c => exact same (effectOf_lines c { u with lastGrant := .host } i)
  | program c p q v _ _ _ _ _ _ _ hv =>
    obtain ⟨j, -, hrun⟩ := run_kind hv
    exact (hrun.lines i r hne).2
  | finish c rc res => exact same (finishOf_lines c u i)
  | turn => exact same (by rw [turnStep_inst])
  | tb => exact same (by rw [tbStep_inst])
  | refresh j p q v _ _ _ hv =>
    have hstep := refreshStep_changes j p u i r
    rw [hv] at hstep
    exact hstep hne
  | commit j p v _ _ _ hv =>
    have hstep := refreshStep_changes j p u i r
    rw [hv] at hstep
    exact hstep hne
  | _ => exact same rfl

/-- Settles O41: of the kinds of step only a line step changes a line. -/
theorem onlyDrivesChangeLines : Obligations.OnlyDrivesChangeLines := by
  unfold Obligations.OnlyDrivesChangeLines
  intro s t i r h hr hne
  have hlines := (step_kind h).lines hr i r
  rw [dropAction_inst, dropAction_time, dropAction_trace] at hlines
  exact hlines hne

/-! ### What a transport command writes -/

/-- A transport command on instance `i`: of class S, and with no check of CONS at its issue (R90, R175). -/
structure Transport (c : Instr) (i : InstId) : Prop where
  sequenced : cmdClass c = .sequenced
  inst : instOperand c = some i
  noCons : consNeeded c = none

/-- The transport commands (R90). -/
theorem transport_of {c : Instr} {i : InstId}
    (h : (∃ imm, c = .treset i imm) ∨ (∃ n, c = .twrite i n) ∨ c = .twrzero i ∨ (∃ n, c = .tread i n) ∨
      (∃ a imm, c = .tanalog i a imm) ∨ (∃ a, c = .tanalog8 i a)) : Transport c i := by
  obtain ⟨_, rfl⟩ | ⟨_, rfl⟩ | rfl | ⟨_, rfl⟩ | ⟨_, _, rfl⟩ | ⟨_, rfl⟩ := h <;> exact ⟨rfl, rfl, rfl⟩

/-- A transport command writes nothing of its own at its finish (R177). -/
theorem Transport.finishOf_eq {c : Instr} {i : InstId} (h : Transport c i) : finishOf c = id := by
  cases c
  case mcons => cases h.noCons
  all_goals rfl

/-- A program step of a transport command is one of a line program on the port of its instance (R90). -/
theorem Transport.run_frame {c : Instr} {i : InstId} (h : Transport c i) {p q : Pos} {s t : State}
    (hr : runOf c p s = some (t, q)) : LineFrame i s t := by
  obtain ⟨j, hj, hk⟩ := run_kind hr
  obtain rfl : j = i := Option.some.inj (hj.symm.trans h.inst)
  cases hk with
  | reset _ _ _ hl => exact hl.frame
  | write _ _ _ hl => exact hl.frame
  | read _ _ _ hl => exact hl.frame
  | analog _ _ _ hl => exact hl.frame
  | init n _ _ hc _ =>
    subst hc
    cases h.noCons
  | commit _ _ _ hc =>
    obtain rfl | rfl | ⟨n, rfl⟩ := hc <;> cases h.noCons

/-- What a transport command may write at any of its stages (R90). -/
def TransportWrites (i : InstId) (s t : State) : Prop :=
  SameShared s t ∧ SameButLines (s.inst i) (t.inst i) ∧ (∀ j, j ≠ i → t.inst j = s.inst j) ∧
    (t.rc ≠ s.rc → (s.busy = false ∧ t.busy = false) ∨ ∃ r, s.seq = .hostRun (.finish t.rc r)) ∧
    (t.result ≠ s.result → ∃ rc, s.seq = .hostRun (.finish rc (some t.result)))

/-- A step that leaves the instances as they are writes no more than RC and RESULT. -/
theorem transportWrites_of_insts {i : InstId} {s t : State} (hi : t.insts = s.insts) (hs : SameShared s t)
    (hrc : t.rc ≠ s.rc → (s.busy = false ∧ t.busy = false) ∨ ∃ r, s.seq = .hostRun (.finish t.rc r))
    (hresult : t.result ≠ s.result → ∃ rc, s.seq = .hostRun (.finish rc (some t.result))) :
    TransportWrites i s t := by
  have hinst : ∀ j, t.inst j = s.inst j := fun j => by simp only [State.inst, hi]
  exact ⟨hs, by simp [SameButLines, hinst], fun j _ => hinst j, hrc, hresult⟩

/-- The issue of a command writes RC when it rejects it, JOB and BUSY when it accepts it (R172). -/
theorem issueJob_writes (c : Instr) (i : InstId) {s : State} (hb : s.busy = false) :
    TransportWrites i s (issueJob c s) := by
  obtain ⟨rc, -, he⟩ | ⟨-, he⟩ := issueJob_cases c s <;> rw [he]
  · exact transportWrites_of_insts rfl (by simp [SameShared]) (fun _ => .inl ⟨hb, hb⟩) (absurd rfl)
  · exact transportWrites_of_insts rfl (by simp [SameShared]) (absurd rfl) (absurd rfl)

/-- The grant writes SEQ and LAST_GRANT (R176). -/
theorem grant_writes (i : InstId) (s : State) (p : Pos) :
    TransportWrites i s { s with lastGrant := .host, seq := .hostRun p } :=
  transportWrites_of_insts rfl (by simp [SameShared]) (absurd rfl) (absurd rfl)

/-- A finish writes RC, and RESULT if it carries one (R177). -/
theorem finish_writes (i : InstId) {s : State} {rc : ResultCode} {r : Option Word}
    (hs : s.seq = .hostRun (.finish rc r)) : TransportWrites i s (finish rc r s) := by
  refine transportWrites_of_insts rfl (by simp [SameShared]) (fun _ => .inr ⟨r, hs⟩) fun h => ?_
  cases r with
  | none => exact absurd rfl h
  | some v => exact ⟨rc, hs⟩

/-- A step of a line program writes neither RC nor RESULT. -/
theorem LineFrame.writes {i : InstId} {s t : State} (h : LineFrame i s t) (q : Seq) :
    TransportWrites i s { t with seq := q } :=
  ⟨h.shared, h.same, fun j hj => h.others j hj.symm, fun hne => absurd h.rc hne, fun hne => absurd h.result hne⟩

/-- Every step of a transport command writes what R90 lets it. -/
theorem Transport.exec_writes {c : Instr} {i : InstId} (hc : Transport c i) {s t : State} (h : exec c s = .next t) :
    TransportWrites i s t := by
  rw [exec_sequenced c hc.sequenced, hc.finishOf_eq] at h
  cases h
  obtain ⟨hb, he⟩ | ⟨-, -, he⟩ | ⟨rc, r, -, hs, he⟩ | ⟨p, u, q, -, -, -, -, hr, he⟩ | he :=
    sequencedCommand_cases c (startOf c) (runOf c) id s <;> rw [he]
  · exact issueJob_writes c i hb
  · exact grant_writes i s _
  · exact finish_writes i hs
  · exact (hc.run_frame hr).writes _
  · exact (LineFrame.refl i s).writes s.seq

/-! ### What a transport command reads -/

section
variable (i : InstId) (insts : Vector Instance 8) (order : List InstId)

/-- `s` with the instances `insts`, but for the lines of instance `i`, and with the registry `order`. -/
def swapRest (s : State) : State :=
  { s with
    insts := insts.set i.toNat { insts[i.toNat]'i.isLt with lines := (s.inst i).lines } i.isLt
    regOrder := order }

/-- Where the lines are the same, `swapRest` is the plain exchange. -/
theorem swapRest_eq {s : State} (h : (insts[i.toNat]'i.isLt).lines = (s.inst i).lines) :
    swapRest i insts order s = { s with insts := insts, regOrder := order } := by
  have hx : { insts[i.toNat]'i.isLt with lines := (s.inst i).lines } = insts[i.toNat]'i.isLt := by rw [← h]
  simp only [swapRest, hx, Vector.set_getElem_self]

/-- A drive reads the lines of its port and TIME alone (R92). -/
theorem drive_swapRest (r : Role) (v : Bool) (s : State) :
    drive i r v (swapRest i insts order s) = swapRest i insts order (drive i r v s) := by
  simp [swapRest, drive, record, State.setInst, State.inst]

/-- A sample reads TIME and the answers alone (R94). -/
theorem sample_swapRest (s : State) : sample i (swapRest i insts order s) = swapRest i insts order (sample i s) := by
  cases hd : s.draws <;> simp [swapRest, sample, record, dropBit, nextBit, State.inst, hd]

/-- So does a poll (R95). -/
theorem poll_swapRest (t0 T : Word) (s : State) :
    poll i t0 T (swapRest i insts order s) = swapRest i insts order (poll i t0 T s) := by
  unfold poll
  rw [sample_swapRest]
  exact (apply_ite (swapRest i insts order) ..).symm

/-- A step of a line program with `f` applied to the state it leaves. -/
def Progress.mapState {π ρ : Type} (f : State → State) : Progress π ρ → Progress π ρ
  | .more s p => .more (f s) p
  | .done s r => .done (f s) r

/-- A command goes on at the same position after either of two steps that differ in the state alone. -/
theorem some_within_mapState {π ρ κ : Type} {f : State → State} {x y : Progress π ρ} (h : y = x.mapState f)
    (inside : π → κ) (after : ρ → κ) :
    some (y.within inside after) = (some (x.within inside after)).map (Prod.map f id) := by
  subst h
  cases x <;> rfl

/-- RESET reads the lines, TIME and the answers alone (R96). -/
theorem resetStep_swapRest (T : Word) (p : ResetPos) (s : State) :
    resetStep i T p (swapRest i insts order s) = (resetStep i T p s).mapState (swapRest i insts order) := by
  cases p
  case poll t0 =>
    have ho : pollOutcome t0 T (swapRest i insts order s) = pollOutcome t0 T s := rfl
    simp only [resetStep, ho, poll_swapRest]
    cases pollOutcome t0 T s <;> rfl
  all_goals
    simp only [resetStep, drive_swapRest]
    rfl

/-- WRITEOUT reads the bytes it is given (R98). -/
theorem writeStep_swapRest (bytes : List Byte) (p : WritePos) (s : State) :
    writeStep i bytes p (swapRest i insts order s) = (writeStep i bytes p s).mapState (swapRest i insts order) := by
  rcases p with _ | ⟨b, k, x, rest⟩ | _ | _ | _
  case bit =>
    cases b <;> simp only [writeStep, drive_swapRest] <;> rfl
  all_goals
    simp only [writeStep, drive_swapRest]
    rfl

/-- READIN reads the count it is given and the answers (R99). -/
theorem readStep_swapRest (n : Nat) (p : ReadPos) (s : State) :
    readStep i n p (swapRest i insts order s) = (readStep i n p s).mapState (swapRest i insts order) := by
  rcases p with _ | m | m | m | ⟨b, m, bytes, k, acc⟩
  case ldLo =>
    simp only [readStep, afterBytes, drive_swapRest]
    split <;> rfl
  case bit =>
    cases b
    case sample =>
      simp only [readStep, sample_swapRest]
      rfl
    case clkLo =>
      simp only [readStep, drive_swapRest]
      rfl
    case clkHi =>
      simp only [readStep, afterBytes, drive_swapRest]
      split
      · split <;> rfl
      · rfl
  all_goals
    simp only [readStep, drive_swapRest]
    rfl

/-- ANALOG reads the lines, TIME and the answers alone (R100). -/
theorem analogStep_swapRest (a : Bool) (T : Word) (p : AnalogPos) (s : State) :
    analogStep i a T p (swapRest i insts order s) = (analogStep i a T p s).mapState (swapRest i insts order) := by
  cases p
  case poll t0 =>
    have ho : pollOutcome t0 T (swapRest i insts order s) = pollOutcome t0 T s := rfl
    simp only [analogStep, ho, poll_swapRest]
    cases pollOutcome t0 T s <;> rfl
  all_goals
    simp only [analogStep, drive_swapRest]
    rfl

variable {i}

/-- A program step of a transport command reads nothing that `swapRest` exchanges (R90). -/
theorem Transport.runOf_swapRest {c : Instr} (h : Transport c i) (p : Pos) (s : State) :
    runOf c p (swapRest i insts order s) = (runOf c p s).map (Prod.map (swapRest i insts order) id) := by
  have hi := h.inst
  cases c
  case treset =>
    cases hi
    cases p
    case reset q => exact some_within_mapState (resetStep_swapRest ..) _ _
    all_goals rfl
  case twrite =>
    cases hi
    cases p
    case write q => exact some_within_mapState (writeStep_swapRest ..) _ _
    all_goals rfl
  case twrzero =>
    cases hi
    cases p
    case zero ok q => exact some_within_mapState (writeStep_swapRest ..) _ _
    all_goals rfl
  case tread =>
    cases hi
    cases p
    case read q => exact some_within_mapState (readStep_swapRest ..) _ _
    all_goals rfl
  case tanalog =>
    cases hi
    cases p
    case analog q => exact some_within_mapState (analogStep_swapRest ..) _ _
    all_goals rfl
  case tanalog8 =>
    cases hi
    cases p
    case analog q => exact some_within_mapState (analogStep_swapRest ..) _ _
    all_goals rfl
  case mcons | refo | refi | ref => cases h.noCons
  all_goals cases h.sequenced

/-- The issue of a transport command reads nothing that `swapRest` exchanges: it does not check CONS (R175). -/
theorem Transport.issueJob_swapRest {c : Instr} (h : Transport c i) (s : State) :
    issueJob c (swapRest i insts order s) = swapRest i insts order (issueJob c s) := by
  have hv : validate c (swapRest i insts order s) = validate c s := by
    simp only [validate, h.inst, h.noCons]
    rfl
  unfold issueJob
  rw [hv]
  cases validate c s <;> rfl

/-- Nor does the phase hold, nor the position (R93). -/
theorem Transport.programStep_swapRest {c : Instr} (h : Transport c i) (p : Pos) (s : State) :
    programStep (runOf c) p (swapRest i insts order s) = swapRest i insts order (programStep (runOf c) p s) := by
  have hm : phaseMet (swapRest i insts order s) = phaseMet s := rfl
  unfold programStep
  rw [hm, h.runOf_swapRest insts order p s]
  split
  · rfl
  · cases runOf c p s <;> rfl

/-- A step of a transport command reads nothing that `swapRest` exchanges (R90). -/
theorem Transport.exec_swapRest {c : Instr} (h : Transport c i) {s t : State} (ht : exec c s = .next t) :
    exec c (swapRest i insts order s) = .next (swapRest i insts order t) := by
  rw [exec_sequenced c h.sequenced] at ht ⊢
  cases ht
  congr 1
  have hbusy : (swapRest i insts order s).busy = s.busy := rfl
  have hseq : (swapRest i insts order s).seq = s.seq := rfl
  unfold sequencedCommand
  rw [hbusy, hseq, h.finishOf_eq]
  cases s.busy
  case false => exact h.issueJob_swapRest insts order s
  case true =>
    cases s.seq
    case hostRun p =>
      cases p
      case finish rc r => rfl
      all_goals exact h.programStep_swapRest insts order _ s
    all_goals rfl

end

/-- Settles O40: a step writes within `TransportWrites`, and it commutes with `swapRest`. -/
theorem transportFrame : Obligations.TransportFrame := by
  unfold Obligations.TransportFrame
  intro c i hc
  have h := transport_of hc
  refine ⟨fun s t ht => h.exec_writes ht, fun s t insts order hl ht => ?_⟩
  rw [← swapRest_eq i insts order (hl i)]
  exact h.exec_swapRest insts order ht

end Sys2Proof.Machine
end

section
/-! The cache commands (spec/41_cache.md): what they do on a constructed instance, in range and out of range
(R120 to R129), and the lanes and the frame of the two setters (R130). -/

namespace Sys2Proof.Machine

/-! ### In range and out of range -/

theorem boardInRange_iff {x : Instance} {b : BitVec 3} : boardInRange x b = true ↔ b < x.bc := decide_eq_true_iff

theorem boardChanInRange_iff {x : Instance} {b : BitVec 3} {c : BitVec 4} :
    (boardInRange x b && chanInRange c) = true ↔ b < x.bc ∧ c.toNat < 8 := by
  rw [Bool.and_eq_true, boardInRange_iff, chanInRange, decide_eq_true_iff]

section
variable {x : Instance} {b : BitVec 3} {c : BitVec 4}

theorem cacheBit_inRange (k : Bank) (hb : b < x.bc) (hc : c.toNat < 8) :
    cacheBit x k b c = bitWord ((bankGet k b.toNat).getLsbD c.toNat) :=
  if_pos (boardChanInRange_iff.mpr ⟨hb, hc⟩)

theorem cacheBit_outOfRange (k : Bank) (h : ¬ (b < x.bc ∧ c.toNat < 8)) : cacheBit x k b c = 0 :=
  if_neg (mt boardChanInRange_iff.mp h)

theorem cacheByte_inRange (k : Bank) (hb : b < x.bc) : cacheByte x k b = byteWord (bankGet k b.toNat) :=
  if_pos (boardInRange_iff.mpr hb)

theorem cacheByte_outOfRange (k : Bank) (h : ¬ b < x.bc) : cacheByte x k b = 0 :=
  if_neg (mt boardInRange_iff.mp h)

theorem withOutBit_inRange (v : Bool) (hb : b < x.bc) (hc : c.toNat < 8) :
    withOutBit x b c v = { x with out := bankSet x.out b.toNat (setBit (bankGet x.out b.toNat) c.toNat v) } :=
  if_pos (boardChanInRange_iff.mpr ⟨hb, hc⟩)

theorem withOutBit_outOfRange (v : Bool) (h : ¬ (b < x.bc ∧ c.toNat < 8)) : withOutBit x b c v = x :=
  if_neg (mt boardChanInRange_iff.mp h)

theorem withOutMask_inRange (S R : Byte) (hb : b < x.bc) :
    withOutMask x b S R = { x with out := bankSet x.out b.toNat ((bankGet x.out b.toNat ||| S) &&& ~~~R) } :=
  if_pos (boardInRange_iff.mpr hb)

theorem withOutMask_outOfRange (S R : Byte) (h : ¬ b < x.bc) : withOutMask x b S R = x :=
  if_neg (mt boardInRange_iff.mp h)

end

/-! ### The commands on a constructed instance -/

section
variable {i : InstId} {s : State}

/-- SETOB on a constructed instance (R122). -/
theorem exec_setob (b : BitVec 3) (c : BitVec 4) (v : Bool) (hk : Constructed i s) :
    exec (.setob i b c v) s = .next { s.setInst i (withOutBit (s.inst i) b c v) with rc := .ok } :=
  exec_cache_constructed rfl rfl rfl rfl hk

/-- SETOM on a constructed instance (R123). -/
theorem exec_setom (b : BitVec 3) (S R : Byte) (hk : Constructed i s) :
    exec (.setom i b S R) s = .next { s.setInst i (withOutMask (s.inst i) b S R) with rc := .ok } :=
  exec_cache_constructed rfl rfl rfl rfl hk

/-- A class C command whose effect is to put `r` in RESULT writes RC and RESULT and nothing else. -/
theorem exec_getter {c : Instr} {r r' : Word} (hk : Constructed i s) (he : cacheEffectOf c s = { s with result := r })
    (hr : r = r') (hi : instOperand c = some i := by rfl) (hc : cmdClass c = .cache := by rfl)
    (hn : consNeeded c = some true := by rfl) (ha : argsLegal c = true := by rfl) :
    exec c s = .next { s with rc := .ok, result := r' } := by
  rw [exec_cache_constructed hi hc hn ha hk, he, hr]

end

/-! ### The rules of the commands -/

/-- Settles O11: the bit is replaced in range (`withOutBit_inRange`), and the instance is as before out of range. -/
theorem setobRule : Obligations.SetobRule := by
  unfold Obligations.SetobRule
  refine ⟨fun w h => decode_of_opcode (c := .setob 0 0 0 false) h, fun i b c v s =>
    ⟨rejectsUnconstructed_of rfl rfl rfl s, fun hk hb hc => ?_, fun hk h => ?_⟩⟩
  · rw [exec_setob b c v hk, withOutBit_inRange v hb hc]
    rfl
  · rw [exec_setob b c v hk, withOutBit_outOfRange v h, setInst_inst]

/-- Settles O12: the masks are applied in range (`withOutMask_inRange`), and the instance is as before out of range. -/
theorem setomRule : Obligations.SetomRule := by
  unfold Obligations.SetomRule
  refine ⟨fun w h => decode_of_opcode (c := .setom 0 0 0 0) h, fun i b S R s =>
    ⟨rejectsUnconstructed_of rfl rfl rfl s, fun hk hb => ?_, fun hk h => ?_⟩⟩
  · rw [exec_setom b S R hk, withOutMask_inRange S R hb]
  · rw [exec_setom b S R hk, withOutMask_outOfRange S R h, setInst_inst]

/-- Settles O13: each bit getter puts `cacheBit` of its cache in RESULT. -/
theorem getBitRules : Obligations.GetBitRules := by
  unfold Obligations.GetBitRules
  refine ⟨fun w => ⟨fun h => decode_of_opcode (c := .getob 0 0 0) h, fun h => decode_of_opcode (c := .getib 0 0 0) h,
      fun h => decode_of_opcode (c := .getpib 0 0 0) h⟩,
    fun i b c s => ⟨rejectsUnconstructed_of rfl rfl rfl s, rejectsUnconstructed_of rfl rfl rfl s,
      rejectsUnconstructed_of rfl rfl rfl s, fun hk hb hc => ?_, fun hk h => ?_⟩⟩
  · have hbit := fun k : Bank => cacheBit_inRange k hb hc
    exact ⟨exec_getter hk rfl (hbit _), exec_getter hk rfl (hbit _), exec_getter hk rfl (hbit _)⟩
  · have hzero := fun k : Bank => cacheBit_outOfRange k h
    exact ⟨exec_getter hk rfl (hzero _), exec_getter hk rfl (hzero _), exec_getter hk rfl (hzero _)⟩

/-- Settles O14: each mask getter puts `cacheByte` of its cache in RESULT. -/
theorem getMaskRules : Obligations.GetMaskRules := by
  unfold Obligations.GetMaskRules
  refine ⟨fun w => ⟨fun h => decode_of_opcode (c := .getom 0 0) h, fun h => decode_of_opcode (c := .getim 0 0) h,
      fun h => decode_of_opcode (c := .getpim 0 0) h⟩,
    fun i b s => ⟨rejectsUnconstructed_of rfl rfl rfl s, rejectsUnconstructed_of rfl rfl rfl s,
      rejectsUnconstructed_of rfl rfl rfl s, fun hk hb => ?_, fun hk h => ?_⟩⟩
  · have hbyte := fun k : Bank => cacheByte_inRange k hb
    exact ⟨exec_getter hk rfl (hbyte _), exec_getter hk rfl (hbyte _), exec_getter hk rfl (hbyte _)⟩
  · have hzero := fun k : Bank => cacheByte_outOfRange k h
    exact ⟨exec_getter hk rfl (hzero _), exec_getter hk rfl (hzero _), exec_getter hk rfl (hzero _)⟩

/-! ### Lanes and frame of the setters -/

/-- The lanes of a byte after SETOM's masks: a reset wins over a set (R123, R130). -/
theorem mask_lane (x S R : Byte) {k : Nat} (hk : k < 8) : ((x ||| S) &&& ~~~R).getLsbD k =
    if R.getLsbD k then false else if S.getLsbD k then true else x.getLsbD k := by
  rw [BitVec.getLsbD_and, BitVec.getLsbD_or, BitVec.getLsbD_not, decide_eq_true hk]
  cases R.getLsbD k <;> cases S.getLsbD k <;> simp

/-- Two instances agree on IN, on PREV and on every byte of OUT but that of board `b`. -/
def SameButBoard (b : Nat) (x y : Instance) : Prop :=
  (∀ d, d ≠ b → bankGet y.out d = bankGet x.out d) ∧ y.inp = x.inp ∧ y.prev = x.prev

theorem SameButBoard.refl (b : Nat) (x : Instance) : SameButBoard b x x := ⟨fun _ _ => rfl, rfl, rfl⟩

theorem sameButBoard_bankSet (b : Nat) (x : Instance) (y : Byte) :
    SameButBoard b x { x with out := bankSet x.out b y } :=
  ⟨fun _ h => bankGet_bankSet_ne _ _ h, rfl, rfl⟩

theorem withOutBit_sameButBoard (x : Instance) (b : BitVec 3) (c : BitVec 4) (v : Bool) :
    SameButBoard b.toNat x (withOutBit x b c v) := by
  by_cases h : b < x.bc ∧ c.toNat < 8
  · rw [withOutBit_inRange v h.1 h.2]
    exact sameButBoard_bankSet ..
  · rw [withOutBit_outOfRange v h]
    exact .refl ..

theorem withOutMask_sameButBoard (x : Instance) (b : BitVec 3) (S R : Byte) :
    SameButBoard b.toNat x (withOutMask x b S R) := by
  by_cases h : b < x.bc
  · rw [withOutMask_inRange S R h]
    exact sameButBoard_bankSet ..
  · rw [withOutMask_outOfRange S R h]
    exact .refl ..

/-- The instances after a setter: the one named is replaced, the others are as before. -/
theorem inst_of_setter {c : Instr} {i : InstId} {x : Instance} {s t : State}
    (he : exec c s = .next { s.setInst i x with rc := .ok }) (ht : exec c s = .next t) :
    t.inst i = x ∧ ∀ j, j ≠ i → t.inst j = s.inst j := by
  cases he.symm.trans ht
  exact ⟨inst_setInst_self s i x, fun j hj => inst_setInst_ne s x hj.symm⟩

/-- Settles O15: the lanes of the byte written (`mask_lane`, `setBit_lane`), and the frame of either setter. -/
theorem laneRule : Obligations.LaneRule := by
  unfold Obligations.LaneRule
  intro i b s t hk hbc hb
  have hb4 : b.toNat < 4 := lt_of_lt_of_le (BitVec.lt_def.mp hb) hbc
  refine ⟨fun S R ht k hk8 => ?_, fun c v hc ht k hk8 => ?_, ?_⟩
  · rw [(inst_of_setter (exec_setom b S R hk) ht).1, withOutMask_inRange S R hb, bankGet_bankSet_self _ _ hb4,
      mask_lane _ _ _ hk8]
  · rw [(inst_of_setter (exec_setob b c v hk) ht).1, withOutBit_inRange v hb hc, bankGet_bankSet_self _ _ hb4,
      setBit_lane _ _ hc hk8]
  · rintro (⟨S, R, ht⟩ | ⟨c, v, ht⟩)
    · obtain ⟨hi, hne⟩ := inst_of_setter (exec_setom b S R hk) ht
      exact ⟨hne, hi ▸ withOutMask_sameButBoard (s.inst i) b S R⟩
    · obtain ⟨hi, hne⟩ := inst_of_setter (exec_setob b c v hk) ht
      exact ⟨hne, hi ▸ withOutBit_sameButBoard (s.inst i) b c v⟩

end Sys2Proof.Machine
end

section
/-! The manager commands step by step (spec/42_manager.md): NOP (R150), the grants of MDESTROY and MSETCNT (R148, R149,
with DEREGISTER, R163), the commit of a refresh of inputs (R142), and the refresh programs (R141 to R143) inside REFO,
REFI, REF and MCONS (R144 to R147), said once for every command that runs REFRESH. -/

namespace Sys2Proof.Machine

/-! ### Commands of class C and R -/

/-- Settles O10: NOP names no instance, so its validation passes, and its effect is the identity. -/
theorem nopRule : Obligations.NopRule := by
  unfold Obligations.NopRule
  refine ⟨fun w h => decode_of_opcode (c := .nop) h, fun s => ?_⟩
  have hv : validate .nop s = none := rfl
  rw [exec_cache .nop rfl, cacheCommand, hv]
  rfl

/-- A legal COUNT of MCONS and MSETCNT (R73). -/
theorem boardCountLegal_iff (n : BitVec 3) : boardCountLegal n = true ↔ n.toNat ≤ 4 := decide_eq_true_iff

/-- Settles O18: the grant deregisters the instance (`deregister_eq`), then clears it but for its lines. -/
theorem mdestroyRule : Obligations.MdestroyRule := by
  unfold Obligations.MdestroyRule
  refine ⟨fun w h => decode_of_opcode (c := .mdestroy 0) h, fun i =>
    ⟨issues_of rfl (by simp [cmdClass]) (by simp [argsLegal]), fun s hb hs => ⟨fun hm he => ?_, fun h => ?_⟩⟩⟩
  all_goals rw [exec_grantRegistry rfl hb hs, effectOf, destroyInst, deregister_eq]
  · rw [if_pos ⟨hm, he⟩]
    rfl
  · rw [if_neg h]
    rfl

/-- Settles O19: the grant replaces BC alone, the COUNT 0 standing for 1. -/
theorem msetcntRule : Obligations.MsetcntRule := by
  unfold Obligations.MsetcntRule
  refine ⟨fun w h => decode_of_opcode (c := .msetcnt 0 0) h, fun i n =>
    ⟨issues_of rfl (by simp [cmdClass]) (boardCountLegal_iff n), fun s hb hs => ?_⟩⟩
  rw [exec_grantRegistry rfl hb hs]
  rfl

/-! ### The commit -/

/-- A cache has four bytes (R3). -/
theorem bankGet_of_le (k : Bank) {b : Nat} (h : 4 ≤ b) : bankGet k b = 0 := dif_neg (Nat.not_lt.mpr h)

/-- The bytes of PREV and IN of a board after the commit (R142). -/
theorem bankGet_withCommit (x : Instance) (bytes : List Byte) {b : Nat} (hb : b < 4) :
    bankGet (withCommit x bytes).prev b = committedPrev x bytes b ∧
      bankGet (withCommit x bytes).inp b = committedIn x bytes b := by
  obtain rfl | rfl | rfl | rfl : b = 0 ∨ b = 1 ∨ b = 2 ∨ b = 3 := by omega
  all_goals exact ⟨rfl, rfl⟩

/-- Settles O31: below the number of bytes read the commit moves IN to PREV and the byte to IN, above it changes
nothing (`bankGet_withCommit`). -/
theorem commitRule : Obligations.CommitRule := by
  unfold Obligations.CommitRule
  refine fun x bytes hlen => ⟨fun b hb => ?read, fun b hb => ?unread, rfl, rfl, rfl, rfl, rfl⟩
  case read =>
    obtain ⟨hprev, hinp⟩ := bankGet_withCommit x bytes (b := b) (by omega)
    rw [hprev, hinp, committedPrev, committedIn, if_pos hb]
    exact ⟨rfl, by simp [hb]⟩
  case unread =>
    by_cases h4 : b < 4
    · obtain ⟨hprev, hinp⟩ := bankGet_withCommit x bytes h4
      rw [hprev, hinp, committedPrev, committedIn, if_neg (by omega)]
      exact ⟨rfl, by simp [hb]⟩
    · simp only [bankGet_of_le _ (Nat.not_lt.mp h4), and_self]

/-! ### REFRESH inside a command -/

section
variable {c : Instr} {i : InstId} {ok : Bool} {after : Pos}

/-- REFRESH_OUT inside a command whose program is REFRESH at these positions (R141, R143): WRITEOUT of the bytes of OUT
in use, and then REFRESH_IN. -/
theorem runsRefreshOut_of (hc : cmdClass c = .sequenced)
    (h : ∀ q s, runOf c (.refresh ok (.out q)) s =
      some ((refreshStep i (.out q) s).within (.refresh ok) (fun _ => after))) :
    RunsWriteOut c i (outputsOf i) (fun q => .refresh ok (.out q)) (.refresh ok (.inp .ldHi)) := by
  refine runsWriteOut_of hc (fun _ _ _ => by simp) fun q s => ?_
  have hbytes : outputsOf i s = snapshot i s := rfl
  rw [h, refreshStep, refreshOutStep, hbytes]
  cases writeStep i (snapshot i s) q s <;> rfl

/-- REFRESH_IN inside a command up to its commit (R142): READIN of as many bytes as the instance has boards. -/
theorem runsRefreshIn_of (hc : cmdClass c = .sequenced)
    (h : ∀ q s, runOf c (.refresh ok (.inp q)) s =
      some ((refreshStep i (.inp q) s).within (.refresh ok) (fun _ => after))) :
    RunsReadIn c i (fun s => (s.inst i).bc.toNat) (fun q => .refresh ok (.inp q))
      (fun bytes => .refresh ok (.commit bytes)) := by
  refine runsReadIn_of hc (fun _ _ _ => by simp) fun q s => ?_
  rw [h, refreshStep]
  cases readStep i (s.inst i).bc.toNat q s <;> rfl

end

/-! ### The rules of REFO, REFI and REF -/

/-- The WRITEOUT of REFO (R141, R144). -/
theorem refo_runsWriteOut (i : InstId) :
    RunsWriteOut (.refo i) i (outputsOf i) (fun q => .refresh true (.out q)) (.finish .ok none) :=
  runsWriteOut_of rfl (fun _ _ _ => by simp) (fun _ _ => rfl)

/-- The READIN of REFI (R142, R145). -/
theorem refi_runsReadIn (i : InstId) :
    RunsReadIn (.refi i) i (fun s => (s.inst i).bc.toNat) (fun q => .refresh true (.inp q))
      (fun bytes => .refresh true (.commit bytes)) :=
  runsRefreshIn_of rfl (fun _ _ => rfl)

/-- The commit of REFI (R142, R145). -/
theorem refi_runsCommit (i : InstId) :
    RunsCommit (.refi i) i (fun bytes => .refresh true (.commit bytes)) (.finish .ok none) :=
  runsCommit_of rfl (fun _ _ => rfl)

/-- The WRITEOUT of REF (R141, R146). -/
theorem ref_runsWriteOut (i : InstId) :
    RunsWriteOut (.ref i) i (outputsOf i) (fun q => .refresh true (.out q)) (.refresh true (.inp .ldHi)) :=
  runsRefreshOut_of rfl (fun _ _ => rfl)

/-- The READIN of REF (R142, R146). -/
theorem ref_runsReadIn (i : InstId) :
    RunsReadIn (.ref i) i (fun s => (s.inst i).bc.toNat) (fun q => .refresh true (.inp q))
      (fun bytes => .refresh true (.commit bytes)) :=
  runsRefreshIn_of rfl (fun _ _ => rfl)

/-- The commit of REF (R142, R146). -/
theorem ref_runsCommit (i : InstId) :
    RunsCommit (.ref i) i (fun bytes => .refresh true (.commit bytes)) (.finish .ok none) :=
  runsCommit_of rfl (fun _ _ => rfl)

/-- Settles O29: REFRESH_OUT, REFRESH_IN with its commit, and the one after the other. -/
theorem refreshRules : Obligations.RefreshRules := by
  unfold Obligations.RefreshRules
  refine ⟨fun w => ⟨fun h => decode_of_opcode (c := .refo 0) h, fun h => decode_of_opcode (c := .refi 0) h,
      fun h => decode_of_opcode (c := .ref 0) h⟩,
    fun i => ⟨⟨?_, grantedAt_of rfl, refo_runsWriteOut i, finishesWith_of rfl⟩,
      ⟨?_, grantedAt_of rfl, refi_runsReadIn i, refi_runsCommit i, finishesWith_of rfl⟩,
      ⟨?_, grantedAt_of rfl, ref_runsWriteOut i, ref_runsReadIn i, ref_runsCommit i, finishesWith_of rfl⟩⟩⟩
  all_goals exact issues_of rfl (by simp [cmdClass]) (by simp [argsLegal])

/-! ### The rule of MCONS -/

/-- The RESET of MCONS, its init in the same step as step 1 (R147). -/
theorem mcons_runsReset (i : InstId) (n : BitVec 3) :
    RunsReset (.mcons i n) i 5000 (constructInit i (boardCount n)) (fun ok => .zero ok .ldLo) := by
  have hT : resetTimeout 0 = 5000 := resetTimeout_eq 0
  rw [← hT]
  refine runsReset_of rfl (fun q s hq => ?_) (fun _ => rfl)
  cases q with
  | trigX => exact absurd rfl hq
  | _ => rfl

section
variable (i : InstId) (n : BitVec 3) (ok : Bool)

/-- The WRITEOUT in reset mode of MCONS (R147). -/
theorem mcons_runsZero : RunsWriteOut (.mcons i n) i (fun _ => [0, 0, 0, 0]) (.zero ok) (.refresh ok (.out .ldLo)) :=
  runsWriteOut_of rfl (fun _ _ _ => by simp) (fun _ _ => rfl)

/-- The REFRESH_OUT of MCONS (R147). -/
theorem mcons_runsWriteOut :
    RunsWriteOut (.mcons i n) i (outputsOf i) (fun q => .refresh ok (.out q)) (.refresh ok (.inp .ldHi)) :=
  runsRefreshOut_of rfl (fun _ _ => rfl)

/-- The READIN of MCONS (R147). -/
theorem mcons_runsReadIn :
    RunsReadIn (.mcons i n) i (fun s => (s.inst i).bc.toNat) (fun q => .refresh ok (.inp q))
      (fun bytes => .refresh ok (.commit bytes)) :=
  runsRefreshIn_of rfl (fun _ _ => rfl)

/-- The commit of MCONS, and the finish it leads to (R147). -/
theorem mcons_runsCommit :
    RunsCommit (.mcons i n) i (fun bytes => .refresh ok (.commit bytes))
      (.finish (if ok then .ok else .timeout) (some (if ok then 1 else 0))) :=
  finish_of_poll ok ▸ runsCommit_of rfl (fun _ _ => rfl)

end

/-- Settles O30: the init with RESET, WRITEOUT in reset mode, REFRESH, and the finish that marks the instance
constructed, whatever the outcome of the RESET. -/
theorem mconsRule : Obligations.MconsRule := by
  unfold Obligations.MconsRule
  exact ⟨fun w h => decode_of_opcode (c := .mcons 0 0) h, fun i n =>
    ⟨issues_of rfl (by simp [cmdClass]) (boardCountLegal_iff n), grantedAt_of rfl, mcons_runsReset i n,
      fun ok => ⟨mcons_runsZero i n ok, mcons_runsWriteOut i n ok, mcons_runsReadIn i n ok,
        mcons_runsCommit i n ok⟩,
      finishesWith_of rfl⟩⟩

end Sys2Proof.Machine
end

section
/-! Whole runs of REFO, REFI, REF and MCONS (spec/42_manager.md R144 to R147, 70_reset_and_hazards.md R215), from the
grant to the finish with no step of another agent between. WRITEOUT and READIN are run in Laws/Runs.lean; here stand the
steps that write an instance besides its lines (the init and the finish of MCONS, the commit), and what REFRESH shifts
and commits. -/

namespace Sys2Proof.Machine

/-! ### Runs that write an instance -/

/-- The instance whose lines a run drives. -/
theorem inst_atLine (i : InstId) (l : Lines) (last : Word) (tr : List Event) (ds : List Bool) (q : Seq) (s : State) :
    (atLine i l last tr ds q s).inst i = { s.inst i with lines := l } := by
  simp [atLine, State.inst]

/-- Replacing the instance of a run by one with the same lines is replacing it in the state the run is told of. -/
theorem setInst_atLine (i : InstId) (l : Lines) (last : Word) (tr : List Event) (ds : List Bool) (q : Seq) (s : State)
    {x : Instance} (hx : x.lines = l) :
    (atLine i l last tr ds q s).setInst i x = atLine i l last tr ds q (s.setInst i x) := by
  subst hx
  simp [atLine, State.setInst, State.inst]

/-- The commit in a run (R142). -/
theorem run_commit {c : Instr} {i : InstId} {at' : List Byte → Pos} {after : Pos} (h : RunsCommit c i at' after)
    {l : Lines} {last : Word} {tr : List Event} {ds : List Bool} {bytes : List Byte} {s : State} (hb : s.busy = true)
    (hl : (s.inst i).lines = l) :
    runCommand c 1 (atLine i l last tr ds (.hostRun (at' bytes)) s) =
      .next (atLine i l last tr ds (.hostRun after) (s.setInst i (withCommit (s.inst i) bytes))) := by
  have hstep := h (atLine i l last tr ds (.hostRun (at' bytes)) s) bytes hb rfl
  subst hl
  rw [runCommand_one hstep, inst_atLine, setInst_atLine _ _ _ _ _ _ _ (by rfl)]
  rfl

/-- A run of a whole command: the grant, `m` steps of its line program from idle lines to idle lines, and the finish
(R176, R177). `t` is `s` with what the line program writes besides the lines, and `t'` with what the finish writes as
well. -/
theorem run_grantToFinish {c : Instr} (hc : cmdClass c = .sequenced) (i : InstId) {s t t' : State} {m : Nat}
    {last : Word} {tr : List Event} {ds : List Bool} {rc : ResultCode} {r : Option Word} (hb : s.busy = true)
    (hs : s.seq = .idle) (hl : (s.inst i).lines = Lines.idle)
    (hrun : runCommand c m (atLine i Lines.idle s.seqLastT s.trace s.draws (.hostRun (startOf c))
      { s with lastGrant := .host }) = .next (atLine i Lines.idle last tr ds (.hostRun (.finish rc r)) t))
    (hbt : t.busy = true)
    (hf : finishOf c (atLine i Lines.idle last tr ds (.hostRun (.finish rc r)) t) =
      atLine i Lines.idle last tr ds (.hostRun (.finish rc r)) t') (hl' : (t'.inst i).lines = Lines.idle) :
    runCommand c (m + 2) s = .next { t' with
      rc := rc, result := r.getD t.result, busy := false, seq := s.seq, seqLastT := last, draws := ds
      trace := tr } := by
  have hfinish := finishesWith_of hc (atLine i Lines.idle last tr ds (.hostRun (.finish rc r)) t) rc r hbt rfl
  have hinsts : t'.insts.set i.toNat (t'.inst i) i.isLt = t'.insts := by simp [State.inst]
  calc runCommand c (m + 2) s
      = runCommand c (1 + (m + 1)) s := by rw [Nat.add_comm 1]
    _ = runCommand c (m + 1) _ := runCommand_add (m := 1) (m + 1) (run_start hc i hb hs hl)
    _ = runCommand c 1 _ := runCommand_add 1 hrun
    _ = _ := runCommand_one hfinish
    _ = _ := by
      rw [hf, ← hl', hs]
      simp only [atLine, hinsts]

/-! ### REFRESH -/

/-- A refresh of outputs in a run shifts the bytes of OUT in use (R141). -/
theorem outputsOf_atLine (i : InstId) (l : Lines) (last : Word) (tr : List Event) (ds : List Bool) (q : Seq)
    (s : State) : outputsOf i (atLine i l last tr ds q s) = outputsOf i s := by
  simp only [outputsOf, inst_atLine]

theorem outputsOf_length (i : InstId) (s : State) : (outputsOf i s).length = (s.inst i).bc.toNat := by
  simp [outputsOf, boardsFarthestFirst]

section
variable {c : Instr} {i : InstId} {last : Word} {tr : List Event} {ds : List Bool} {s : State} (hb : s.busy = true)
  (h0 : s.params.phaseMinUs = 0)
include hb h0

/-- REFRESH_OUT from its step 1 on idle lines to its end: `24 n + 4` drives (R141). -/
theorem run_refreshOut {at' : WritePos → Pos} {after : Pos} (h : RunsWriteOut c i (outputsOf i) at' after)
    (h1 : 1 ≤ (s.inst i).bc.toNat) :
    runCommand c (24 * (s.inst i).bc.toNat + 4) (atLine i Lines.idle last tr ds (.hostRun (at' .ldLo)) s) =
      .next (atLine i Lines.idle s.time ((writeEvents i s.time (outputsOf i s)).reverse ++ tr) ds (.hostRun after)
        s) := by
  have hlen := outputsOf_length i s
  rw [← hlen]
  exact run_writeOut h hb h0 (outputsOf i s) (List.ne_nil_of_length_pos (by omega)) (outputsOf_atLine ..)

/-- REFRESH_IN from its step 1 on idle lines to its end: `24 n + 4` line steps and the commit (R142). -/
theorem run_refreshIn {at' : ReadPos → Pos} {commit : List Byte → Pos} {after : Pos}
    (h : RunsReadIn c i (fun s => (s.inst i).bc.toNat) at' commit) (hcommit : RunsCommit c i commit after)
    (h1 : 1 ≤ (s.inst i).bc.toNat) {bytes : List Byte} (hlen : bytes.length = (s.inst i).bc.toNat)
    (hl : (s.inst i).lines = Lines.idle) :
    runCommand c (24 * (s.inst i).bc.toNat + 5)
        (atLine i Lines.idle last tr (answersFor bytes ++ ds) (.hostRun (at' .ldHi)) s) =
      .next (atLine i Lines.idle s.time ((readEvents i s.time bytes).reverse ++ tr) ds (.hostRun after)
        (s.setInst i (withCommit (s.inst i) bytes))) := by
  obtain ⟨x, xs, rfl⟩ := List.exists_cons_of_length_pos (l := bytes) (by omega)
  have hread := run_readIn h (last := last) (tr := tr) (ds := ds) hb h0 x xs (by rw [inst_atLine]; exact hlen.symm)
  rw [← hlen]
  exact (runCommand_add 1 hread).trans (run_commit hcommit hb hl)

/-- REFRESH from its step 1 on idle lines to its end: `48 n + 9` steps (R143). -/
theorem run_refresh {atOut : WritePos → Pos} {atIn : ReadPos → Pos} {commit : List Byte → Pos} {after : Pos}
    (hout : RunsWriteOut c i (outputsOf i) atOut (atIn .ldHi))
    (hin : RunsReadIn c i (fun s => (s.inst i).bc.toNat) atIn commit) (hcommit : RunsCommit c i commit after)
    (h1 : 1 ≤ (s.inst i).bc.toNat) {bytes : List Byte} (hlen : bytes.length = (s.inst i).bc.toNat)
    (hl : (s.inst i).lines = Lines.idle) :
    runCommand c (48 * (s.inst i).bc.toNat + 9)
        (atLine i Lines.idle last tr (answersFor bytes ++ ds) (.hostRun (atOut .ldLo)) s) =
      .next (atLine i Lines.idle s.time
        ((writeEvents i s.time (outputsOf i s) ++ readEvents i s.time bytes).reverse ++ tr) ds (.hostRun after)
        (s.setInst i (withCommit (s.inst i) bytes))) := by
  rw [show 48 * (s.inst i).bc.toNat + 9 = 24 * (s.inst i).bc.toNat + 4 + (24 * (s.inst i).bc.toNat + 5) by omega,
    List.reverse_append, List.append_assoc]
  exact (runCommand_add _ (run_refreshOut hb h0 hout h1)).trans (run_refreshIn hb h0 hin hcommit h1 hlen hl)

end

/-! ### MCONS -/

/-- RESET inside a command that writes something of its own in the same step as step 1 (R147), from that step on idle
lines to its end, where the line reads 1 at the first poll: 3 steps. `s'` is `s` with what `entry` writes. -/
theorem run_resetEntry {c : Instr} {i : InstId} {T : Word} {entry : State → State} {after : Bool → Pos}
    (h : RunsReset c i T entry after) (hT : 0 < T) {last : Word} {tr : List Event} {ds : List Bool} {s s' : State}
    (hb : s.busy = true) (h0 : s.params.phaseMinUs = 0) (hb' : s'.busy = true) (h0' : s'.params.phaseMinUs = 0)
    (hentry : entry (atLine i Lines.idle last tr (true :: ds) (.hostRun (.reset .trigX)) s) =
      atLine i Lines.idle last tr (true :: ds) (.hostRun (.reset .trigX)) s') :
    runCommand c 3 (atLine i Lines.idle last tr (true :: ds) (.hostRun (.reset .trigX)) s) =
      .next (atLine i Lines.idle s'.time
        ([Event.drive i .trigX true s'.time, .drive i .trigY true s'.time, .sample i true s'.time].reverse ++ tr) ds
        (.hostRun (after true)) s') := by
  have htrigX : runCommand c 1 (atLine i Lines.idle last tr (true :: ds) (.hostRun (.reset .trigX)) s) =
      .next (atLine i Lines.idle s'.time (.drive i .trigX true s'.time :: tr) (true :: ds)
        (.hostRun (.reset .trigY)) s') := by
    rw [runCommand_one ((h _ 0).1 (atPos_atLine hb h0)), hentry, drive_atLine]
    rfl
  have htrigY : ∀ u : State, u.time = s'.time →
      Goes c u (.reset .trigY) (drive i .trigY true u) (.reset (.poll s'.time)) := fun u hu => hu ▸ (h u 0).2.1
  exact (runCommand_add (m := 1) 2 htrigX).trans <|
    (runCommand_add (m := 1) 1 (run_driveNow hb' h0' htrigY)).trans (run_resetPolls h hT hb' h0' 0 _)

/-- An instance as the init of MCONS leaves it (R147). -/
def initialised (x : Instance) (n : BitVec 3) : Instance :=
  { x with bc := n, out := Bank.zero, inp := Bank.zero, prev := Bank.zero }

theorem constructInit_eq (i : InstId) (n : BitVec 3) (s : State) :
    constructInit i n s = s.setInst i (initialised (s.inst i) n) := rfl

/-- The init of MCONS in a run (R147). -/
theorem constructInit_atLine (i : InstId) (n : BitVec 3) (last : Word) (tr : List Event) (ds : List Bool) (q : Seq)
    {s : State} (hl : (s.inst i).lines = Lines.idle) :
    constructInit i n (atLine i Lines.idle last tr ds q s) =
      atLine i Lines.idle last tr ds q (s.setInst i (initialised (s.inst i) n)) := by
  rw [constructInit_eq, inst_atLine, ← hl]
  exact setInst_atLine i _ last tr ds q s rfl

/-- What the finish of MCONS writes of its own, in a run (R147). -/
theorem markConstructed_atLine (i : InstId) (last : Word) (tr : List Event) (ds : List Bool) (q : Seq) {s : State}
    (hl : (s.inst i).lines = Lines.idle) :
    markConstructed i (atLine i Lines.idle last tr ds q s) =
      atLine i Lines.idle last tr ds q (s.setInst i { s.inst i with cons := true }) := by
  rw [markConstructed, inst_atLine, ← hl]
  exact setInst_atLine i _ last tr ds q s rfl

/-- The bytes of OUT in use right after the init are zero (R147). -/
theorem outputsOf_initialised (i : InstId) (n : BitVec 3) (s : State) (x : Instance) :
    outputsOf i (s.setInst i (initialised x n)) = List.replicate n.toNat 0 := by
  simp [outputsOf, boardsFarthestFirst, initialised, List.map_const']

/-- The commit right after the init leaves PREV zero and IN the bytes read (R142, R147). -/
theorem withCommit_initialised (x : Instance) (n : BitVec 3) (bytes : List Byte) :
    withCommit (initialised x n) bytes = { initialised x n with
      prev := #v[0, 0, 0, 0], inp := #v[bytes.getD 0 0, bytes.getD 1 0, bytes.getD 2 0, bytes.getD 3 0] } := by
  simp [withCommit, committedPrev, committedIn, initialised]

/-- A COUNT other than 0 is the number of boards (R73). -/
theorem boardCount_of_pos {n : BitVec 3} (h : 1 ≤ n.toNat) : boardCount n = n := by
  refine if_neg fun hn => ?_
  rw [hn] at h
  cases h

/-- MCONS from its WRITEOUT in reset mode on idle lines to its finish (R147): `48 n + 109` steps. -/
theorem run_mconsAfterReset (i : InstId) (n : BitVec 3) (ok : Bool) {last : Word} {tr : List Event} {ds : List Bool}
    {bytes : List Byte} {s : State} (hb : s.busy = true) (h0 : s.params.phaseMinUs = 0)
    (h1 : 1 ≤ (s.inst i).bc.toNat) (hlen : bytes.length = (s.inst i).bc.toNat) (hl : (s.inst i).lines = Lines.idle) :
    runCommand (.mcons i n) (48 * (s.inst i).bc.toNat + 109)
        (atLine i Lines.idle last tr (answersFor bytes ++ ds) (.hostRun (.zero ok .ldLo)) s) =
      .next (atLine i Lines.idle s.time
        ((writeEvents i s.time [0, 0, 0, 0] ++ (writeEvents i s.time (outputsOf i s) ++
          readEvents i s.time bytes)).reverse ++ tr) ds
        (.hostRun (.finish (if ok then .ok else .timeout) (some (if ok then 1 else 0))))
        (s.setInst i (withCommit (s.inst i) bytes))) := by
  have hzero := run_writeOut (mcons_runsZero i n ok) (last := last) (tr := tr) (ds := answersFor bytes ++ ds) hb h0
    [0, 0, 0, 0] (by simp) rfl
  have hrefresh := run_refresh (last := s.time) (tr := (writeEvents i s.time [0, 0, 0, 0]).reverse ++ tr) (ds := ds)
    hb h0 (mcons_runsWriteOut i n ok) (mcons_runsReadIn i n ok) (mcons_runsCommit i n ok) h1 hlen hl
  rw [show 48 * (s.inst i).bc.toNat + 109 = 100 + (48 * (s.inst i).bc.toNat + 9) by omega, List.reverse_append,
    List.append_assoc]
  exact (runCommand_add (m := 100) _ hzero).trans hrefresh

/-- The line program of MCONS from its step 1 on idle lines to its finish, where the line reads 1 at the first poll:
`48 n + 112` steps (R147). -/
theorem run_mcons (i : InstId) {n : BitVec 3} (h1 : 1 ≤ n.toNat) {bytes : List Byte} (hlen : bytes.length = n.toNat)
    {last : Word} {tr : List Event} {ds : List Bool} {s : State} (hb : s.busy = true) (h0 : s.params.phaseMinUs = 0)
    (hl : (s.inst i).lines = Lines.idle) :
    runCommand (.mcons i n) (48 * n.toNat + 112)
        (atLine i Lines.idle last tr (true :: (answersFor bytes ++ ds)) (.hostRun (.reset .trigX)) s) =
      .next (atLine i Lines.idle s.time
        (([Event.drive i .trigX true s.time, .drive i .trigY true s.time, .sample i true s.time] ++
          writeEvents i s.time [0, 0, 0, 0] ++ writeEvents i s.time (List.replicate n.toNat 0) ++
          readEvents i s.time bytes).reverse ++ tr) ds (.hostRun (.finish .ok (some 1)))
        (s.setInst i (withCommit (initialised (s.inst i) n) bytes))) := by
  have hentry := constructInit_atLine i n last tr (true :: (answersFor bytes ++ ds)) (.hostRun (.reset .trigX)) hl
  have hruns := mcons_runsReset i n
  rw [boardCount_of_pos h1] at hruns
  have hreset := run_resetEntry hruns (by decide) hb h0 (by exact hb) (by exact h0) hentry
  have hinst := inst_setInst_self s i (initialised (s.inst i) n)
  have hbc : ((s.setInst i (initialised (s.inst i) n)).inst i).bc = n := by rw [hinst]; rfl
  have hrest := run_mconsAfterReset i n true (last := s.time)
    (tr := [Event.drive i .trigX true s.time, .drive i .trigY true s.time, .sample i true s.time].reverse ++ tr)
    (ds := ds) (bytes := bytes) (s := s.setInst i (initialised (s.inst i) n)) hb h0 (by rw [hbc]; exact h1)
    (by rw [hbc]; exact hlen) (by rw [hinst]; exact hl)
  rw [hbc, hinst, outputsOf_initialised, setInst_setInst] at hrest
  rw [show 48 * n.toNat + 112 = 3 + (48 * n.toNat + 109) by omega, List.append_assoc, List.append_assoc,
    List.reverse_append, List.append_assoc]
  exact (runCommand_add (m := 3) _ hreset).trans hrest

end Sys2Proof.Machine

namespace Sys2Proof

open Machine

/-! ### The commands, whole -/

/-- Settles O36: the grant, REFRESH_OUT (`run_refreshOut`), REFRESH_IN (`run_refreshIn`) or both (`run_refresh`), the
finish. -/
theorem refreshRuns : Obligations.RefreshRuns := by
  unfold Obligations.RefreshRuns
  intro i s h1 _ hb hs h0 hl
  refine ⟨?_, fun bytes rest hlen hd => ⟨?_, ?_⟩⟩
  · have hrun := run_refreshOut (last := s.seqLastT) (tr := s.trace) (ds := s.draws)
      (s := { s with lastGrant := .host }) hb h0 (refo_runsWriteOut i) h1
    exact run_whole rfl rfl i hb hs hl hrun
  · have hrun := run_refreshIn (last := s.seqLastT) (tr := s.trace) (ds := rest) (s := { s with lastGrant := .host })
      hb h0 (refi_runsReadIn i) (refi_runsCommit i) h1 hlen hl
    rw [← hd] at hrun
    exact run_grantToFinish rfl i hb hs hl hrun hb rfl (by rw [inst_setInst_self]; exact hl)
  · have hrun := run_refresh (last := s.seqLastT) (tr := s.trace) (ds := rest) (s := { s with lastGrant := .host })
      hb h0 (ref_runsWriteOut i) (ref_runsReadIn i) (ref_runsCommit i) h1 hlen hl
    rw [← hd] at hrun
    exact run_grantToFinish rfl i hb hs hl hrun hb rfl (by rw [inst_setInst_self]; exact hl)

/-- Settles O39: the grant, the init with RESET (`run_resetEntry`), WRITEOUT in reset mode, REFRESH (`run_refresh`), the
finish. -/
theorem mconsRun : Obligations.MconsRun := by
  unfold Obligations.MconsRun
  intro i n bytes rest s h1 _ hlen hd hb hs h0 hl
  have hrun := run_mcons i h1 hlen (last := s.seqLastT) (tr := s.trace) (ds := rest)
    (s := { s with lastGrant := .host }) hb h0 hl
  rw [← hd, withCommit_initialised] at hrun
  have hfinish := run_grantToFinish rfl i hb hs hl hrun hb
    (markConstructed_atLine i _ _ _ _ (by rw [inst_setInst_self]; exact hl))
    (by rw [inst_setInst_self, inst_setInst_self]; exact hl)
  rw [setInst_setInst, inst_setInst_self] at hfinish
  exact hfinish

end Sys2Proof
end

section
/-! The registry commands (spec/43_registry.md): MMUTE (R162), the grant of MREG (R161), which steps change the registry
(R160, R176), and that a registration followed by its destruction leaves nothing behind (R164). -/

namespace Sys2Proof.Machine

/-! ### MMUTE and MREG -/

/-- Settles O16: the effect of MMUTE on a constructed instance replaces its MUTE alone. -/
theorem mmuteRule : Obligations.MmuteRule := by
  unfold Obligations.MmuteRule
  exact ⟨fun w h => decode_of_opcode (c := .mmute 0 false) h, fun i v s =>
    ⟨rejectsUnconstructed_of rfl rfl rfl s, fun hk => exec_cache_constructed rfl rfl rfl rfl hk⟩⟩

/-- Settles O17: the grant runs `register` with the period, an immediate of 0 standing for 3000, and finishes. -/
theorem mregRule : Obligations.MregRule := by
  unfold Obligations.MregRule
  refine ⟨fun w h => decode_of_opcode (c := .mreg 0 0) h, fun i imm =>
    ⟨issues_of rfl (by simp [cmdClass]) (by simp [argsLegal]), fun s hb hs => ?_⟩⟩
  rw [exec_grantRegistry rfl hb hs]
  rfl

/-! ### Which steps change the registry -/

/-- While SEQ is not IDLE a waiting command of class R has no step (R160, R176). -/
theorem exec_registry_waits {c : Instr} (hc : cmdClass c = .registry) {s : State} (hb : s.busy = true)
    (hs : s.seq ≠ .idle) : exec c s = .next s := by
  rw [exec_registry c hc]
  obtain ⟨hidle, -⟩ | ⟨-, hidle, -⟩ | ⟨-, -, he⟩ := registryCommand_cases c (effectOf c) s
  · simp [hb] at hidle
  · exact absurd hidle hs
  · rw [he]

/-- A tick does not change the registry (R178). -/
@[simp] theorem tbStep_regOrder (s : State) : (tbStep s).regOrder = s.regOrder :=
  (act_kept (a := .tb) nofun nofun rfl).1.regOrder

/-- A turn step of a round does not change the registry (R182). -/
@[simp] theorem turnStep_regOrder (s : State) : (turnStep s).regOrder = s.regOrder := by
  unfold turnStep
  split
  · rfl
  · split <;> rfl

/-- The issue of a command does not change the registry (R172). -/
@[simp] theorem issueJob_regOrder (c : Instr) (s : State) : (issueJob c s).regOrder = s.regOrder := by
  obtain ⟨rc, -, he⟩ | ⟨-, he⟩ := issueJob_cases c s <;> rw [he]

/-- A command of class C does not change the registry (R121). -/
theorem cacheCommand_regOrder (c : Instr) (s : State) :
    (cacheCommand c (cacheEffectOf c) s).regOrder = s.regOrder := by
  obtain ⟨rc, -, he⟩ | ⟨-, he⟩ := cacheCommand_cases c (cacheEffectOf c) s
  · rw [he]
  · rw [he]
    cases c <;> rfl

/-- What a class S command writes at its finish is not the registry (R177). -/
theorem finishOf_regOrder (c : Instr) (s : State) : (finishOf c s).regOrder = s.regOrder := by
  cases c <;> rfl

theorem LineStep.regOrder {i : InstId} {roles : List Role} {s t : State} (h : LineStep i roles s t) :
    t.regOrder = s.regOrder := by
  cases h <;> simp

/-- A line step or commit of a host job does not change the registry (R176). -/
theorem runOf_regOrder {c : Instr} {p q : Pos} {s t : State} (h : runOf c p s = some (t, q)) :
    t.regOrder = s.regOrder := by
  obtain ⟨i, -, hk⟩ := run_kind h
  cases hk with
  | reset _ _ _ hl => exact hl.regOrder
  | write _ _ _ hl => exact hl.regOrder
  | read _ _ _ hl => exact hl.regOrder
  | analog _ _ _ hl => exact hl.regOrder
  | init n _ _ _ ht =>
    subst ht
    rfl
  | commit _ bytes _ _ => rfl

/-- A step of the refresh in a round does not change the registry (R182). -/
theorem refreshStep_regOrder (j : InstId) (p : RefreshPos) (s : State) :
    (refreshStep j p s).state.regOrder = s.regOrder := by
  obtain ⟨-, -, -, -, -, -, -, hreg⟩ := shared_inv (refreshStep_frame j p s).shared
  exact hreg

/-- Of the class R commands only MREG and MDESTROY change the registry (R148, R149, R161). -/
theorem effectOf_regOrder (c : Instr) (s : State) :
    (effectOf c s).regOrder = s.regOrder ∨ (∃ i p, c = .mreg i p) ∨ ∃ i, c = .mdestroy i := by
  cases c
  case mreg i p => exact .inr (.inl ⟨i, p, rfl⟩)
  case mdestroy i => exact .inr (.inr ⟨i, rfl⟩)
  all_goals exact .inl rfl

/-- The step from `s` is the grant of an MREG or an MDESTROY. -/
def GrantsRegistration (s : State) : Prop :=
  nextAction s = .seq ∧ s.seq = .idle ∧ s.busy = true ∧
    ∃ i, (∃ p, decode s.jobWord = .ok (.mreg i p)) ∨ decode s.jobWord = .ok (.mdestroy i)

/-- No kind of step changes the registry but a reset and the grant of an MREG or an MDESTROY (R160). -/
theorem StepKind.regOrder {s u t : State} (hk : StepKind s u t) :
    t.regOrder = u.regOrder ∨ nextAction s = .reset ∨ GrantsRegistration s := by
  cases hk with
  | reset ha => exact .inr (.inl ha)
  | grantRegistry c ha hs hb hw =>
    obtain he | ⟨i, p, rfl⟩ | ⟨i, rfl⟩ := effectOf_regOrder c { u with lastGrant := .host }
    · exact .inl he
    · exact .inr (.inr ⟨ha, hs, hb, i, .inl ⟨p, hw⟩⟩)
    · exact .inr (.inr ⟨ha, hs, hb, i, .inr hw⟩)
  | cache w c => exact .inl (cacheCommand_regOrder c { u with cmdReg := w })
  | issue w c => exact .inl (issueJob_regOrder c { u with cmdReg := w })
  | program _ _ _ _ _ _ _ _ _ _ _ hrun =>
    have h := runOf_regOrder hrun
    exact .inl h
  | finish c => exact .inl (finishOf_regOrder c u)
  | turn => exact .inl (turnStep_regOrder u)
  | refresh j p _ _ _ _ _ hstep =>
    have h := refreshStep_regOrder j p u
    rw [hstep] at h
    exact .inl h
  | commit j p _ _ _ _ hstep =>
    have h := refreshStep_regOrder j p u
    rw [hstep] at h
    exact .inl h
  | tb => exact .inl (tbStep_regOrder u)
  | _ => exact .inl rfl

/-- Settles O20: a class R command waits for SEQ = IDLE (`exec_registry_waits`), and no other kind of step changes the
registry (`StepKind.regOrder`). -/
theorem registryDiscipline : Obligations.RegistryDiscipline := by
  unfold Obligations.RegistryDiscipline
  refine ⟨fun c s hc hb hs => exec_registry_waits hc hb hs, fun s t hst hne => ?_⟩
  obtain he | hgrant := (step_kind hst).regOrder
  · exact absurd (he.trans (dropAction_regOrder s)) hne
  · exact hgrant

/-! ### Registering and destroying -/

/-- The state after the grant of the class R command `c` as the job that waits (R176). -/
def granted (c : Instr) (s : State) : State :=
  finish .ok none (effectOf c { s with busy := true, lastGrant := .host })

theorem grantEach_cons {c : Instr} (hc : cmdClass c = .registry) (cs : List Instr) {s : State} (hs : s.seq = .idle) :
    grantEach (c :: cs) s = grantEach cs (granted c s) := by
  have hgrant : exec c { s with busy := true } = .next (granted c s) := exec_grantRegistry hc rfl hs
  rw [grantEach, hgrant]

/-- The registry after the grant of an MREG (R161). -/
theorem granted_mreg_regOrder (i : InstId) (p : BitVec 16) (s : State) :
    (granted (.mreg i p) s).regOrder = if i ∈ s.regOrder then s.regOrder else s.regOrder ++ [i] := rfl

theorem mem_granted_mreg {i j : InstId} {p : BitVec 16} {s : State} :
    j ∈ (granted (.mreg i p) s).regOrder ↔ j ∈ s.regOrder ∨ j = i := by
  rw [granted_mreg_regOrder]
  by_cases hm : i ∈ s.regOrder
  · rw [if_pos hm]
    exact ⟨.inl, fun h => h.elim id fun e => e ▸ hm⟩
  · simp [hm]

/-- The registry after the grant of an MDESTROY (R148, R163). -/
theorem granted_mdestroy_regOrder (i : InstId) (s : State) :
    (granted (.mdestroy i) s).regOrder = s.regOrder.erase i := by
  simp only [granted, effectOf, destroyInst, clearInst, deregister_eq, finish_regOrder, setInst_regOrder]
  split
  case isTrue h => exact h.2.symm
  case isFalse => rfl

/-- The timer's attachment after the grant of an MDESTROY (R163). -/
theorem granted_mdestroy_tmrAttached (i : InstId) (s : State) : (granted (.mdestroy i) s).tmrAttached =
    if i ∈ s.regOrder ∧ s.regOrder.erase i = [] then false else s.tmrAttached := by
  simp only [granted, effectOf, destroyInst, clearInst, deregister_eq, finish_tmrAttached, setInst_tmrAttached]
  split <;> rfl

/-- The members of the registry are distinct, and the timer is attached only while there is one (R39, R164). -/
structure RegistryOk (s : State) : Prop where
  distinct : s.regOrder.Nodup
  attached : s.tmrAttached = true → s.regOrder ≠ []

/-- MREG keeps the registry sound (R161). -/
theorem RegistryOk.granted_mreg {s : State} (h : RegistryOk s) (i : InstId) (p : BitVec 16) :
    RegistryOk (granted (.mreg i p) s) where
  distinct := by
    by_cases hm : i ∈ s.regOrder
    · rw [granted_mreg_regOrder, if_pos hm]
      exact h.distinct
    · rw [granted_mreg_regOrder, if_neg hm]
      exact List.nodup_append_comm.mp (List.nodup_cons.mpr ⟨hm, h.distinct⟩)
  attached _ := List.ne_nil_of_mem (mem_granted_mreg.mpr (.inr rfl))

/-- MDESTROY keeps the registry sound: it detaches the timer when the last member leaves (R148, R163). -/
theorem RegistryOk.granted_mdestroy {s : State} (h : RegistryOk s) (i : InstId) :
    RegistryOk (granted (.mdestroy i) s) where
  distinct := by
    rw [granted_mdestroy_regOrder]
    exact h.distinct.erase i
  attached := by
    rw [granted_mdestroy_regOrder, granted_mdestroy_tmrAttached]
    intro ha he
    by_cases hm : i ∈ s.regOrder
    · simp [hm, he] at ha
    · rw [if_neg (fun hlast => hm hlast.1)] at ha
      exact h.attached ha (List.erase_of_not_mem hm ▸ he)

/-- A list of MREG and MDESTROY destroys every member of the registry: those of `s`, and those it registers itself. -/
structure Drains (cs : List Instr) (s : State) : Prop where
  commands : ∀ c ∈ cs, (∃ i p, c = .mreg i p) ∨ (∃ i, c = .mdestroy i)
  registered : ∀ i p before after, cs = before ++ .mreg i p :: after → .mdestroy i ∈ after
  members : ∀ i ∈ s.regOrder, .mdestroy i ∈ cs

/-- The commands after the first one destroy what the first one leaves registered. -/
theorem Drains.tail {c : Instr} {cs : List Instr} {s t : State} (h : Drains (c :: cs) s)
    (hm : ∀ i ∈ t.regOrder, .mdestroy i ∈ cs) : Drains cs t where
  commands d hd := h.commands d (List.mem_cons_of_mem c hd)
  registered i p before after he := h.registered i p (c :: before) after (by rw [he, List.cons_append])
  members := hm

theorem Drains.granted_mreg {i : InstId} {p : BitVec 16} {cs : List Instr} {s : State}
    (h : Drains (.mreg i p :: cs) s) : Drains cs (granted (.mreg i p) s) := by
  refine h.tail fun j hj => ?_
  obtain hj | rfl := mem_granted_mreg.mp hj
  · simpa using h.members j hj
  · exact h.registered j p [] cs rfl

theorem Drains.granted_mdestroy {i : InstId} {cs : List Instr} {s : State} (h : Drains (.mdestroy i :: cs) s)
    (hd : s.regOrder.Nodup) : Drains cs (granted (.mdestroy i) s) := by
  refine h.tail fun j hj => ?_
  rw [granted_mdestroy_regOrder, hd.mem_erase_iff] at hj
  simpa [hj.1] using h.members j hj.2

/-- The grants of a list that destroys every member end with an empty registry and the timer detached (R164). -/
theorem grantEach_drains (cs : List Instr) : ∀ {s : State}, s.seq = .idle → RegistryOk s → Drains cs s →
    ∃ t, grantEach cs s = .next t ∧ t.regOrder = [] ∧ t.tmrAttached = false := by
  induction cs with
  | nil =>
    intro s _ hok hd
    have hnil : s.regOrder = [] := List.eq_nil_iff_forall_not_mem.mpr fun i hi => nomatch hd.members i hi
    exact ⟨s, rfl, hnil, Bool.eq_false_iff.mpr fun ha => hok.attached ha hnil⟩
  | cons c cs ih =>
    intro s hs hok hd
    obtain ⟨i, p, rfl⟩ | ⟨i, rfl⟩ := hd.commands c List.mem_cons_self
    · rw [grantEach_cons rfl cs hs]
      exact ih rfl (hok.granted_mreg i p) hd.granted_mreg
    · rw [grantEach_cons rfl cs hs]
      exact ih rfl (hok.granted_mdestroy i) (hd.granted_mdestroy hok.distinct)

/-- Settles O21: the empty registry is sound and has no member that would have to be destroyed. -/
theorem registryDrains : Obligations.RegistryDrains := by
  unfold Obligations.RegistryDrains
  intro s cs hs hr ha hcs hreg
  have hok : RegistryOk s := ⟨by simp [hr], by simp [ha]⟩
  exact grantEach_drains cs hs hok ⟨hcs, hreg, by simp [hr]⟩

end Sys2Proof.Machine
end

section
/-! Commands run by the agents, the timebase, the arbiter and the rounds (spec/60_exceptions.md): the issue of a command
(R172, R190), the tick (R178, R180), the arbiter's choice (R181), a turn (R182, R185), and what a round and a host job
can be taken to (R184, R186). -/

namespace Sys2Proof.Machine

/-! ### The write to CMD and the step of the host job -/

/-- A write to CMD is dropped while BUSY = 1 (R190). -/
theorem writeCmd_dropped {s : State} (hb : s.busy = true) (w : Word) :
    writeCmd w s = .next { s with overrun := true } := by
  simp [writeCmd, hb]

/-- A write to CMD runs the command of its word (R172). -/
theorem writeCmd_command {s : State} (hb : s.busy = false) {w : Word} {c : Instr} (hw : decode w = .ok c) :
    writeCmd w s = exec c { s with cmdReg := w } := by
  simp [writeCmd, hb, hw]

/-- The step of the host job runs the command in JOB (R176). -/
theorem jobStep_command {s : State} (hb : s.busy = true) {c : Instr} (hw : decode s.jobWord = .ok c)
    (hc : cmdClass c ≠ .cache) : jobStep s = exec c s := by
  simp [jobStep, hb, hw, hc]

/-- The host's write of a command word runs its command. -/
theorem step_writeCmd {s : State} {w : Word} {rest : List Action} {c : Instr} (h : s.script = .regWrite 0 w :: rest)
    (hb : s.busy = false) (hw : decode w = .ok c) : step s = exec c { s with script := rest, cmdReg := w } := by
  rw [step_of_script h]
  exact writeCmd_command (s := { s with script := rest }) hb hw

/-- The command of a word of 32 bits (R70). -/
theorem decode_of_tableWord {w : Nat} {c : Instr} (hlt : w < 2 ^ 32) (h : decodeTableWord 32 w = some c) :
    decode (BitVec.ofNat 32 w) = .ok c := by
  rw [decodeTableWord, Nat.mod_eq_of_lt hlt] at h
  split at h
  · cases h
    assumption
  · cases h

/-- Settles O5: `withFetchWord` lists the write of its word, which runs the word's command (`step_writeCmd`). -/
theorem stepRunsCommand : Obligations.StepRunsCommand := by
  unfold Obligations.StepRunsCommand
  refine ⟨fun s w rest c h hb hw => step_writeCmd h hb hw, fun s w c hb hlt hw => ?_⟩
  have hscript : (s.withFetchWord 32 w).script = .regWrite 0 (BitVec.ofNat 32 w) :: s.script := by
    rw [State.withFetchWord, Nat.mod_eq_of_lt hlt]
  exact step_writeCmd hscript hb (decode_of_tableWord hlt hw)

/-- While a host job runs a SEQ step is the step of the job (R176). -/
theorem seqStep_hostRun_eq {s : State} {p : Pos} (hs : s.seq = .hostRun p) : seqStep s = jobStep s := by
  simp only [seqStep, hs]

/-- Settles O6: a SEQ step of a running job is the step of the job. -/
theorem stepRunsJob : Obligations.StepRunsJob := by
  unfold Obligations.StepRunsJob
  intro s rest p c h hb hs hw hc
  rw [step_of_script h, act, seqStep_hostRun_eq (s := { s with script := rest }) hs]
  exact jobStep_command (s := { s with script := rest }) hb hw hc

/-! ### OVERRUN -/

/-- A step of a command's line program leaves the shared state alone (R176). -/
theorem runOf_shared {c : Instr} {p q : Pos} {s t : State} (h : runOf c p s = some (t, q)) : SameShared s t := by
  obtain ⟨i, -, hk⟩ := run_kind h
  cases hk with
  | reset _ _ _ hl | write _ _ _ hl | read _ _ _ hl | analog _ _ _ hl => exact hl.frame.shared
  | init n _ _ _ ht =>
    subst ht
    simp [SameShared, constructInit]
  | commit _ bytes _ _ => exact (commitInputs_frame i bytes s).shared

theorem SameShared.overrun {s t : State} (h : SameShared s t) : t.overrun = s.overrun := by
  obtain ⟨-, -, -, ho, -⟩ := h
  exact ho

/-- A command of class C does not write OVERRUN (R121). -/
theorem cacheCommand_overrun (c : Instr) (s : State) :
    (cacheCommand c (cacheEffectOf c) s).overrun = s.overrun := by
  obtain ⟨rc, -, he⟩ | ⟨-, he⟩ := cacheCommand_cases c (cacheEffectOf c) s <;> rw [he]
  cases c <;> rfl

/-- The issue of a job does not write OVERRUN (R172). -/
theorem issueJob_overrun (c : Instr) (s : State) : (issueJob c s).overrun = s.overrun := by
  obtain ⟨rc, -, he⟩ | ⟨-, he⟩ := issueJob_cases c s <;> rw [he]

/-- The effect of a class R command is not on OVERRUN (R148, R149, R161). -/
theorem effectOf_overrun (c : Instr) (s : State) : (effectOf c s).overrun = s.overrun := by
  cases c
  case mdestroy i =>
    simp only [effectOf, destroyInst, clearInst, deregister_eq, setInst_overrun]
    split <;> rfl
  all_goals rfl

/-- A class S command writes no OVERRUN at its finish (R177). -/
theorem finishOf_overrun (c : Instr) (s : State) : (finishOf c s).overrun = s.overrun := by
  cases c <;> rfl

/-- Nor does a turn step of a round (R182). -/
theorem turnStep_overrun (s : State) : (turnStep s).overrun = s.overrun := by
  unfold turnStep
  split
  · rfl
  · split <;> rfl

/-- Nor does a tick (R178). -/
theorem tbStep_overrun (s : State) : (tbStep s).overrun = s.overrun := by
  unfold tbStep periodicTick
  split
  · split
    · split <;> rfl
    · rfl
  · rfl

/-- OVERRUN, once set, stays set in every kind of step but a write of 1 to STATUS[16] and a reset (R43, R190). -/
theorem StepKind.overrun_sticky {s u t : State} (hk : StepKind s u t) (hu : u.overrun = true) :
    t.overrun = true ∨ nextAction s = .reset ∨ ∃ v, nextAction s = .regWrite 2 v ∧ v.getLsbD 16 = true := by
  cases hk with
  | reset ha => exact .inr (.inl ha)
  | status v ha =>
    cases hv : v.getLsbD 16 with
    | true => exact .inr (.inr ⟨v, ha, hv⟩)
    | false => exact .inl (by rw [writeStatus, hu, hv]; rfl)
  | dropped => exact .inl rfl
  | cache w c => exact .inl ((cacheCommand_overrun c _).trans hu)
  | issue w c => exact .inl ((issueJob_overrun c _).trans hu)
  | grantRegistry c => exact .inl ((effectOf_overrun c _).trans hu)
  | program _ _ _ _ _ _ _ _ _ _ _ hrun => exact .inl ((runOf_shared hrun).overrun.trans hu)
  | finish c => exact .inl ((finishOf_overrun c u).trans hu)
  | turn => exact .inl ((turnStep_overrun u).trans hu)
  | refresh j p _ _ _ _ _ hstep | commit j p _ _ _ _ hstep =>
    have h := (refreshStep_frame j p u).shared.overrun
    rw [hstep] at h
    exact .inl (h.trans hu)
  | tb => exact .inl ((tbStep_overrun u).trans hu)
  | _ => exact .inl hu

/-- Settles O8: the write is dropped (`writeCmd_dropped`), and no other kind of step clears OVERRUN. -/
theorem droppedWhileBusy : Obligations.DroppedWhileBusy := by
  unfold Obligations.DroppedWhileBusy
  refine ⟨fun s w rest h hb => ?_, fun s t h hs ht => ?_⟩
  · rw [step_of_script h]
    exact writeCmd_dropped (s := { s with script := rest }) hb w
  · obtain hset | hcleared := (step_kind h).overrun_sticky ((dropAction_overrun s).trans hs)
    · simp [ht] at hset
    · exact hcleared

/-! ### The timebase -/

/-- A tick while the timer is detached (R178). -/
theorem tbStep_detached {s : State} (h : s.tmrAttached = false) : tbStep s = { s with time := s.time + 1 } := by
  simp [tbStep, h]

/-- A tick that does not complete the period (R178). -/
theorem tbStep_counts {s : State} (h : s.tmrAttached = true) (hc : s.tmrCount.toNat + 1 < s.tmrPeriod.toNat) :
    tbStep s = { s with time := s.time + 1, tmrCount := s.tmrCount + 1 } := by
  rw [tbStep, if_pos h, if_neg (by omega)]

/-- A tick that completes the period makes the periodic tick (R178, R180). -/
theorem tbStep_ticks {s : State} (h : s.tmrAttached = true) (hc : s.tmrPeriod.toNat ≤ s.tmrCount.toNat + 1) :
    tbStep s = periodicTick { s with time := s.time + 1, tmrCount := 0 } := by
  rw [tbStep, if_pos h, if_pos hc]

/-- Settles O46: `tbStep` case by case, the last one by whether a round is pending already. -/
theorem tbRule : Obligations.TbRule := by
  unfold Obligations.TbRule
  intro s rest h
  rw [step_of_script h, act]
  refine ⟨fun ha => ?_, fun ha hc => ?_, fun ha hc hp => ?_, fun ha hc hp => ?_⟩
  · rw [tbStep_detached (s := { s with script := rest }) ha]
  · rw [tbStep_counts (s := { s with script := rest }) ha hc]
  · rw [tbStep_ticks (s := { s with script := rest }) ha hc, periodicTick, if_neg (by simp [hp])]
  · rw [tbStep_ticks (s := { s with script := rest }) ha hc, periodicTick, if_pos hp]

/-! ### The arbiter -/

/-- The arbiter grants the waiting job where no round waits, or a round went last (R181). -/
theorem seqStep_grantHost {s : State} (hs : s.seq = .idle) (hb : s.busy = true)
    (hr : s.roundPending = false ∨ s.lastGrant = .round) : seqStep s = jobStep s := by
  have hno : ¬ (s.roundPending = true ∧ s.lastGrant = .host) := by
    rintro ⟨hp, hg⟩
    simp [hp, hg] at hr
  simp [seqStep, hs, pick, hb, hno]

/-- A SEQ step changes nothing where nothing waits (R181). -/
theorem seqStep_nothing {s : State} (hs : s.seq = .idle) (hp : s.roundPending = false) (hb : s.busy = false) :
    seqStep s = .next s := by
  simp [seqStep, hs, pick, hp, hb]

/-- Settles O47: the arbiter grants the round (`seqStep_grantRound`) or the job (`seqStep_grantHost`). -/
theorem arbiterRule : Obligations.ArbiterRule := by
  unfold Obligations.ArbiterRule
  intro s rest h hs
  rw [step_of_script h, act]
  refine ⟨fun hp ha => ?_, fun hb hr c hw hc => ?_, fun hp hb => ?_⟩
  · exact seqStep_grantRound (s := { s with script := rest }) hs hp ha
  · rw [seqStep_grantHost (s := { s with script := rest }) hs hb hr]
    exact jobStep_command (s := { s with script := rest }) hb hw hc
  · exact seqStep_nothing (s := { s with script := rest }) hs hp hb

/-! ### Turns -/

/-- The round ends when every position has had its turn (R182, R185). -/
theorem turnStep_end {s : State} (h : s.regOrder.length ≤ s.roundPos) : turnStep s = endRound s := by
  simp [turnStep, List.getElem?_eq_none h]

/-- A turn of a muted instance is skipped; that of another begins its refresh (R182). -/
theorem turnStep_member {s : State} {j : InstId} (h : s.regOrder[s.roundPos]? = some j) :
    turnStep s = if (s.inst j).mute then { s with roundPos := s.roundPos + 1 }
      else { s with seq := .round (some (.out .ldLo)) } := by
  simp only [turnStep, h]

/-- Between turns a SEQ step is a turn step (R176). -/
theorem seqStep_turn {s : State} (hs : s.seq = .round none) : seqStep s = .next (turnStep s) := by
  simp only [seqStep, hs]

/-- Settles O48: the turn step ends the round (`turnStep_end`), or goes by whether the member is muted. -/
theorem turnRule : Obligations.TurnRule := by
  unfold Obligations.TurnRule
  intro s rest h hs
  rw [step_of_script h, act, seqStep_turn (s := { s with script := rest }) hs]
  refine ⟨fun hend => ?_, fun j hj => ?_⟩
  · rw [turnStep_end (s := { s with script := rest }) hend, endRound]
  · rw [turnStep_member (s := { s with script := rest }) hj]
    exact ⟨fun hm => congrArg _ (if_pos hm), fun hm => congrArg _ (if_neg (Bool.eq_false_iff.mp hm))⟩

end Sys2Proof.Machine
end

section
/-! Rounds and host jobs as SEQ runs them (spec/60_exceptions.md): what a round writes (R186), that neither a job nor a
round gives way to another (R184), and that a turn refreshes as REF does (R176, R182). -/

namespace Sys2Proof.Machine

/-! ### What a round writes -/

theorem RefreshFrame.refl (i : InstId) (s : State) : RefreshFrame i s s := (LineFrame.refl i s).refresh

/-- A refresh step leaves CONS, BC, OUT and MUTE of every instance alone (R141, R142). -/
theorem RefreshFrame.insts {j : InstId} {s t : State} (f : RefreshFrame j s t) (i : InstId) :
    (t.inst i).cons = (s.inst i).cons ∧ (t.inst i).bc = (s.inst i).bc ∧ (t.inst i).out = (s.inst i).out ∧
      (t.inst i).mute = (s.inst i).mute := by
  by_cases hi : j = i
  · subst hi
    exact ⟨f.cons, f.bc, f.out, f.mute⟩
  · rw [f.others i hi]
    exact ⟨rfl, rfl, rfl, rfl⟩

/-- A turn step writes nothing but the round state and SEQ (R182). -/
theorem turnStep_eq (s : State) : ∃ a n q, turnStep s = { s with roundActive := a, roundPos := n, seq := q } := by
  unfold turnStep
  split
  · exact ⟨_, _, _, rfl⟩
  · split <;> exact ⟨_, _, _, rfl⟩

/-- A SEQ step of a round is within the frame of a refresh step, but for the round state and SEQ, and touches at most
the member at ROUND_POS (R176, R182). -/
theorem StepKind.round_frame {s u t : State} {p : Option RefreshPos} (hk : StepKind s u t) (ha : nextAction s = .seq)
    (hs : s.seq = .round p) :
    ∃ v a n q j, t = { v with roundActive := a, roundPos := n, seq := q } ∧ RefreshFrame j u v ∧
      ∀ i, s.regOrder[s.roundPos]? ≠ some i → v.inst i = u.inst i := by
  cases hk with
  | turn =>
    obtain ⟨a, n, q, he⟩ := turnStep_eq u
    exact ⟨u, a, n, q, 0, he, .refl 0 u, fun _ _ => rfl⟩
  | refresh j p _ v _ _ hj hstep | commit j p v _ _ hj hstep =>
    have f := refreshStep_frame j p u
    rw [hstep] at f
    refine ⟨v, _, _, _, j, rfl, f, fun i hi => f.others i ?_⟩
    rintro rfl
    exact hi hj
  | notEnabled => exact ⟨u, _, _, _, 0, rfl, .refl 0 u, fun _ _ => rfl⟩
  -- every other kind is a step of another agent, or of SEQ outside a round
  | _ => simp_all only [reduceCtorEq]

/-- Settles O50: the step is within the frame of a refresh step but for the round state and SEQ. -/
theorem roundFrame : Obligations.RoundFrame := by
  unfold Obligations.RoundFrame
  intro s t p hs ha hstep
  obtain ⟨v, a, n, q, j, rfl, f, hothers⟩ := (step_kind hstep).round_frame ha hs
  obtain ⟨hparams, hcmd, hdata, hover, hlost, htime, hatt, hperiod, hcount, hpend, -, -, hreg, -⟩ := f.shared
  have hinsts := f.insts
  simp only [dropAction_inst] at hinsts hothers
  refine ⟨f.rc.trans ?_, f.result.trans ?_, f.busy.trans ?_, f.jobWord.trans ?_, f.jobData.trans ?_,
    hparams.trans ?_, hcmd.trans ?_, hdata.trans ?_, hover.trans ?_, hlost.trans ?_, htime.trans ?_, hatt.trans ?_,
    hperiod.trans ?_, hcount.trans ?_, hpend.trans ?_, f.lastGrant.trans ?_, hreg.trans ?_, hinsts, hothers⟩ <;> simp

/-! ### No preemption -/

/-- A step of HOST or TB leaves SEQ where it is (R184). -/
theorem step_seq_of_other {s t : State} (h : step s = .next t) (ha : nextAction s ≠ .seq) (hr : nextAction s ≠ .reset) :
    t.seq = s.seq :=
  (act_kept ha hr h).1.seq.trans (dropAction_seq s)

/-- A SEQ step takes a running host job on, or finishes it (R176, R184). -/
theorem StepKind.hostRun {s u t : State} {p : Pos} (hk : StepKind s u t) (ha : nextAction s = .seq)
    (hs : s.seq = .hostRun p) (hu : u.seq = s.seq) :
    (∃ q, t.seq = .hostRun q) ∨ ((∃ rc r, p = .finish rc r) ∧ t.seq = .idle ∧ t.busy = false) := by
  cases hk with
  | program _ _ q => exact .inl ⟨q, rfl⟩
  | finish _ rc r _ hs' =>
    cases hs.symm.trans hs'
    exact .inr ⟨⟨rc, r, rfl⟩, rfl, rfl⟩
  | notEnabled => exact .inl ⟨p, hu.trans hs⟩
  -- every other kind is a step of another agent, or of SEQ outside a host job
  | _ => simp_all only [reduceCtorEq]

/-- A turn step leads to a further step of the round, or to its end (R182). -/
theorem turnStep_round {s : State} (hs : s.seq = .round none) :
    (∃ q, (turnStep s).seq = .round q) ∨ ((turnStep s).seq = .idle ∧ (turnStep s).roundActive = false) := by
  unfold turnStep
  split
  · exact .inr ⟨rfl, rfl⟩
  · split
    · exact .inl ⟨none, hs⟩
    · exact .inl ⟨_, rfl⟩

/-- A SEQ step takes a running round on, or ends it between two turns (R182, R184). -/
theorem StepKind.roundRun {s u t : State} {p : Option RefreshPos} (hk : StepKind s u t) (ha : nextAction s = .seq)
    (hs : s.seq = .round p) (hu : u.seq = s.seq) :
    (∃ q, t.seq = .round q) ∨ (p = none ∧ t.seq = .idle ∧ t.roundActive = false) := by
  cases hk with
  | turn _ hs' =>
    cases hs.symm.trans hs'
    exact (turnStep_round (hu.trans hs)).imp_right fun h => ⟨rfl, h⟩
  | refresh _ _ q => exact .inl ⟨some q, rfl⟩
  | commit => exact .inl ⟨none, rfl⟩
  | notEnabled => exact .inl ⟨p, hu.trans hs⟩
  -- every other kind is a step of another agent, or of SEQ outside a round
  | _ => simp_all only [reduceCtorEq]

/-- Settles O51: only SEQ takes a job or a round on (`step_seq_of_other`), by the kinds of its steps. -/
theorem noPreemption : Obligations.NoPreemption := by
  unfold Obligations.NoPreemption
  intro s t h hr
  have hk := step_kind h
  by_cases ha : nextAction s = .seq
  · exact ⟨fun p hs => hk.hostRun ha hs (dropAction_seq s), fun p hs => hk.roundRun ha hs (dropAction_seq s)⟩
  · have hseq := step_seq_of_other h ha hr
    exact ⟨fun p hs => .inl ⟨p, hseq.trans hs⟩, fun p hs => .inl ⟨p, hseq.trans hs⟩⟩

/-! ### A turn refreshes as REF does -/

section
variable (busy : Bool) (q : Seq)

/-- `s` with other values of BUSY and SEQ, which no step of a refresh reads. -/
def withStage (s : State) : State := { s with busy := busy, seq := q }

theorem sample_withStage (i : InstId) (s : State) :
    sample i (withStage busy q s) = withStage busy q (sample i s) := by
  cases hd : s.draws <;> simp [withStage, sample, record, dropBit, nextBit, hd]

/-- WRITEOUT reads neither BUSY nor SEQ (R98). -/
theorem writeStep_withStage (i : InstId) (bytes : List Byte) (p : WritePos) (s : State) :
    writeStep i bytes p (withStage busy q s) = (writeStep i bytes p s).mapState (withStage busy q) := by
  rcases p with _ | ⟨b, k, x, rest⟩ | _ | _ | _
  case bit => cases b <;> rfl
  all_goals rfl

/-- Nor does READIN (R99). -/
theorem readStep_withStage (i : InstId) (n : Nat) (p : ReadPos) (s : State) :
    readStep i n p (withStage busy q s) = (readStep i n p s).mapState (withStage busy q) := by
  rcases p with _ | m | m | m | ⟨b, m, bytes, k, acc⟩
  case ldLo =>
    simp only [readStep, afterBytes]
    split <;> rfl
  case bit =>
    cases b
    case sample =>
      simp only [readStep, sample_withStage]
      rfl
    case clkLo => rfl
    case clkHi =>
      simp only [readStep, afterBytes]
      split
      · split <;> rfl
      · rfl
  all_goals rfl

/-- Nor does a refresh (R141 to R143). -/
theorem refreshStep_withStage (i : InstId) (p : RefreshPos) (s : State) :
    refreshStep i p (withStage busy q s) = (refreshStep i p s).mapState (withStage busy q) := by
  have hsnap : snapshot i (withStage busy q s) = snapshot i s := rfl
  have hinst : (withStage busy q s).inst i = s.inst i := rfl
  cases p with
  | out r =>
    simp only [refreshStep, refreshOutStep, hsnap, writeStep_withStage]
    cases writeStep i (snapshot i s) r s <;> rfl
  | inp r =>
    simp only [refreshStep, hinst, readStep_withStage]
    cases readStep i (s.inst i).bc.toNat r s <;> rfl
  | commit bytes => rfl

end

/-- A step of REF at a position of its refresh, with the phase hold met (R146). -/
theorem exec_ref_step {i : InstId} {ok : Bool} {p : RefreshPos} {s : State} (hb : s.busy = true)
    (hs : s.seq = .hostRun (.refresh ok p)) (hm : phaseMet s = true) :
    exec (.ref i) s = .next (match refreshStep i p s with
      | .more t q => { t with seq := .hostRun (.refresh ok q) }
      | .done t _ => { t with seq := .hostRun (.finish .ok none) }) := by
  rw [exec_sequenced (.ref i) rfl, sequencedCommand_run _ _ _ _ hb hs (by simp)]
  simp only [programStep, hm, runOf, refRun]
  cases refreshStep i p s <;> simp [Progress.within]

/-- A line step of a turn, with the phase hold met, is one of the refresh of the member at ROUND_POS (R176, R182). -/
theorem seqStep_round_more {s t : State} {p q : RefreshPos} {j : InstId} (hs : s.seq = .round (some p))
    (hj : s.regOrder[s.roundPos]? = some j) (hm : phaseMet s = true) (hr : refreshStep j p s = .more t q) :
    seqStep s = .next { t with seq := .round (some q) } := by
  simp [seqStep, hs, roundLineStep, hj, roundRefreshStep, hm, hr]

/-- A step of REF that stays in its refresh is a line step of a turn with the same position and the same state, but for
BUSY and SEQ (R176, R182). -/
theorem seqStep_round_of_ref {s t : State} {p q : RefreshPos} {j : InstId} (hs : s.seq = .round (some p))
    (hj : s.regOrder[s.roundPos]? = some j) (hm : phaseMet s = true)
    (he : exec (.ref j) (withStage true (.hostRun (.refresh true p)) s) =
      .next { t with seq := .hostRun (.refresh true q) }) :
    seqStep s = .next { t with busy := s.busy, seq := .round (some q) } := by
  have hm' : phaseMet (withStage true (.hostRun (.refresh true p)) s) = true := hm
  rw [exec_ref_step rfl rfl hm', refreshStep_withStage] at he
  have hbusy := (refreshStep_frame j p s).busy
  cases hr : refreshStep j p s with
  | done v r =>
    rw [hr] at he
    have hseq := congrArg State.seq (Host.Outcome.next.inj he)
    simp [Progress.mapState] at hseq
  | more v r =>
    rw [hr] at he hbusy
    have hstate := Host.Outcome.next.inj he
    have hseq := congrArg State.seq hstate
    simp only [Progress.mapState, Seq.hostRun.injEq, Pos.refresh.injEq, true_and] at hseq
    subst hseq
    rw [seqStep_round_more hs hj hm hr, ← hbusy]
    have hround := congrArg (withStage v.busy (.round (some r))) hstate
    exact congrArg Host.Outcome.next hround

/-- Settles O49: a line step is a step of REF (`seqStep_round_of_ref`), the commit is `seqStep_round_commit`. -/
theorem roundRefreshes : Obligations.RoundRefreshes := by
  unfold Obligations.RoundRefreshes
  intro s rest p j h hs hj
  rw [step_of_script h, act]
  refine ⟨fun hm t q he => ?_, ?_⟩
  · exact seqStep_round_of_ref (s := { s with script := rest }) hs hj (decide_eq_true hm) he
  · rintro bytes rfl
    exact seqStep_round_commit (s := { s with script := rest }) hs hj

end Sys2Proof.Machine
end

section
/-! FSRC never stops (spec/60_exceptions.md R170, R187): every step leads to a state, and in a fair execution a job
finishes, a waiting round is granted and a running round ends. What SEQ does next is taken from `Served.step`, the end of
a running round from `Served.round_ends`, that of a running job from `Served.host_ends`; here stands how the grants
follow one another between them. -/

namespace Sys2Proof.Machine

/-! ### No fault -/

/-- Every command leads to a state (R170). -/
theorem exec_next (c : Instr) (s : State) : ∃ t, exec c s = .next t := by
  cases hc : cmdClass c with
  | cache => exact ⟨_, exec_cache c hc s⟩
  | registry => exact ⟨_, exec_registry c hc s⟩
  | sequenced => exact ⟨_, exec_sequenced c hc s⟩

theorem writeCmd_next (w : Word) (s : State) : ∃ t, writeCmd w s = .next t := by
  unfold writeCmd
  split
  · exact ⟨_, rfl⟩
  · split
    · exact ⟨_, rfl⟩
    · exact exec_next _ _

theorem jobStep_next (s : State) : ∃ t, jobStep s = .next t := by
  unfold jobStep
  split
  · split
    · split
      · exact ⟨_, rfl⟩
      · exact exec_next _ _
    · exact ⟨_, rfl⟩
  · exact ⟨_, rfl⟩

theorem seqStep_next (s : State) : ∃ t, seqStep s = .next t := by
  unfold seqStep
  split
  · split
    · exact ⟨_, rfl⟩
    · exact jobStep_next s
    · exact ⟨_, rfl⟩
  · exact jobStep_next s
  · exact ⟨_, rfl⟩
  · exact ⟨_, rfl⟩

theorem writePort_next (slot : BitVec 4) (v : Word) (s : State) : ∃ t, writePort slot v s = .next t := by
  unfold writePort
  split
  · exact writeCmd_next v s
  all_goals exact ⟨_, rfl⟩

/-- Every step of every agent leads to a state (R170). -/
theorem act_next (a : Action) (s : State) : ∃ t, act a s = .next t := by
  cases a with
  | regWrite slot v => exact writePort_next slot v s
  | seq => exact seqStep_next s
  | _ => exact ⟨_, rfl⟩

/-! ### Progress of a served execution -/

section
variable {sched : Nat → Action} {env : Nat → Bool} {run : Nat → State}

/-- A fair execution without a phase hold is served (R11). -/
theorem Execution.served_of_fair (hx : Execution sched env run) (hi : ∀ k, Inv (run k)) (hf : Fair sched run) :
    Served sched env run 0 :=
  ⟨hx, hi, fun _ hr hB w => hx.next_of_fair hi hf hr (Nat.le_zero.mp hB) w⟩

/-- A fair execution in which SEQ steps often enough is served under a phase hold too (R11). -/
theorem Execution.served_of_paced (hx : Execution sched env run) (hi : ∀ k, Inv (run k)) (hf : Fair sched run)
    (hp : Paced sched) : Served sched env run (2 ^ 28) :=
  ⟨hx, hi, fun _ hr hB w => (hx.next_of_paced hi hf hp hr hB w).imp fun _ h => h.1⟩

/-- From step `k` on, in a served execution without a reset: SEQ steps as long as it has something to do. -/
structure ServedFrom (sched : Nat → Action) (env : Nat → Bool) (run : Nat → State) (B k : Nat) : Prop where
  served : Served sched env run B
  noReset : ∀ j, k ≤ j → sched j ≠ .reset
  hold : (run k).params.phaseMinUs ≤ B

/-- The poll loops of a host job end where `W` is known of its command. -/
def PollsEnd (sched : Nat → Action) (run : Nat → State) (B : Nat) (W : Word → Prop) : Prop :=
  ∀ k p t0 d, (∀ j, k ≤ j → sched j ≠ .reset) → (run k).params.phaseMinUs ≤ B → W (run k).jobWord →
    (run k).seq = .hostRun p → p.toPoll = some (t0, d) → LeavesPolls run k p

variable {B k : Nat} {W : Word → Prop}

theorem ServedFrom.later (x : ServedFrom sched env run B k) {m : Nat} (hm : k ≤ m)
    (hp : (run m).params = (run k).params) : ServedFrom sched env run B m :=
  ⟨x.served, fun j hj => x.noReset j (hm.trans hj), hp ▸ x.hold⟩

/-- A running job finishes. -/
theorem ServedFrom.host_ends (x : ServedFrom sched env run B k) (hW : PollsEnd sched run B W) (hw : W (run k).jobWord)
    {p : Pos} (hs : (run k).seq = .hostRun p) :
    ∃ m, k ≤ m ∧ (run m).seq = .idle ∧ (run m).busy = false ∧ (run m).lastGrant = (run k).lastGrant ∧
      ServedFrom sched env run B m := by
  obtain ⟨m, hm, hidle, hbusy, hgrant, hparams⟩ := x.served.host_ends hW _ k p x.noReset x.hold hw hs rfl
  exact ⟨m, hm, hidle, hbusy, hgrant, x.later hm hparams⟩

/-- A running round ends. -/
theorem ServedFrom.round_ends (x : ServedFrom sched env run B k) {p : Option RefreshPos} (hs : (run k).seq = .round p) :
    ∃ m, k ≤ m ∧ (run m).seq = .idle ∧ (run m).roundActive = false ∧ (run m).lastGrant = (run k).lastGrant ∧
      ((run k).busy = true → (run m).busy = true ∧ (run m).jobWord = (run k).jobWord) ∧
      ServedFrom sched env run B m := by
  obtain ⟨m, hm, hidle, hactive, hgrant, hparams, hjob⟩ := x.served.round_ends _ k p x.noReset x.hold hs rfl
  exact ⟨m, hm, hidle, hactive, hgrant, hjob, x.later hm hparams⟩

/-- What the next grant leads to where SEQ is IDLE and something waits (R181): a round is granted unless a job waits and
a round went last; else the job is granted, and it has finished (class R) or runs (class S). -/
inductive Granted (run : Nat → State) (k m : Nat) : Prop where
  | round : ((run k).busy = true →
        (run k).lastGrant = .host ∧ (run m).busy = true ∧ (run m).jobWord = (run k).jobWord) →
      (run m).seq = .round none → (run m).roundPending = false → (run m).lastGrant = .round → Granted run k m
  | finished : ((run k).roundPending = true → (run k).lastGrant = .round) → (run m).lastGrant = .host →
      (run m).busy = false → (run m).seq = .idle → Granted run k m
  | runs (p : Pos) : ((run k).roundPending = true → (run k).lastGrant = .round) → (run m).lastGrant = .host →
      ((run k).busy = true → (run m).jobWord = (run k).jobWord) → (run m).seq = .hostRun p → Granted run k m

/-- Where SEQ is IDLE and something waits, a grant comes (R176, R181). -/
theorem ServedFrom.granted (x : ServedFrom sched env run B k) (hs : (run k).seq = .idle)
    (hw : (run k).busy = true ∨ (run k).roundPending = true) :
    ∃ m, k ≤ m ∧ ServedFrom sched env run B m ∧ Granted run k m := by
  obtain ⟨n, hn, hkept, -, he, hstep⟩ := x.served.step x.noReset x.hold (.inr hw)
  obtain ⟨hparams, hcase⟩ := seqStep_idle ((x.served.inv n).choice (env n)) (hkept.seq.trans hs) he hstep
  refine ⟨n + 1, by omega, x.later (by omega) (hparams.trans hkept.params), ?_⟩
  obtain ⟨-, hfree, ht⟩ | ⟨hturn, hgrant, hjob⟩ := hcase
  · refine .round (fun hb => ?_) (by rw [ht]; rfl) (by rw [ht]; rfl) (by rw [ht]; rfl)
    have hbusy := hkept.busy hb
    have hhost : (run n).lastGrant = .host := hfree.resolve_left (by simp [hbusy])
    rw [ht]
    exact ⟨hkept.lastGrant ▸ hhost, hbusy, hkept.jobWord hb⟩
  · have hlast : (run k).roundPending = true → (run k).lastGrant = .round := fun hp =>
      hkept.lastGrant ▸ hturn.resolve_left (by simp [hkept.pending hp])
    obtain ⟨hfree, hidle⟩ | ⟨-, hword, p, hruns⟩ := hjob
    · exact .finished hlast hgrant hfree hidle
    · exact .runs p hlast hgrant (fun hb => hword.trans (hkept.jobWord hb)) hruns

/-- A job that waits with SEQ IDLE finishes, if a round went last: it is granted next (R181). -/
theorem ServedFrom.job_finishes_of_turn (x : ServedFrom sched env run B k) (hW : PollsEnd sched run B W)
    (hw : W (run k).jobWord) (hb : (run k).busy = true) (hs : (run k).seq = .idle) (hg : (run k).lastGrant = .round) :
    ∃ m, k ≤ m ∧ (run m).busy = false := by
  obtain ⟨m, hm, y, hgrant⟩ := x.granted hs (.inl hb)
  cases hgrant with
  | round hjob =>
    obtain ⟨hhost, -⟩ := hjob hb
    cases hg.symm.trans hhost
  | finished _ _ hfree => exact ⟨m, hm, hfree⟩
  | runs p _ _ hword hs' =>
    obtain ⟨m', hm', -, hfree, -⟩ := y.host_ends hW (hword hb ▸ hw) hs'
    exact ⟨m', hm.trans hm', hfree⟩

/-- A job that waits with SEQ IDLE finishes: it is granted next, or after one round (R187). -/
theorem ServedFrom.job_finishes_of_idle (x : ServedFrom sched env run B k) (hW : PollsEnd sched run B W)
    (hw : W (run k).jobWord) (hb : (run k).busy = true) (hs : (run k).seq = .idle) :
    ∃ m, k ≤ m ∧ (run m).busy = false := by
  obtain ⟨m, hm, y, hgrant⟩ := x.granted hs (.inl hb)
  cases hgrant with
  | round hjob hs' _ hg =>
    obtain ⟨-, hb', hword⟩ := hjob hb
    obtain ⟨n, hn, hidle, -, hg', hjob', z⟩ := y.round_ends hs'
    obtain ⟨hbn, hwordn⟩ := hjob' hb'
    have hwn : W (run n).jobWord := by rwa [hwordn, hword]
    obtain ⟨m', hm', hfree⟩ := z.job_finishes_of_turn hW hwn hbn hidle (hg'.trans hg)
    exact ⟨m', hm.trans (hn.trans hm'), hfree⟩
  | finished _ _ hfree => exact ⟨m, hm, hfree⟩
  | runs p _ _ hword hs' =>
    obtain ⟨m', hm', -, hfree, -⟩ := y.host_ends hW (hword hb ▸ hw) hs'
    exact ⟨m', hm.trans hm', hfree⟩

/-- An outstanding job finishes, wherever SEQ stands (R187). -/
theorem ServedFrom.job_finishes (x : ServedFrom sched env run B k) (hW : PollsEnd sched run B W)
    (hw : W (run k).jobWord) (hb : (run k).busy = true) : ∃ m, k ≤ m ∧ (run m).busy = false := by
  cases hs : (run k).seq with
  | idle => exact x.job_finishes_of_idle hW hw hb hs
  | hostRun p =>
    obtain ⟨m, hm, -, hfree, -⟩ := x.host_ends hW hw hs
    exact ⟨m, hm, hfree⟩
  | round p =>
    obtain ⟨n, hn, hidle, -, -, hjob, y⟩ := x.round_ends hs
    obtain ⟨hbn, hword⟩ := hjob hb
    obtain ⟨m, hm, hfree⟩ := y.job_finishes_of_idle hW (hword ▸ hw) hbn hidle
    exact ⟨m, hn.trans hm, hfree⟩

/-- With SEQ IDLE and a host job granted last, a waiting round is granted next (R181). -/
theorem ServedFrom.round_granted_of_turn (x : ServedFrom sched env run B k) (hs : (run k).seq = .idle)
    (hg : (run k).lastGrant = .host) : ∃ m, k ≤ m ∧ (run m).roundPending = false := by
  cases hp : (run k).roundPending with
  | false => exact ⟨k, le_rfl, hp⟩
  | true =>
    obtain ⟨m, hm, -, hgrant⟩ := x.granted hs (.inr hp)
    cases hgrant with
    | round _ _ hnone => exact ⟨m, hm, hnone⟩
    | finished hturn | runs _ hturn => cases hg.symm.trans (hturn hp)

/-- With SEQ IDLE a waiting round is granted next, or after one host job (R187), whose MDESTROY may drop it (R163). -/
theorem ServedFrom.round_granted_of_idle (x : ServedFrom sched env run B k) (hW : PollsEnd sched run B fun _ => True)
    (hs : (run k).seq = .idle) : ∃ m, k ≤ m ∧ (run m).roundPending = false := by
  cases hp : (run k).roundPending with
  | false => exact ⟨k, le_rfl, hp⟩
  | true =>
    obtain ⟨n, hn, y, hgrant⟩ := x.granted hs (.inr hp)
    cases hgrant with
    | round _ _ hnone => exact ⟨n, hn, hnone⟩
    | finished _ hg _ hidle =>
      obtain ⟨m, hm, hnone⟩ := y.round_granted_of_turn hidle hg
      exact ⟨m, hn.trans hm, hnone⟩
    | runs p _ hg _ hruns =>
      obtain ⟨n', hn', hidle, -, hg', z⟩ := y.host_ends hW trivial hruns
      obtain ⟨m, hm, hnone⟩ := z.round_granted_of_turn hidle (hg'.trans hg)
      exact ⟨m, hn.trans (hn'.trans hm), hnone⟩

/-- A waiting round is granted or dropped, wherever SEQ stands (R187). -/
theorem ServedFrom.round_granted (x : ServedFrom sched env run B k) (hW : PollsEnd sched run B fun _ => True) :
    ∃ m, k ≤ m ∧ (run m).roundPending = false := by
  cases hs : (run k).seq with
  | idle => exact x.round_granted_of_idle hW hs
  | hostRun p =>
    obtain ⟨n, hn, hidle, -, -, y⟩ := x.host_ends hW trivial hs
    obtain ⟨m, hm, hnone⟩ := y.round_granted_of_idle hW hidle
    exact ⟨m, hn.trans hm, hnone⟩
  | round p =>
    obtain ⟨n, hn, hidle, -, -, -, y⟩ := x.round_ends hs
    obtain ⟨m, hm, hnone⟩ := y.round_granted_of_idle hW hidle
    exact ⟨m, hn.trans hm, hnone⟩

/-- An active round ends (R187). -/
theorem ServedFrom.active_ends (x : ServedFrom sched env run B k) (ha : (run k).roundActive = true) :
    ∃ m, k ≤ m ∧ (run m).roundActive = false := by
  obtain ⟨p, hs⟩ := (x.served.inv k).active.mp ha
  obtain ⟨m, hm, -, hend, -⟩ := x.round_ends hs
  exact ⟨m, hm, hend⟩

/-! ### With a reset, and without -/

/-- After a reset no job is outstanding and no round waits or is active (R200). -/
theorem Execution.after_reset (hx : Execution sched env run) {j : Nat} (h : sched j = .reset) :
    (run (j + 1)).busy = false ∧ (run (j + 1)).roundPending = false ∧ (run (j + 1)).roundActive = false := by
  have hstep := hx.act j
  rw [h] at hstep
  rw [← Host.Outcome.next.inj hstep]
  exact ⟨rfl, rfl, rfl⟩

/-- What a reset brings about comes in a served execution that has one, so it remains to show it for those without. -/
theorem Served.eventually (x : Served sched env run B) (hB : (run k).params.phaseMinUs ≤ B) {P : State → Prop}
    (hreset : ∀ s, s.busy = false ∧ s.roundPending = false ∧ s.roundActive = false → P s)
    (h : ServedFrom sched env run B k → ∃ m, k ≤ m ∧ P (run m)) : ∃ m, k ≤ m ∧ P (run m) := by
  by_cases hr : ∃ j, k ≤ j ∧ sched j = .reset
  · obtain ⟨j, hj, ha⟩ := hr
    exact ⟨j + 1, by omega, hreset _ (x.execution.after_reset ha)⟩
  · exact h ⟨x, fun j hj ha => hr ⟨j, hj, ha⟩, hB⟩

/-- A command with a position in a poll loop is one that polls (R96, R100). -/
theorem polls_of_toPoll {c : Instr} {x : Instance} {p : Pos} {y : Word × Nat} (hok : p.ok c x)
    (hp : p.toPoll = some y) : polls c = true := by
  cases c
  case treset | tanalog | tanalog8 | mcons => rfl
  -- no position of another command is in a poll loop
  all_goals cases p <;> simp_all [Pos.ok, Pos.toPoll]

/-- No host job whose command makes no poll stands in a poll loop. -/
theorem pollsEnd_of_noPolls (hi : ∀ k, Inv (run k)) :
    PollsEnd sched run B fun w => ∀ c, decode w = .ok c → polls c = false := by
  intro k p t0 d _ _ hw hs hp
  obtain ⟨-, c, i, hc, -, hok⟩ := (hi k).run p hs
  have hno := hw c hc
  rw [polls_of_toPoll hok hp] at hno
  cases hno

end

/-- Settles O60: without a reset by `ServedFrom.job_finishes`, `round_granted` and `active_ends`; poll loops end in a
paced execution (`Execution.leavesPolls`), and a job without polls is never in one (`pollsEnd_of_noPolls`). -/
theorem neverStops : Obligations.NeverStops := by
  unfold Obligations.NeverStops
  refine ⟨fun s => act_next _ _, fun s hi he => seqStep_not_enabled hi he, fun sched env run hx hf hi k => ⟨?_, ?_⟩⟩
  · intro hpaced hB
    have x := hx.served_of_paced hi hf hpaced
    have hW : PollsEnd sched run (2 ^ 28) fun _ => True :=
      fun k p t0 d hr hB _ hs hp => hx.leavesPolls hi hf hpaced hr hB hs hp
    exact ⟨fun hb => x.eventually hB (fun _ ⟨h, _, _⟩ => h) fun y => y.job_finishes hW trivial hb,
      fun _ => x.eventually hB (fun _ ⟨_, h, _⟩ => h) fun y => y.round_granted hW,
      fun ha => x.eventually hB (fun _ ⟨_, _, h⟩ => h) fun y => y.active_ends ha⟩
  · intro h0
    have x := hx.served_of_fair hi hf
    exact ⟨fun hb hw => x.eventually h0.le (fun _ ⟨h, _, _⟩ => h) fun y => y.job_finishes (pollsEnd_of_noPolls hi) hw hb,
      fun ha => x.eventually h0.le (fun _ ⟨_, _, h⟩ => h) fun y => y.active_ends ha⟩

end Sys2Proof.Machine
end

section
/-! Hardware reset (spec/70_reset_and_hazards.md R200, R201): one step from any state. -/

namespace Sys2Proof.Machine

/-- A reset that the schedule lists next is the whole step, whatever SEQ and the host job are doing (R200, R201). -/
theorem step_reset {s : State} {rest : List Action} (h : s.script = .reset :: rest) :
    step s = .next (hardReset { s with script := rest }) := by
  rw [step_of_script h, act]

end Sys2Proof.Machine

namespace Sys2Proof

open Machine

/-- Settles O57: the step is `Machine.hardReset` (`step_reset`), the reset state with what lies outside the block. -/
theorem hardReset : Obligations.HardReset := by
  unfold Obligations.HardReset
  intro s rest h
  rw [step_reset h, Machine.hardReset]

end Sys2Proof
end

section
/-! The words written out in spec/95_test_vectors.md section 4.1, read by the decoder's rule `decode_eq_ok_iff`. -/

namespace Sys2Proof

/-- Settles O3: each word has its command's opcode in `OP` and its command's operands in the fields of its row; in
`0xFFFFFFE0` only bits that `NOP` ignores are 1 (R70, R75). -/
theorem specWords : Obligations.SpecWords := by
  unfold Obligations.SpecWords
  and_intros <;> exact decode_eq_ok_iff.mpr ⟨rfl, rfl⟩

end Sys2Proof
end
